-- ==== Sys2Proof/Word.lean ====
section
/-! DEFINITION. The words the block moves: bytes, 32-bit registers and byte strings of a fixed length
(spec/00_scope.md rules R10, R13; spec/10_state.md rule R40). -/

namespace Sys2Proof

/-- A byte, `0x00` to `0xFF` (R10). -/
abbrev Byte := BitVec 8

/-- The contents of a 32-bit register (R40). -/
abbrev Word := BitVec 32

/-- A byte string of length `n`, byte 0 first (R10). The length is part of the data, so a window or a
block of another length cannot be built. -/
structure Bytes (n : Nat) where
  bytes : List Byte
  len : bytes.length = n
  deriving DecidableEq, Repr

/-- A *block* is a byte string of length 16 (R10). -/
abbrev Block := Bytes 16

/-- `0^n`, the string of `n` zero bytes (R10). -/
def Bytes.zero (n : Nat) : Bytes n := ⟨List.replicate n 0, by simp⟩

end Sys2Proof
end

