-- ==== Sys2Proof/Config.lean ====
section
/-! DEFINITION. The parameters of spec/00_scope.md rule R9, and the free values: what the spec leaves open,
as constants with no body. -/

namespace Sys2Proof

/-- `MSG_SIZE`, the size of the message memory: a power of two from 4096 to 65536, default 65536 (R9). -/
inductive MsgSize where
  | s4096
  | s8192
  | s16384
  | s32768
  | s65536
  deriving DecidableEq, Repr

/-- The number of bytes of MSG. -/
def MsgSize.bytes : MsgSize → Nat
  | .s4096 => 4096
  | .s8192 => 8192
  | .s16384 => 16384
  | .s32768 => 32768
  | .s65536 => 65536

/-- `GCM_CTR_INC`, the counter increment of GCM: `inc32` (default) or `inc128` (R9, R304). -/
inductive CtrInc where
  | inc32
  | inc128
  deriving DecidableEq, Repr

/-- `XTS_ALPHA_ORDER`, the byte order of the XTS tweak doubling: LE (default) or BE (R9, R381). -/
inductive AlphaOrder where
  | le
  | be
  deriving DecidableEq, Repr

/-- The block-cipher primitive `E`, `D` of rule R8. `external` is the spec's reading: any pair of functions
with the inverse law. `aes` is AES of FIPS-197, the primitive the spec names for its vectors
(PRESUMED, log 3). -/
inductive Primitive where
  | external
  | aes
  deriving DecidableEq, Repr

/-- The parameters the model takes as arguments (R9). They stand in the state as a field nothing writes, so
that a statement about every state is a statement about every choice of them (log 2). -/
structure Params where
  msgSize : MsgSize
  devBase : Nat
  gcmCtrInc : CtrInc
  xtsAlphaOrder : AlphaOrder
  primitive : Primitive
  deriving DecidableEq, Repr

/-- The defaults of R9. `DEV_BASE` has none: 0 (DESIGN CHOICE, log 2). The primitive is AES (PRESUMED, log 3). -/
def Params.default : Params where
  msgSize := .s65536
  devBase := 0
  gcmCtrInc := .inc32
  xtsAlphaOrder := .le
  primitive := .aes

/-- The only requirement R9 puts on a parameter's value that its type does not: `DEV_BASE` is aligned to 0x20000. -/
abbrev Params.wf (p : Params) : Prop := p.devBase % 0x20000 = 0

/-- `LMAX`, the number of OCB `L_i` values precomputed (R9). -/
def Config.lmax : Nat := 32

/-- The external block cipher of R8: for every key string a permutation of the blocks. Nothing is known of it
but that it has an inverse, which is the one law R8 states. A free value: no body (log 3). -/
opaque Config.cipher : List Byte → Equiv.Perm Block

/-- A free byte: what the spec calls unspecified or undefined, as byte `index` of the draw numbered `draw`
(spec/93_implementation_defined.md items I1, I2, I4, I5). A free value: no body (logs 4, 5, 8, 9). -/
opaque Config.freeByte : (draw : Nat) → (index : Nat) → Byte

end Sys2Proof
end

