-- ==== Sys2Proof/Syntax.lean ====
section
/-! DEFINITION. The commands, one constructor for each row of spec/opcode_table.json
(spec/30_encoding.md rules R140, R150). -/

namespace Sys2Proof

/-- The fields of a command word beside OP (R140): the `t=`, `p=` and `cont` of an assembled command (R161).
Every command carries all three, because every word has them. A command that does not use one ignores
it (R149; log 22). -/
structure Fields where
  /-- TLEN, the tag length in bytes (R142). -/
  tlen : Nat
  /-- PARAM, CCM's `L` or the CFB segment code (R143). -/
  param : Nat
  /-- CONT, continue the stream in `ST` (R144). -/
  cont : Bool
  deriving DecidableEq, Repr

/-- The 32 commands (R150). -/
inductive Instr where
  | nop (f : Fields)
  | keyinit (f : Fields)
  | ecbEnc (f : Fields)
  | ecbDec (f : Fields)
  | cbcEnc (f : Fields)
  | cbcDec (f : Fields)
  | ctr (f : Fields)
  | ofb (f : Fields)
  | cfbEnc (f : Fields)
  | cfbDec (f : Fields)
  | cbcmacGen (f : Fields)
  | cbcmacVer (f : Fields)
  | cmacGen (f : Fields)
  | cmacVer (f : Fields)
  | gcmEnc (f : Fields)
  | gcmDec (f : Fields)
  | ccmEnc (f : Fields)
  | ccmDec (f : Fields)
  | eaxEnc (f : Fields)
  | eaxDec (f : Fields)
  | ocbEnc (f : Fields)
  | ocbDec (f : Fields)
  | xtsEnc (f : Fields)
  | xtsDec (f : Fields)
  | kwWrap (f : Fields)
  | kwUnwrap (f : Fields)
  | ghash (f : Fields)
  | polyval (f : Fields)
  | gfmulG (f : Fields)
  | gfmulP (f : Fields)
  | gfdblBe (f : Fields)
  | gfdblLe (f : Fields)
  deriving DecidableEq, Repr

/-- The fields a command carries. -/
def Instr.fields : Instr → Fields
  | .nop f | .keyinit f | .ecbEnc f | .ecbDec f | .cbcEnc f | .cbcDec f | .ctr f | .ofb f
  | .cfbEnc f | .cfbDec f | .cbcmacGen f | .cbcmacVer f | .cmacGen f | .cmacVer f
  | .gcmEnc f | .gcmDec f | .ccmEnc f | .ccmDec f | .eaxEnc f | .eaxDec f | .ocbEnc f | .ocbDec f
  | .xtsEnc f | .xtsDec f | .kwWrap f | .kwUnwrap f | .ghash f | .polyval f
  | .gfmulG f | .gfmulP f | .gfdblBe f | .gfdblLe f => f

end Sys2Proof
end

