-- ==== Sys2Proof/Machine/State.lean ====
section
/-! DEFINITION. Everything the spec gives the machine, as plain data (spec/10_state.md, spec/20_memory.md rule
R100), and the machine right after reset (rule R68). -/

namespace Sys2Proof.Machine

/-- The sequencer state `SEQ`, shown as STATUS.BUSY (R64, R180). -/
inductive Seq where
  | idle
  | busy
  deriving DecidableEq, Repr

/-- The error codes of STATUS.ERRCODE (spec/60_exceptions.md rule R500). Codes 11–255 are never produced. -/
inductive ErrCode where
  | none
  | badop
  | nokey
  | keylen
  | param
  | state
  | nonce
  | len
  | range
  | overlap
  | abort
  deriving DecidableEq, Repr

/-- The family that owns a stream (R62, spec/42_stream.md rule R230). -/
inductive Family where
  | cbc
  | ctr
  | ofb
  | cfb1
  | cfb8
  | cfb16
  deriving DecidableEq, Repr

/-- The lengths KEYINIT accepts (R60, R505). -/
inductive KeyLen where
  | k16
  | k24
  | k32
  | k64
  deriving DecidableEq, Repr

/-- The key context `KC` (R60). `k` is defined when klen ≤ 32, `key1` and `key2` when klen is 32 or 64, and
`h` to `l` when klen ≤ 32; elsewhere they hold free values (log 8). -/
structure KeyContext where
  valid : Bool
  klen : KeyLen
  key : List Byte
  k : List Byte
  key1 : List Byte
  key2 : List Byte
  h : Block
  k1 : Block
  k2 : Block
  ldollar : Block
  l : List Block
  deriving DecidableEq, Repr

/-- The stream state `ST` (R62). -/
structure Stream where
  valid : Bool
  smode : Family
  sreg : Block
  ks : Block
  pos : Fin 17
  fresh : Bool
  deriving DecidableEq, Repr

/-- The command latch `CL`: the copies taken at START (R64, spec/40_control.md rule R181). -/
structure Latch where
  cmd : Word
  keylen : Word
  srcPtr : Word
  srcLen : Word
  dstPtr : Word
  aadPtr : Word
  aadLen : Word
  noncePtr : Word
  nonceLen : Word
  rxtlen : BitVec 8
  tag : Block
  gfa : Block
  gfb : Block
  deriving DecidableEq, Repr

/-- The width of a host access (spec/20_memory.md rule R102). -/
inductive Width where
  | w1
  | w2
  | w4
  deriving DecidableEq, Repr

/-- One host access at a host bus address (R100, R102; spec/30_encoding.md rule R160). -/
inductive Access where
  | read (w : Width) (addr : Nat)
  | write (w : Width) (addr : Nat) (v : Word)
  deriving DecidableEq, Repr

/-- What comes next: a host access, a slot in which the engine may take its completion step (R7, R182), or the
platform's reset input (R560). Any interleaving is a list of these (log 1). -/
inductive Input where
  | access (a : Access)
  | engine
  | hardReset
  deriving DecidableEq, Repr

/-- The outcome of a host access (R105). Lanes above a read's width are 0 in the record (log 10). -/
inductive Response where
  /-- A read returned this value. -/
  | data (v : Word)
  /-- A write completed on the bus, with or without effect. -/
  | written
  /-- `BusError` (R105). -/
  | busError
  deriving DecidableEq, Repr

/-- The machine. -/
structure State where
  /-- The parameters of R9; nothing writes them (log 2). -/
  cfg : Params
  /-- CTRL.IRQ_EN (R43). -/
  irqEn : Bool
  /-- `SEQ`, STATUS.BUSY (R64). -/
  seq : Seq
  /-- STATUS.DONE (R45). -/
  done : Bool
  /-- STATUS.ERR (R45). -/
  err : Bool
  /-- STATUS.AUTHFAIL (R45). -/
  authfail : Bool
  /-- STATUS.BUSYERR (R45). -/
  busyerr : Bool
  /-- STATUS.ERRCODE (R45, R500). -/
  errcode : ErrCode
  cmd : Word
  keylen : Word
  srcPtr : Word
  srcLen : Word
  dstPtr : Word
  aadPtr : Word
  aadLen : Word
  noncePtr : Word
  nonceLen : Word
  /-- RXTLEN bits 7:0; bits 31:8 read 0 (R50). -/
  rxtlen : BitVec 8
  outLen : Word
  /-- The KEY window (R52). -/
  key : Bytes 64
  tag : Block
  gfa : Block
  gfb : Block
  gfr : Block
  kc : KeyContext
  st : Stream
  cl : Latch
  /-- MSG: the written bytes, addresses strictly rising (R100; log 4). -/
  msg : List Host.Cell
  /-- The draw that unlisted MSG bytes read from (the model's own; log 4). -/
  msgDraw : Nat
  /-- The next unused free draw (the model's own; log 9). -/
  draws : Nat
  /-- What comes next, oldest first (the model's own; log 1). -/
  inputs : List Input
  /-- The outcome of the latest host access (the model's own; log 10). -/
  response : Option Response
  deriving DecidableEq, Repr

/-- Why the machine stops. The spec lets nothing stop it: a failed check, an abort and a failed verification
end a command (spec/60_exceptions.md rule R501), and a bus error is the outcome of one access. So there is no
constructor. -/
inductive Fault where
  deriving DecidableEq, Repr

/-- Why an instruction has no meaning. -/
inductive Refusal where
  /-- The instruction of that mnemonic has no meaning yet. Raised only by an arm of `exec` that has not been
  written; safe, because nothing is claimed of it. No arm raises it now. -/
  | notModelled (mnemonic : String)
  deriving DecidableEq, Repr

/-- `KC` after reset: invalid (R68). The other fields are undefined there; the values are a DESIGN CHOICE (log 6). -/
def KeyContext.reset : KeyContext where
  valid := false
  klen := .k16
  key := List.replicate 16 0
  k := List.replicate 16 0
  key1 := []
  key2 := []
  h := Bytes.zero 16
  k1 := Bytes.zero 16
  k2 := Bytes.zero 16
  ldollar := Bytes.zero 16
  l := List.replicate 32 (Bytes.zero 16)

/-- `ST` after reset: invalid (R68). The other fields are a DESIGN CHOICE (log 6). -/
def Stream.reset : Stream where
  valid := false
  smode := .cbc
  sreg := Bytes.zero 16
  ks := Bytes.zero 16
  pos := 0
  fresh := false

/-- `CL` after reset: undefined in R68; zero is a DESIGN CHOICE (log 6). -/
def Latch.reset : Latch where
  cmd := 0
  keylen := 0
  srcPtr := 0
  srcLen := 0
  dstPtr := 0
  aadPtr := 0
  aadLen := 0
  noncePtr := 0
  nonceLen := 0
  rxtlen := 0
  tag := Bytes.zero 16
  gfa := Bytes.zero 16
  gfb := Bytes.zero 16

/-- The machine right after a hard reset (R68, R560): every register and window 0, `KC` and `ST` invalid,
`SEQ` idle, MSG unspecified. Parameters at the spec's defaults (log 2). -/
def State.reset : State where
  cfg := Params.default
  irqEn := false
  seq := .idle
  done := false
  err := false
  authfail := false
  busyerr := false
  errcode := .none
  cmd := 0
  keylen := 0
  srcPtr := 0
  srcLen := 0
  dstPtr := 0
  aadPtr := 0
  aadLen := 0
  noncePtr := 0
  nonceLen := 0
  rxtlen := 0
  outLen := 0
  key := Bytes.zero 64
  tag := Bytes.zero 16
  gfa := Bytes.zero 16
  gfb := Bytes.zero 16
  gfr := Bytes.zero 16
  kc := KeyContext.reset
  st := Stream.reset
  cl := Latch.reset
  msg := []
  msgDraw := 0
  draws := 1
  inputs := []
  response := none

/-- What a command's meaning answers. -/
abbrev Result := Host.Outcome State Fault Refusal

end Sys2Proof.Machine
end

