-- ==== Sys2Proof/Machine/Flags.lean ====
section
/-! DEFINITION. The flags: the STATUS word, the views of `KC` and `ST` in it, CTRL and IRQ
(spec/10_state.md rules R43, R45, R63, R65). -/

namespace Sys2Proof.Machine

/-- The number STATUS.ERRCODE shows (spec/60_exceptions.md rule R500). -/
def ErrCode.code : ErrCode → Nat
  | .none => 0
  | .badop => 1
  | .nokey => 2
  | .keylen => 3
  | .param => 4
  | .state => 5
  | .nonce => 6
  | .len => 7
  | .range => 8
  | .overlap => 9
  | .abort => 10

/-- The number STATUS.SMODE shows for a family (R63). -/
def Family.code : Family → Nat
  | .cbc => 1
  | .ctr => 2
  | .ofb => 3
  | .cfb1 => 4
  | .cfb8 => 5
  | .cfb16 => 6

/-- STATUS.SMODE: the family of a valid stream, 0 when there is none (R63). -/
def State.smodeView (s : State) : Nat := if s.st.valid then s.st.smode.code else 0

/-- STATUS.SPOS: the keystream position of a valid CTR or OFB stream, otherwise 0 (R63). -/
def State.sposView (s : State) : Nat :=
  if s.st.valid && (s.st.smode == .ctr || s.st.smode == .ofb) then s.st.pos.val else 0

/-- STATUS as it reads (R45). The fields share no bit, so their sum is their union. -/
def State.statusWord (s : State) : Word :=
  BitVec.ofNat 32
    ((if s.seq = .busy then 1 else 0)
      + 2 ^ 1 * s.done.toNat
      + 2 ^ 2 * s.err.toNat
      + 2 ^ 3 * s.authfail.toNat
      + 2 ^ 4 * s.busyerr.toNat
      + 2 ^ 5 * s.kc.valid.toNat
      + 2 ^ 6 * s.st.valid.toNat
      + 2 ^ 8 * s.smodeView
      + 2 ^ 16 * s.sposView
      + 2 ^ 24 * s.errcode.code)

/-- CTRL as it reads: `IRQ_EN << 3` (R43). -/
def State.ctrlWord (s : State) : Word := BitVec.ofNat 32 (2 ^ 3 * s.irqEn.toNat)

/-- The interrupt output, a level (R65, R511). -/
def State.irq (s : State) : Bool := s.irqEn && s.done

end Sys2Proof.Machine
end

