-- ==== Sys2Proof/WellFormed.lean ====
section
/-! DEFINITION. Which commands have an encoding: the two refusals of the assembler
(spec/30_encoding.md rule R161). The ranges of R146 are not checked here: an encodable command with an illegal
TLEN or PARAM runs, and raises CmdError(PARAM). -/

namespace Sys2Proof

/-- "The assembler refuses `t` > 31 and `p` > 15" (R161): TLEN is 5 bits wide, PARAM 4 (R140). -/
def Fields.wf (f : Fields) : Bool := decide (f.tlen ≤ 31) && decide (f.param ≤ 15)

/-- A command is well formed when its fields fit the word. -/
def Instr.wf (i : Instr) : Bool := i.fields.wf

end Sys2Proof
end

