-- ==== Sys2Proof/Decode.lean ====
section
/-! DEFINITION. The decoder of a command word, and after it the encoder
(spec/30_encoding.md rules R140–R145, R150–R152, R161). -/

namespace Sys2Proof

/-- Why a word is no command. Either reason ends the command with `CmdError(BADOP)` (R151). -/
inductive DecodeReject where
  /-- A reserved bit (7:6, 15:13 or 31:21) is 1 (R145). -/
  | reservedBits
  /-- OP is 0x20–0x3F (R151). -/
  | reservedOpcode
  /-- Fewer than the 4 bytes of a word were given (log 21). -/
  | truncated
  deriving DecidableEq, Repr

/-- `w[lo+len-1 : lo]` as an unsigned number (R13; "zext" of R152). -/
def bitField (w : Word) (lo len : Nat) : Nat := (w.toNat / 2 ^ lo) % 2 ^ len

/-- Is one of the reserved bits 7:6, 15:13, 31:21 set (R145)? -/
def reservedSet (w : Word) : Bool :=
  bitField w 6 2 != 0 || bitField w 13 3 != 0 || bitField w 21 11 != 0

/-- TLEN, PARAM and CONT of a word (R140, R142–R144). -/
def wordFields (w : Word) : Fields where
  tlen := bitField w 8 5
  param := bitField w 16 4
  cont := bitField w 20 1 == 1

/-- The command of an opcode (R150); none for 0x20–0x3F (R151). -/
def instrOfOp (op : Nat) (f : Fields) : Option Instr :=
  match op with
  | 0x00 => some (.nop f)
  | 0x01 => some (.keyinit f)
  | 0x02 => some (.ecbEnc f)
  | 0x03 => some (.ecbDec f)
  | 0x04 => some (.cbcEnc f)
  | 0x05 => some (.cbcDec f)
  | 0x06 => some (.ctr f)
  | 0x07 => some (.ofb f)
  | 0x08 => some (.cfbEnc f)
  | 0x09 => some (.cfbDec f)
  | 0x0A => some (.cbcmacGen f)
  | 0x0B => some (.cbcmacVer f)
  | 0x0C => some (.cmacGen f)
  | 0x0D => some (.cmacVer f)
  | 0x0E => some (.gcmEnc f)
  | 0x0F => some (.gcmDec f)
  | 0x10 => some (.ccmEnc f)
  | 0x11 => some (.ccmDec f)
  | 0x12 => some (.eaxEnc f)
  | 0x13 => some (.eaxDec f)
  | 0x14 => some (.ocbEnc f)
  | 0x15 => some (.ocbDec f)
  | 0x16 => some (.xtsEnc f)
  | 0x17 => some (.xtsDec f)
  | 0x18 => some (.kwWrap f)
  | 0x19 => some (.kwUnwrap f)
  | 0x1A => some (.ghash f)
  | 0x1B => some (.polyval f)
  | 0x1C => some (.gfmulG f)
  | 0x1D => some (.gfmulP f)
  | 0x1E => some (.gfdblBe f)
  | 0x1F => some (.gfdblLe f)
  | _ => none

/-- Decode a command word (R152): reserved bits first, then the opcode. -/
def decodeWord (w : Word) : Except DecodeReject Instr :=
  if reservedSet w then .error .reservedBits
  else match instrOfOp (bitField w 0 6) (wordFields w) with
    | some i => .ok i
    | none => .error .reservedOpcode

/-- A 32-bit word from its four bytes, lowest lane first (spec/20_memory.md rule R102). -/
def wordOfLanes (b0 b1 b2 b3 : Byte) : Word :=
  BitVec.ofNat 32 (b0.toNat + 2 ^ 8 * b1.toNat + 2 ^ 16 * b2.toNat + 2 ^ 24 * b3.toNat)

/-- Lane `j` of a word: bits `8j+7 : 8j` (R102). -/
def lane (w : Word) (j : Nat) : Byte := BitVec.ofNat 8 (w.toNat / 2 ^ (8 * j))

/-- Decode the bytes a host writes to CMD, the byte at the lowest offset first. Total on any bytes; every
command is exactly one word (R145), so what follows the fourth byte is not read. -/
def decodeBytes : List Byte → Except DecodeReject Instr
  | b0 :: b1 :: b2 :: b3 :: _ => decodeWord (wordOfLanes b0 b1 b2 b3)
  | _ => .error .truncated

/-- The command this decoder reads from an instruction whose bits are `w`, numbered as
spec/opcode_table.json numbers them. -/
def decodeTableWord (nbits w : Nat) : Option Instr :=
  let v : Word := BitVec.ofNat 32 (w % 2 ^ nbits)
  match decodeBytes [lane v 0, lane v 1, lane v 2, lane v 3] with
  | .ok i => some i
  | .error _ => none

/-- OP of a command (R150). -/
def Instr.opcode : Instr → Nat
  | .nop _ => 0x00
  | .keyinit _ => 0x01
  | .ecbEnc _ => 0x02
  | .ecbDec _ => 0x03
  | .cbcEnc _ => 0x04
  | .cbcDec _ => 0x05
  | .ctr _ => 0x06
  | .ofb _ => 0x07
  | .cfbEnc _ => 0x08
  | .cfbDec _ => 0x09
  | .cbcmacGen _ => 0x0A
  | .cbcmacVer _ => 0x0B
  | .cmacGen _ => 0x0C
  | .cmacVer _ => 0x0D
  | .gcmEnc _ => 0x0E
  | .gcmDec _ => 0x0F
  | .ccmEnc _ => 0x10
  | .ccmDec _ => 0x11
  | .eaxEnc _ => 0x12
  | .eaxDec _ => 0x13
  | .ocbEnc _ => 0x14
  | .ocbDec _ => 0x15
  | .xtsEnc _ => 0x16
  | .xtsDec _ => 0x17
  | .kwWrap _ => 0x18
  | .kwUnwrap _ => 0x19
  | .ghash _ => 0x1A
  | .polyval _ => 0x1B
  | .gfmulG _ => 0x1C
  | .gfmulP _ => 0x1D
  | .gfdblBe _ => 0x1E
  | .gfdblLe _ => 0x1F

/-- The assembled word `OP | (n_t << 8) | (n_p << 16) | (1 << 20 if cont)` of a command (R161). The four
parts of a well-formed command share no bit, so their sum is their union. -/
def encode (i : Instr) : Word :=
  BitVec.ofNat 32 (i.opcode + 2 ^ 8 * i.fields.tlen + 2 ^ 16 * i.fields.param
    + 2 ^ 20 * (if i.fields.cont then 1 else 0))

end Sys2Proof
end

