-- ==== Sys2Proof/Machine/Bytes.lean ====
section
/-! DEFINITION. Byte strings and the integers they encode (spec/00_scope.md rules R10–R16), and the 32-bit words
of a window (spec/20_memory.md rule R102). -/

namespace Sys2Proof

/-- `be_n(v)`, the `n`-byte big-endian encoding of `v mod 2^(8n)` (R12). -/
def beBytes : Nat → Nat → List Byte
  | 0, _ => []
  | n + 1, v => beBytes n (v / 256) ++ [BitVec.ofNat 8 v]

/-- `le_n(v)`, the little-endian encoding (R12). -/
def leBytes : Nat → Nat → List Byte
  | 0, _ => []
  | n + 1, v => BitVec.ofNat 8 v :: leBytes n (v / 256)

/-- `int_be(X)` (R12). -/
def intBE (x : List Byte) : Nat := x.foldl (fun acc b => acc * 256 + b.toNat) 0

/-- `int_le(X)` (R12). -/
def intLE : List Byte → Nat
  | [] => 0
  | b :: x => b.toNat + 256 * intLE x

theorem beBytes_length (n v : Nat) : (beBytes n v).length = n := by
  induction n generalizing v with
  | zero => rfl
  | succ n ih => simp [beBytes, ih]

theorem leBytes_length (n v : Nat) : (leBytes n v).length = n := by
  induction n generalizing v with
  | zero => rfl
  | succ n ih => simp [leBytes, ih]

/-- `be_n(v)` as a string of length `n`. -/
def Bytes.be (n v : Nat) : Bytes n := ⟨beBytes n v, beBytes_length n v⟩

/-- `le_n(v)` as a string of length `n`. -/
def Bytes.le (n v : Nat) : Bytes n := ⟨leBytes n v, leBytes_length n v⟩

/-- A list of `n` bytes as a string of length `n`. (Another list is cut or filled with zeros, which no rule
comes to: log 18.) -/
def Bytes.ofList (n : Nat) (x : List Byte) : Bytes n :=
  ⟨(x ++ List.replicate n 0).take n, by simp⟩

/-- `X xor Y` of two strings of equal length (R11). -/
def Bytes.xor {n : Nat} (x y : Bytes n) : Bytes n :=
  ⟨List.zipWith (· ^^^ ·) x.bytes y.bytes, by simp [x.len, y.len]⟩

/-- Byte `i` of a string, for `i` below its length (R10). -/
def Bytes.byte {n : Nat} (x : Bytes n) (i : Nat) : Byte := x.bytes.getD i 0

/-- `X xor Y` of byte lists; as long as the shorter one (`blk xor msb_|blk|(…)` is `xorBytes blk …`; R11). -/
def xorBytes (x y : List Byte) : List Byte := List.zipWith (· ^^^ ·) x y

/-- The block `a ‖ r` of two half-blocks (spec/47_xts_kw.md rule R390). -/
def Bytes.join (a r : Bytes 8) : Block := ⟨a.bytes ++ r.bytes, by simp [a.len, r.len]⟩

/-- `msb_8(B)` (R11). -/
def Bytes.msb8 (b : Block) : Bytes 8 := ⟨b.bytes.take 8, by simp [b.len]⟩

/-- `lsb_8(B)` (R11). -/
def Bytes.lsb8 (b : Block) : Bytes 8 := ⟨b.bytes.drop 8, by simp [b.len]⟩

/-- `zpad16(X)`: zeros up to a multiple of 16; `zpad16(ε) = ε` (R11). -/
def zpad16 (x : List Byte) : List Byte := x ++ List.replicate ((16 - x.length % 16) % 16) 0

/-- A tail `r` of fewer than 16 bytes, then `0x80`, then zeros: `r ‖ 0x80 ‖ 0^(15 − |r|)` (R281, R352). -/
def pad80 (r : List Byte) : Block := Bytes.ofList 16 (r ++ [0x80])

/-- The first `m` strings of length `n` of `X`: `X[0..n-1]`, `X[n..2n-1]`, … -/
def toChunks (n : Nat) : Nat → List Byte → List (Bytes n)
  | 0, _ => []
  | m + 1, x => Bytes.ofList n (x.take n) :: toChunks n m (x.drop n)

/-- The full 16-byte blocks of `X`: block `i` is `X[16i .. 16i+15]`. -/
def toBlocks (x : List Byte) : List Block := toChunks 16 (x.length / 16) x

/-- The concatenation of strings of equal length. -/
def joinChunks {n : Nat} (bs : List (Bytes n)) : List Byte := bs.flatMap (·.bytes)

/-- `CTEq(A, B, t)`: the differences of all `t` bytes gathered by `or` before the single test (R15). -/
def ctEq (a b : List Byte) (t : Nat) : Bool :=
  (List.zipWith (· ^^^ ·) (a.take t) (b.take t)).foldl (· ||| ·) 0 == (0 : Byte)

/-- Counts trailing zero bits, looking at no more than `fuel` bits. -/
def ntzFuel : Nat → Nat → Nat
  | 0, _ => 0
  | fuel + 1, i => if i % 2 = 1 then 0 else ntzFuel fuel (i / 2) + 1

/-- `ntz(i)`, with the source's sentinel `ntz(0) = 128` (R16). -/
def ntz (i : Nat) : Nat := if i = 0 then 128 else ntzFuel i i

/-- The 32-bit word at byte offset `4i` of a window: byte `4i` in bits 7:0 (R56, R102). -/
def Bytes.word {n : Nat} (x : Bytes n) (i : Nat) : Word :=
  wordOfLanes (x.byte (4 * i)) (x.byte (4 * i + 1)) (x.byte (4 * i + 2)) (x.byte (4 * i + 3))

/-- A window with the word at byte offset `4i` replaced (R56, R102). -/
def Bytes.setWord {n : Nat} (x : Bytes n) (i : Nat) (v : Word) : Bytes n :=
  ⟨(((x.bytes.set (4 * i) (lane v 0)).set (4 * i + 1) (lane v 1)).set (4 * i + 2) (lane v 2)).set
    (4 * i + 3) (lane v 3), by simp [x.len]⟩

/-- Bytes `first … first+n-1` of a free draw (log 8). -/
def freeBytes (draw first n : Nat) : List Byte :=
  (List.range n).map fun i => Config.freeByte draw (first + i)

/-- A free block (log 8). -/
def freeBlock (draw first : Nat) : Block := ⟨freeBytes draw first 16, by simp [freeBytes]⟩

end Sys2Proof
end

