-- ==== Sys2Proof/Machine/Operands.lean ====
section
/-! DEFINITION. What each command reads and writes, and the checks of its operands in their order
(spec/30_encoding.md rules R142–R149, R153; spec/20_memory.md rules R108, R110;
spec/60_exceptions.md rules R502–R509). -/

namespace Sys2Proof.Machine

/-- Which key lengths a command takes (R505). -/
inductive KeyRule where
  /-- No key: the check does not apply. -/
  | unkeyed
  /-- KEYINIT: `CL.KEYLEN` is 16, 24, 32 or 64. -/
  | keyinit
  /-- `KC.klen` is not 64. -/
  | standard
  /-- `KC.klen` is 32 or 64. -/
  | xts
  deriving DecidableEq, Repr

/-- Which TLEN and PARAM values a command takes (R146, R504). -/
inductive ParamRule where
  /-- Both fields ignored (R149). -/
  | ignored
  /-- TLEN 1–16. -/
  | mac
  /-- TLEN 16. -/
  | gcm
  /-- TLEN even, 4–16; PARAM = `L` in 2–8. -/
  | ccm
  /-- TLEN 8–16 (EAX, OCB). -/
  | tag8to16
  /-- PARAM = CFB segment code 0–2. -/
  | cfb
  deriving DecidableEq, Repr

/-- Which lengths of the nonce region a command takes (R506). -/
inductive NonceRule where
  /-- No nonce region: its registers are ignored (R148). -/
  | unused
  /-- A stream command: 16 with CONT = 0; unused with CONT = 1. -/
  | stream
  /-- At least 1 (GCM). -/
  | atLeast1
  /-- `15 − L` (CCM). -/
  | ccm
  /-- Any, including 0 (EAX). -/
  | any
  /-- 1 to 15 (OCB). -/
  | ocb
  /-- 16 (the XTS tweak). -/
  | tweak
  /-- 0 (KW). -/
  | empty
  deriving DecidableEq, Repr

/-- Which source lengths a command takes (R507). -/
inductive LenRule where
  | any
  /-- A multiple of 16. -/
  | block
  /-- A multiple of the CFB segment size. -/
  | segment
  /-- Below `2^(8L)`. -/
  | ccm
  /-- At least 16. -/
  | xts
  /-- A multiple of 8, at least 16. -/
  | kwWrap
  /-- A multiple of 8, at least 24. -/
  | kwUnwrap
  deriving DecidableEq, Repr

/-- The output length of a command in terms of `n = CL.SRC_LEN` (R153). -/
inductive OutRule where
  | zero
  | same
  | plus8
  | minus8
  deriving DecidableEq, Repr

/-- One row of the tables R146, R147, R153, R505, R506 and R507 for one command. -/
structure Profile where
  key : KeyRule
  param : ParamRule
  nonce : NonceRule
  len : LenRule
  /-- Reads the source region. -/
  src : Bool
  /-- Reads the AAD region. -/
  aad : Bool
  out : OutRule
  /-- Produces a tag in TAG. -/
  tagOut : Bool
  /-- One of the six GF commands, which produce GFR. -/
  gfrOut : Bool
  deriving DecidableEq, Repr

/-- A command that uses nothing: NOP. -/
def Profile.nothing : Profile where
  key := .unkeyed
  param := .ignored
  nonce := .unused
  len := .any
  src := false
  aad := false
  out := .zero
  tagOut := false
  gfrOut := false

/-- The row of a command that turns `n` source bytes into `n` destination bytes under a standard key. -/
def Profile.cipher (param : ParamRule) (nonce : NonceRule) (len : LenRule) : Profile :=
  { Profile.nothing with key := .standard, param, nonce, len, src := true, out := .same }

/-- The row of an AEAD command. -/
def Profile.aead (param : ParamRule) (nonce : NonceRule) (len : LenRule) (enc : Bool) : Profile :=
  { Profile.cipher param nonce len with aad := true, tagOut := enc }

/-- The row of a MAC command (R283). -/
def Profile.mac (gen : Bool) : Profile :=
  { Profile.nothing with
    key := .standard, param := if gen then .mac else .ignored, src := true, tagOut := gen }

/-- The row of each command (R147). -/
def profile : Instr → Profile
  | .nop _ => .nothing
  | .keyinit _ => { Profile.nothing with key := .keyinit }
  | .ecbEnc _ => .cipher .ignored .unused .block
  | .ecbDec _ => .cipher .ignored .unused .block
  | .cbcEnc _ => .cipher .ignored .stream .block
  | .cbcDec _ => .cipher .ignored .stream .block
  | .ctr _ => .cipher .ignored .stream .any
  | .ofb _ => .cipher .ignored .stream .any
  | .cfbEnc _ => .cipher .cfb .stream .segment
  | .cfbDec _ => .cipher .cfb .stream .segment
  | .cbcmacGen _ => .mac true
  | .cbcmacVer _ => .mac false
  | .cmacGen _ => .mac true
  | .cmacVer _ => .mac false
  | .gcmEnc _ => .aead .gcm .atLeast1 .any true
  | .gcmDec _ => .aead .gcm .atLeast1 .any false
  | .ccmEnc _ => .aead .ccm .ccm .ccm true
  | .ccmDec _ => .aead .ccm .ccm .ccm false
  | .eaxEnc _ => .aead .tag8to16 .any .any true
  | .eaxDec _ => .aead .tag8to16 .any .any false
  | .ocbEnc _ => .aead .tag8to16 .ocb .any true
  | .ocbDec _ => .aead .tag8to16 .ocb .any false
  | .xtsEnc _ => { Profile.cipher .ignored .tweak .xts with key := .xts }
  | .xtsDec _ => { Profile.cipher .ignored .tweak .xts with key := .xts }
  | .kwWrap _ => { Profile.cipher .ignored .empty .kwWrap with out := .plus8 }
  | .kwUnwrap _ => { Profile.cipher .ignored .empty .kwUnwrap with out := .minus8 }
  | .ghash _ => { Profile.nothing with len := .block, src := true, gfrOut := true }
  | .polyval _ => { Profile.nothing with len := .block, src := true, gfrOut := true }
  | .gfmulG _ => { Profile.nothing with gfrOut := true }
  | .gfmulP _ => { Profile.nothing with gfrOut := true }
  | .gfdblBe _ => { Profile.nothing with gfrOut := true }
  | .gfdblLe _ => { Profile.nothing with gfrOut := true }

/-- The CFB segment size in bytes of a segment code (R143). A code above 2 raises PARAM before this is used. -/
def segmentSize (param : Nat) : Nat :=
  if param = 0 then 1 else if param = 1 then 8 else 16

/-- The CFB family of a segment code (R230). -/
def cfbFamily (param : Nat) : Family :=
  if param = 0 then .cfb1 else if param = 1 then .cfb8 else .cfb16

/-- The family of a stream command; none for any other command (R230). -/
def streamFamily : Instr → Option Family
  | .cbcEnc _ | .cbcDec _ => some .cbc
  | .ctr _ => some .ctr
  | .ofb _ => some .ofb
  | .cfbEnc f | .cfbDec f => some (cfbFamily f.param)
  | .nop _ | .keyinit _ | .ecbEnc _ | .ecbDec _ | .cbcmacGen _ | .cbcmacVer _ | .cmacGen _ | .cmacVer _
  | .gcmEnc _ | .gcmDec _ | .ccmEnc _ | .ccmDec _ | .eaxEnc _ | .eaxDec _ | .ocbEnc _ | .ocbDec _
  | .xtsEnc _ | .xtsDec _ | .kwWrap _ | .kwUnwrap _ | .ghash _ | .polyval _
  | .gfmulG _ | .gfmulP _ | .gfdblBe _ | .gfdblLe _ => none

/-- The number of bytes of a key length (R60). -/
def KeyLen.bytes : KeyLen → Nat
  | .k16 => 16
  | .k24 => 24
  | .k32 => 32
  | .k64 => 64

/-- The key length a KEYLEN value stands for, if KEYINIT accepts it (R505). -/
def KeyLen.ofNat? (n : Nat) : Option KeyLen :=
  if n = 16 then some .k16 else if n = 24 then some .k24
  else if n = 32 then some .k32 else if n = 64 then some .k64 else none

/-- `MSG_SIZE` of this machine (R9). -/
def State.msgSize (s : State) : Nat := s.cfg.msgSize.bytes

/-- `outlen` of a command (R153). -/
def outlen (i : Instr) (s : State) : Nat :=
  match (profile i).out with
  | .zero => 0
  | .same => s.cl.srcLen.toNat
  | .plus8 => s.cl.srcLen.toNat + 8
  | .minus8 => s.cl.srcLen.toNat - 8

/-- A *region*: a pointer and a length (R108). -/
structure Region where
  ptr : Nat
  len : Nat
  deriving DecidableEq, Repr

/-- The range check of R108, without wrap-around. -/
def Region.inRange (r : Region) (size : Nat) : Bool := r.len == 0 || decide (r.ptr + r.len ≤ size)

/-- Do two regions overlap (R110)? An empty region overlaps none. -/
def Region.overlaps (a b : Region) : Bool :=
  decide (0 < a.len) && decide (0 < b.len) && decide (a.ptr < b.ptr + b.len) && decide (b.ptr < a.ptr + a.len)

/-- The source region (R148). -/
def State.srcRegion (s : State) : Region := ⟨s.cl.srcPtr.toNat, s.cl.srcLen.toNat⟩

/-- The AAD region (R148). -/
def State.aadRegion (s : State) : Region := ⟨s.cl.aadPtr.toNat, s.cl.aadLen.toNat⟩

/-- The nonce region (R148). -/
def State.nonceRegion (s : State) : Region := ⟨s.cl.noncePtr.toNat, s.cl.nonceLen.toNat⟩

/-- The destination region of a command (R108, R148). -/
def dstRegion (i : Instr) (s : State) : Region := ⟨s.cl.dstPtr.toNat, outlen i s⟩

/-- Does a command use the nonce region (R148)? A stream command does when CONT = 0. -/
def usesNonce (i : Instr) : Bool :=
  match (profile i).nonce with
  | .unused => false
  | .stream => !i.fields.cont
  | .atLeast1 | .ccm | .any | .ocb | .tweak | .empty => true

/-- Does the command need a key (R502)? -/
def isKeyed (i : Instr) : Bool :=
  match (profile i).key with
  | .unkeyed | .keyinit => false
  | .standard | .xts => true

/-- Check 2, NOKEY (R502). -/
def nokeyFails (i : Instr) (s : State) : Bool := isKeyed i && !s.kc.valid

/-- Check 3, KEYLEN (R505). -/
def keylenFails (i : Instr) (s : State) : Bool :=
  match (profile i).key with
  | .unkeyed => false
  | .keyinit => (KeyLen.ofNat? s.cl.keylen.toNat).isNone
  | .standard => s.kc.klen == .k64
  | .xts => s.kc.klen == .k16 || s.kc.klen == .k24

/-- Check 4, PARAM (R504). -/
def paramFails (i : Instr) : Bool :=
  let t := i.fields.tlen
  let p := i.fields.param
  match (profile i).param with
  | .ignored => false
  | .mac => !(decide (1 ≤ t) && decide (t ≤ 16))
  | .gcm => t != 16
  | .ccm => !(decide (4 ≤ t) && decide (t ≤ 16) && t % 2 == 0) || !(decide (2 ≤ p) && decide (p ≤ 8))
  | .tag8to16 => !(decide (8 ≤ t) && decide (t ≤ 16))
  | .cfb => decide (2 < p)

/-- Check 5, STATE (R504). -/
def stateFails (i : Instr) (s : State) : Bool :=
  match streamFamily i with
  | none => false
  | some fam => i.fields.cont && (!s.st.valid || s.st.smode != fam)

/-- Check 6, NONCE (R506). -/
def nonceFails (i : Instr) (s : State) : Bool :=
  let nl := s.cl.nonceLen.toNat
  match (profile i).nonce with
  | .unused => false
  | .stream => !i.fields.cont && nl != 16
  | .atLeast1 => decide (nl < 1)
  | .ccm => nl != 15 - i.fields.param
  | .any => false
  | .ocb => !(decide (1 ≤ nl) && decide (nl ≤ 15))
  | .tweak => nl != 16
  | .empty => nl != 0

/-- Check 7, LEN (R507). -/
def lenFails (i : Instr) (s : State) : Bool :=
  let n := s.cl.srcLen.toNat
  match (profile i).len with
  | .any => false
  | .block => n % 16 != 0
  | .segment => n % segmentSize i.fields.param != 0
  | .ccm => !decide (n < 2 ^ (8 * i.fields.param))
  | .xts => decide (n < 16)
  | .kwWrap => n % 8 != 0 || decide (n < 16)
  | .kwUnwrap => n % 8 != 0 || decide (n < 24)

/-- Check 8, RANGE (R508): the regions the command uses. -/
def rangeFails (i : Instr) (s : State) : Bool :=
  ((profile i).src && !s.srcRegion.inRange s.msgSize)
    || ((profile i).aad && !s.aadRegion.inRange s.msgSize)
    || (usesNonce i && !s.nonceRegion.inRange s.msgSize)
    || !(dstRegion i s).inRange s.msgSize

/-- Check 9, OVERLAP (R509, R110): the destination against the regions the command uses (log 14). -/
def overlapFails (i : Instr) (s : State) : Bool :=
  let dst := dstRegion i s
  ((profile i).aad && dst.overlaps s.aadRegion)
    || (usesNonce i && dst.overlaps s.nonceRegion)
    || ((profile i).src && dst.overlaps s.srcRegion && dst.ptr != s.srcRegion.ptr)

/-- `check(CL)` after decoding: the first failing check, in the order of R502. -/
def check (i : Instr) (s : State) : Option ErrCode :=
  if nokeyFails i s then some .nokey
  else if keylenFails i s then some .keylen
  else if paramFails i then some .param
  else if stateFails i s then some .state
  else if nonceFails i s then some .nonce
  else if lenFails i s then some .len
  else if rangeFails i s then some .range
  else if overlapFails i s then some .overlap
  else none

/-- `check(CL)` of the latched word: decoding is check 1, BADOP (R502, R152). -/
def checkLatched (s : State) : Except ErrCode Instr :=
  match decodeWord s.cl.cmd with
  | .error _ => .error .badop
  | .ok i =>
    match check i s with
    | some c => .error c
    | none => .ok i

end Sys2Proof.Machine
end

