-- ==== Sys2Proof/Machine/Ops.lean ====
section
/-! DEFINITION. The named operations over memory and registers: MSG, the start of a command, and its four ends
(spec/20_memory.md rules R106, R107, R120; spec/40_control.md rules R181, R183, R184;
spec/60_exceptions.md rule R503). -/

namespace Sys2Proof.Machine

/-- MSG as the list of its written bytes (R100). -/
abbrev Memory := List Host.Cell

/-- The one canonical form: addresses strictly rising. -/
abbrev Memory.wf (m : Memory) : Prop := m.Pairwise (fun c d => c.1 < d.1)

/-- The byte written at an address; none where nothing has been written. -/
def Memory.read : Memory → Nat → Option Byte
  | [], _ => none
  | (b, v) :: m, a => if a = b then some v else if a < b then none else Memory.read m a

/-- Write one byte, keeping the addresses rising. -/
def Memory.write : Memory → Nat → Byte → Memory
  | [], a, v => [(a, v)]
  | (b, w) :: m, a, v =>
    if a < b then (a, v) :: (b, w) :: m
    else if a = b then (a, v) :: m
    else (b, w) :: Memory.write m a v

/-- Write a byte string from an address up. -/
def Memory.writeBytes : Memory → Nat → List Byte → Memory
  | m, _, [] => m
  | m, a, v :: vs => Memory.writeBytes (Memory.write m a v) (a + 1) vs

/-- `MSG[a]`. A byte that nothing has written is unspecified, one unknown byte per address, stable until written
(R120; spec/93_implementation_defined.md item I1): a free value (log 4). -/
def State.msgByte (s : State) (a : Nat) : Byte :=
  match Memory.read s.msg a with
  | some v => v
  | none => Config.freeByte s.msgDraw a

/-- `MemRead(a, n)` (R106). -/
def State.memRead (s : State) (a n : Nat) : List Byte := (List.range n).map fun i => s.msgByte (a + i)

/-- `MemWrite(a, |v|, v)` (R107). -/
def State.memWrite (s : State) (a : Nat) (v : List Byte) : State :=
  { s with msg := Memory.writeBytes s.msg a v }

/-- The bytes of a region. -/
def State.regionBytes (s : State) (r : Region) : List Byte := s.memRead r.ptr r.len

/-- `src`, `aad` and `nonce` of the command rules (spec/40_control.md rule R187). -/
def State.src (s : State) : List Byte := s.regionBytes s.srcRegion
def State.aad (s : State) : List Byte := s.regionBytes s.aadRegion
def State.nonce (s : State) : List Byte := s.regionBytes s.nonceRegion

/-- `raise CmdError(c)`: the end of a command that failed a check, the block's form of taking an exception. The
saved state is ERRCODE, and control passes to the host through DONE and IRQ; nothing else changes
(R503, R513). -/
def raiseError (c : ErrCode) (s : State) : State :=
  { s with seq := .idle, done := true, err := true, errcode := c, authfail := false }

/-- The return: a STATUS write clears DONE if bit 1 is 1, and BUSYERR if bit 4 is 1
(R514; spec/10_state.md rule R46). -/
def statusWrite (v : Word) (s : State) : State :=
  { s with
    done := s.done && !(bitField v 1 1 == 1)
    busyerr := s.busyerr && !(bitField v 4 1 == 1) }

/-- The copies START takes (R181). -/
def latchOf (s : State) : Latch where
  cmd := s.cmd
  keylen := s.keylen
  srcPtr := s.srcPtr
  srcLen := s.srcLen
  dstPtr := s.dstPtr
  aadPtr := s.aadPtr
  aadLen := s.aadLen
  noncePtr := s.noncePtr
  nonceLen := s.nonceLen
  rxtlen := s.rxtlen
  tag := s.tag
  gfa := s.gfa
  gfb := s.gfb

/-- `start()` (R181). Nothing is checked at START. -/
def start (s : State) : State :=
  { s with
    seq := .busy
    done := false
    err := false
    authfail := false
    errcode := .none
    outLen := 0
    cl := latchOf s }

/-- A tag in the TAG window: `tag ‖ 0^(16 − |tag|)` (R183, R53). -/
def tagWindow (t : List Byte) : Block := Bytes.ofList 16 t

/-- `commit(out, tag, gfr)`: the successful end of a command (R183). -/
def commit (i : Instr) (out : List Byte) (tag : Option (List Byte)) (gfr : Option Block) (s : State) : State :=
  { s with
    msg := if 0 < outlen i s then Memory.writeBytes s.msg s.cl.dstPtr.toNat out else s.msg
    outLen := BitVec.ofNat 32 (outlen i s)
    tag := match tag with
      | some t => tagWindow t
      | none => s.tag
    gfr := match gfr with
      | some r => r
      | none => s.gfr
    seq := .idle
    done := true
    err := false
    errcode := .none
    authfail := false }

/-- MSG with the destination region of a command zero-filled (R184, R510). -/
def msgZeroed (i : Instr) (s : State) : Memory :=
  if 0 < outlen i s then Memory.writeBytes s.msg s.cl.dstPtr.toNat (List.replicate (outlen i s) 0) else s.msg

/-- `auth_fail()`: the end of a command whose verification failed; the destination is zero-filled (R184). -/
def authFail (i : Instr) (s : State) : State :=
  { s with
    msg := msgZeroed i s
    outLen := 0
    seq := .idle
    done := true
    err := false
    errcode := .none
    authfail := true }

/-- Run a command whose rule ends in `ok`: its checks first, and the error completion if one fails
(spec/40_control.md rule R182, R502, R503). -/
@[inline] def runChecked (i : Instr) (s : State) (ok : State) : Result :=
  match check i s with
  | some c => .next (raiseError c s)
  | none => .next ok

end Sys2Proof.Machine
end

