-- ==== Sys2Proof/Machine/Bus.lean ====
section
/-! DEFINITION. The host side: the register map, CTRL with its abort and soft reset, the MSG window, bus errors,
and the hard reset (spec/10_state.md rules R40–R58; spec/20_memory.md rules R100–R105;
spec/60_exceptions.md rule R510; spec/70_reset_and_hazards.md rules R560–R562). -/

namespace Sys2Proof.Machine

/-- A mapped 32-bit register, or the word at byte offset `4 · word` of a window (R40). -/
inductive Reg where
  | id
  | version
  | ctrl
  | status
  | cmd
  | keylen
  | srcPtr
  | srcLen
  | dstPtr
  | aadPtr
  | aadLen
  | noncePtr
  | nonceLen
  | rxtlen
  | outLen
  | key (word : Nat)
  | tag (word : Nat)
  | gfa (word : Nat)
  | gfb (word : Nat)
  | gfr (word : Nat)
  deriving DecidableEq, Repr

/-- The register at word index `offset / 4` of the register space; none where the offset is unmapped (R40). -/
def regAt (w : Nat) : Option Reg :=
  match w with
  | 0x00 => some .id
  | 0x01 => some .version
  | 0x02 => some .ctrl
  | 0x03 => some .status
  | 0x04 => some .cmd
  | 0x05 => some .keylen
  | 0x06 => some .srcPtr
  | 0x07 => some .srcLen
  | 0x08 => some .dstPtr
  | 0x09 => some .aadPtr
  | 0x0A => some .aadLen
  | 0x0B => some .noncePtr
  | 0x0C => some .nonceLen
  | 0x0D => some .rxtlen
  | 0x0E => some .outLen
  | _ =>
    if 0x10 ≤ w ∧ w < 0x20 then some (.key (w - 0x10))
    else if 0x20 ≤ w ∧ w < 0x24 then some (.tag (w - 0x20))
    else if 0x24 ≤ w ∧ w < 0x28 then some (.gfa (w - 0x24))
    else if 0x28 ≤ w ∧ w < 0x2C then some (.gfb (w - 0x28))
    else if 0x2C ≤ w ∧ w < 0x30 then some (.gfr (w - 0x2C))
    else none

/-- What a register reads as; no read has a side effect (R41–R56, R113). KEY reads 0 (R52). -/
def State.readReg (s : State) : Reg → Word
  | .id => 0x4145534D
  | .version => 0x00000001
  | .ctrl => s.ctrlWord
  | .status => s.statusWord
  | .cmd => s.cmd
  | .keylen => s.keylen
  | .srcPtr => s.srcPtr
  | .srcLen => s.srcLen
  | .dstPtr => s.dstPtr
  | .aadPtr => s.aadPtr
  | .aadLen => s.aadLen
  | .noncePtr => s.noncePtr
  | .nonceLen => s.nonceLen
  | .rxtlen => s.rxtlen.setWidth 32
  | .outLen => s.outLen
  | .key _ => 0
  | .tag i => s.tag.word i
  | .gfa i => s.gfa.word i
  | .gfb i => s.gfb.word i
  | .gfr i => s.gfr.word i

/-- A write to KEYLEN or KEY invalidates the key context and the stream state (R57). -/
def invalidateKey (s : State) : State :=
  { s with kc := { s.kc with valid := false }, st := { s.st with valid := false } }

/-- `abort()` of a command that would pass its checks: its outputs become zeros, whatever the engine had done, and
a stream or a key set-up in progress becomes invalid (R510). -/
def abortRun (i : Instr) (s : State) : State :=
  let isKeyinit := (profile i).key == .keyinit
  { s with
    msg := msgZeroed i s
    tag := if (profile i).tagOut then Bytes.zero 16 else s.tag
    gfr := if (profile i).gfrOut then Bytes.zero 16 else s.gfr
    kc := if isKeyinit then { s.kc with valid := false } else s.kc
    st := if (streamFamily i).isSome || isKeyinit then { s.st with valid := false } else s.st
    outLen := 0
    seq := .idle
    done := true
    err := true
    errcode := .abort
    authfail := false }

/-- `abort()`: a command that would have failed its checks reports that error (R510). -/
def abort (s : State) : State :=
  match checkLatched s with
  | .error c => raiseError c s
  | .ok i => abortRun i s

/-- MSG after a soft reset: kept, but for the destination of a running command that would have passed its
checks, whose bytes become free values (R562, spec/93_implementation_defined.md item I2; log 5). -/
def msgAfterSoftReset (s : State) : Memory :=
  match s.seq, checkLatched s with
  | .busy, .ok i =>
    Memory.writeBytes s.msg s.cl.dstPtr.toNat (freeBytes s.draws s.cl.dstPtr.toNat (outlen i s))
  | _, _ => s.msg

/-- `soft_reset()`: the reset values on every register, window and hidden state; MSG as above (R561, R68). The
model's own fields stay. -/
def softReset (s : State) : State :=
  { State.reset with
    cfg := s.cfg
    msg := msgAfterSoftReset s
    msgDraw := s.msgDraw
    draws := s.draws + 1
    inputs := s.inputs
    response := s.response }

/-- A hard reset: the reset values, and every byte of MSG unspecified, a draw of its own (R560; log 19). -/
def hardReset (s : State) : State :=
  { State.reset with
    cfg := s.cfg
    msgDraw := s.draws
    draws := s.draws + 1
    inputs := s.inputs }

/-- A write of `v` to CTRL (R44): SRST, then IRQ_EN, then ABORT if BUSY, then START. -/
def ctrlWrite (v : Word) (s : State) : State :=
  if bitField v 2 1 = 1 then softReset s
  else
    let s1 := { s with irqEn := bitField v 3 1 == 1 }
    if bitField v 1 1 = 1 ∧ s.seq = .busy then abort s1
    else if bitField v 0 1 = 1 then
      if s.seq = .busy then { s1 with busyerr := true } else start s1
    else s1

/-- The effect of an accepted write to a register other than CTRL and STATUS (R41–R57). Writes to read-only
registers are ignored. -/
def storeReg (r : Reg) (v : Word) (s : State) : State :=
  match r with
  | .id | .version | .ctrl | .status | .outLen | .gfr _ => s
  | .cmd => { s with cmd := v }
  | .keylen => invalidateKey { s with keylen := v }
  | .srcPtr => { s with srcPtr := v }
  | .srcLen => { s with srcLen := v }
  | .dstPtr => { s with dstPtr := v }
  | .aadPtr => { s with aadPtr := v }
  | .aadLen => { s with aadLen := v }
  | .noncePtr => { s with noncePtr := v }
  | .nonceLen => { s with nonceLen := v }
  | .rxtlen => { s with rxtlen := v.setWidth 8 }
  | .key i => invalidateKey { s with key := s.key.setWord i v }
  | .tag i => { s with tag := s.tag.setWord i v }
  | .gfa i => { s with gfa := s.gfa.setWord i v }
  | .gfb i => { s with gfb := s.gfb.setWord i v }

/-- A host write to a mapped register. CTRL and STATUS accept it always; while BUSY every other register drops it
and BUSYERR is set (R44, R46, R58). -/
def writeReg (r : Reg) (v : Word) (s : State) : State :=
  match r with
  | .ctrl => ctrlWrite v s
  | .status => statusWrite v s
  | r => if s.seq = .busy then { s with busyerr := true } else storeReg r v s

/-- The number of bytes of an access. -/
def Width.bytes : Width → Nat
  | .w1 => 1
  | .w2 => 2
  | .w4 => 4

/-- The first byte past the aperture's 128 KiB (R100). -/
def apertureSize : Nat := 0x20000

/-- The offset of the MSG window in the aperture (R101). -/
def msgWindow : Nat := 0x10000

/-- What an access at an aperture offset addresses (R101, R103, R104). -/
inductive Target where
  /-- A legal access to a register. -/
  | reg (r : Reg)
  /-- A legal access to MSG from this byte up. -/
  | msg (a : Nat)
  /-- An illegal access. -/
  | illegal
  deriving DecidableEq, Repr

/-- Which accesses are legal: in register space 4 bytes wide, aligned and mapped (R103); in the MSG window
naturally aligned and below MSG_SIZE (R104). -/
def target (s : State) (w : Width) (o : Nat) : Target :=
  if o < msgWindow then
    if w = .w4 ∧ o % 4 = 0 then
      match regAt (o / 4) with
      | some r => .reg r
      | none => .illegal
    else .illegal
  else
    let a := o - msgWindow
    if a % w.bytes = 0 ∧ a < s.msgSize then .msg a else .illegal

/-- The value of MSG bytes on the data lanes: the byte at `a + j` in bits `8j+7 : 8j` (R102). -/
def State.msgWord (s : State) (a n : Nat) : Word := BitVec.ofNat 32 (intLE (s.memRead a n))

/-- The bytes of an access to MSG while IDLE, from the data lanes (R102). -/
def laneBytes (v : Word) (n : Nat) : List Byte := leBytes n v.toNat

/-- An access at an aperture offset: the block's state after it, and its outcome (R103–R105, R58). An illegal
access has no effect; a legal one to MSG while BUSY sets BUSYERR (log 13). -/
def accessAt (a : Access) (o : Nat) (s : State) : State × Response :=
  match a with
  | .read w _ =>
    match target s w o with
    | .reg r => (s, .data (s.readReg r))
    | .msg m =>
      if s.seq = .busy then ({ s with busyerr := true }, .busError)
      else (s, .data (s.msgWord m w.bytes))
    | .illegal => (s, .busError)
  | .write w _ v =>
    match target s w o with
    | .reg r => (writeReg r v s, .written)
    | .msg m =>
      if s.seq = .busy then ({ s with busyerr := true }, .busError)
      else (s.memWrite m (laneBytes v w.bytes), .written)
    | .illegal => (s, .busError)

/-- The host bus address of an access. -/
def Access.addr : Access → Nat
  | .read _ addr => addr
  | .write _ addr _ => addr

/-- One host access. The block decodes only its aperture (R100); elsewhere an access is a bus error with no effect
(log 12). The outcome is kept in `response`. -/
def hostAccess (a : Access) (s : State) : State :=
  if s.cfg.devBase ≤ a.addr ∧ a.addr < s.cfg.devBase + apertureSize then
    let r := accessAt a (a.addr - s.cfg.devBase) s
    { r.1 with response := some r.2 }
  else { s with response := some .busError }

end Sys2Proof.Machine
end

