-- ==== Sys2Proof/Machine/Aes.lean ====
section
/-! DEFINITION. AES of FIPS-197: the primitive that spec/00_scope.md rule R8 names for the test vectors. The
spec leaves its inside to FIPS-197 (R6, R8), so this file is PRESUMED (log 3). -/

namespace Sys2Proof.Aes

/-- The S-box, entry `i` in bits `8i+7 : 8i`. -/
def sboxBits : Nat := 
  0x16bb54b00f2d99416842e6bf0d89a18cdf2855cee9871e9b948ed9691198f8e19e1dc186b95735610ef6034866b53e708a8bbd4b1f74dde8c6b4a61c2e2578ba08ae7a65eaf4566ca94ed58d6d37c8e779e4959162acd3c25c2406490a3a32e0db0b5ede14b8ee4688902a22dc4f816073195d643d7ea7c41744975fec130ccdd2f3ff1021dab6bcf5389d928f40a351a89f3c507f02f94585334d43fbaaefd0cf584c4a39becb6a5bb1fc20ed00d153842fe329b3d63b52a05a6e1b1a2c830975b227ebe28012079a059618c323c7041531d871f1e5a534ccf73f362693fdb7c072a49cafa2d4adf04759fa7dc982ca76abd7fe2b670130c56f6bf27b777c63

/-- The inverse S-box, laid out alike. -/
def invSboxBits : Nat := 
  0x7d0c2155631469e126d677ba7e042b17619953833cbbebc8b0f52aae4d3be0a0ef9cc9939f7ae52d0d4ab519a97f51605fec8027591012b131c7078833a8dd1ff45acd78fec0db9a2079d2c64b3e56fc1bbe18aa0e62b76f89c5291d711af1476edf751ce837f9e28535ade72274ac9673e6b4f0cecff297eadc674f4111913a6b8a130103bdafc1020f3fca8f1e2cd00645b3b80558e4f70ad3bc8c00abd890849d8da75746155edab9edfd5048706c92b6655dcc5ca4d41698688664f6f87225d18b6d49a25b76b224d92866a12e084ec3fa420b954cee3d23c2a632947b54cbe9dec444438e3487ff2f9b8239e37cfbd7f3819ea340bf38a53630d56a0952

def subByte (b : Byte) : Byte := BitVec.ofNat 8 (sboxBits >>> (8 * b.toNat))

def invSubByte (b : Byte) : Byte := BitVec.ofNat 8 (invSboxBits >>> (8 * b.toNat))

/-- Multiplication by x in GF(2^8) with the polynomial 0x11B. -/
def xtime (b : Byte) : Byte := (b <<< 1) ^^^ (if b.msb then 0x1B else 0)

def mul3 (b : Byte) : Byte := xtime b ^^^ b
def mul9 (b : Byte) : Byte := xtime (xtime (xtime b)) ^^^ b
def mul11 (b : Byte) : Byte := xtime (xtime (xtime b)) ^^^ xtime b ^^^ b
def mul13 (b : Byte) : Byte := xtime (xtime (xtime b)) ^^^ xtime (xtime b) ^^^ b
def mul14 (b : Byte) : Byte := xtime (xtime (xtime b)) ^^^ xtime (xtime b) ^^^ xtime b

/-- ShiftRows on the 16 bytes of the state, column by column. -/
def shiftRows : List Byte → List Byte
  | [a0, a1, a2, a3, b0, b1, b2, b3, c0, c1, c2, c3, d0, d1, d2, d3] =>
    [a0, b1, c2, d3, b0, c1, d2, a3, c0, d1, a2, b3, d0, a1, b2, c3]
  | x => x

def invShiftRows : List Byte → List Byte
  | [a0, b1, c2, d3, b0, c1, d2, a3, c0, d1, a2, b3, d0, a1, b2, c3] =>
    [a0, a1, a2, a3, b0, b1, b2, b3, c0, c1, c2, c3, d0, d1, d2, d3]
  | x => x

/-- MixColumns, four bytes of a column at a time. -/
def mixColumns : List Byte → List Byte
  | a :: b :: c :: d :: rest =>
    (xtime a ^^^ mul3 b ^^^ c ^^^ d) :: (a ^^^ xtime b ^^^ mul3 c ^^^ d)
      :: (a ^^^ b ^^^ xtime c ^^^ mul3 d) :: (mul3 a ^^^ b ^^^ c ^^^ xtime d) :: mixColumns rest
  | x => x

def invMixColumns : List Byte → List Byte
  | a :: b :: c :: d :: rest =>
    (mul14 a ^^^ mul11 b ^^^ mul13 c ^^^ mul9 d) :: (mul9 a ^^^ mul14 b ^^^ mul11 c ^^^ mul13 d)
      :: (mul13 a ^^^ mul9 b ^^^ mul14 c ^^^ mul11 d) :: (mul11 a ^^^ mul13 b ^^^ mul9 c ^^^ mul14 d)
      :: invMixColumns rest
  | x => x

theorem shiftRows_length (x : List Byte) : (shiftRows x).length = x.length := by
  unfold shiftRows; split <;> rfl

theorem invShiftRows_length (x : List Byte) : (invShiftRows x).length = x.length := by
  unfold invShiftRows; split <;> rfl

theorem mixColumns_length (x : List Byte) : (mixColumns x).length = x.length := by
  induction x using mixColumns.induct with
  | case1 a b c d rest ih => simp [mixColumns, ih]
  | case2 x h => rw [mixColumns]; exact h

theorem invMixColumns_length (x : List Byte) : (invMixColumns x).length = x.length := by
  induction x using invMixColumns.induct with
  | case1 a b c d rest ih => simp [invMixColumns, ih]
  | case2 x h => rw [invMixColumns]; exact h

/-- SubBytes then ShiftRows. -/
def subShift (x : Block) : Block :=
  ⟨shiftRows (x.bytes.map subByte), by simp [shiftRows_length, x.len]⟩

def invSubShift (x : Block) : Block :=
  ⟨(invShiftRows x.bytes).map invSubByte, by simp [invShiftRows_length, x.len]⟩

def mixBlock (x : Block) : Block := ⟨mixColumns x.bytes, by simp [mixColumns_length, x.len]⟩

def invMixBlock (x : Block) : Block := ⟨invMixColumns x.bytes, by simp [invMixColumns_length, x.len]⟩

/-- One word of the key schedule from the word before it (`prev`) and the word `nk` before it (`back`): word `i`
of FIPS-197 section 5.2. -/
def nextWord (nk i : Nat) (rcon : Byte) (prev back : List Byte) : List Byte :=
  let t :=
    if i % nk = 0 then xorBytes ((prev.drop 1 ++ prev.take 1).map subByte) [rcon, 0, 0, 0]
    else if nk = 8 && i % nk = 4 then prev.map subByte
    else prev
  xorBytes back t

/-- Key expansion with `fuel` words to go. `last` holds the latest `nk` words, oldest first. -/
def expandLoop (nk : Nat) : (fuel i : Nat) → (rcon : Byte) → (last : List (List Byte)) → List (List Byte)
  | 0, _, _, _ => []
  | fuel + 1, i, rcon, last =>
    let w := nextWord nk i rcon (last.getLastD []) (last.headD [])
    w :: expandLoop nk fuel (i + 1) (if i % nk = 0 then xtime rcon else rcon) (last.tail ++ [w])

/-- The key as 4-byte words. -/
def keyWords : List Byte → List (List Byte)
  | a :: b :: c :: d :: rest => [a, b, c, d] :: keyWords rest
  | _ => []

/-- The round keys: four words each. A key of `4·nk` bytes has `nk + 6` rounds and one round key more. -/
def roundKeys (k : List Byte) : List Block :=
  let nk := k.length / 4
  let ws := keyWords k ++ expandLoop nk (4 * (nk + 7) - nk) nk 1 (keyWords k)
  toChunks 16 (nk + 7) ws.flatten

/-- The rounds after the first AddRoundKey: the last round key comes without MixColumns. -/
def encRounds : List Block → Block → Block
  | [], x => x
  | [rk], x => (subShift x).xor rk
  | rk :: rks, x => encRounds rks ((mixBlock (subShift x)).xor rk)

/-- The inverse rounds, from the last round key back. -/
def decRounds : List Block → Block → Block
  | [], x => x
  | [rk], x => invSubShift (x.xor rk)
  | rk :: rks, x => invSubShift (invMixBlock ((decRounds rks x).xor rk))

/-- AES encryption of a block under a key of 16, 24 or 32 bytes. -/
def encrypt (k : List Byte) (x : Block) : Block :=
  match roundKeys k with
  | [] => x
  | rk :: rks => encRounds rks (x.xor rk)

/-- AES decryption. -/
def decrypt (k : List Byte) (x : Block) : Block :=
  match roundKeys k with
  | [] => x
  | rk :: rks => (decRounds rks x).xor rk

end Sys2Proof.Aes
end

