-- ==== Sys2Proof/Machine/Cipher.lean ====
section
/-! DEFINITION. The block-cipher primitive `E(k, b)` and `D(k, b)` (spec/00_scope.md rule R8). -/

namespace Sys2Proof

/-- `E(k, b)` of a primitive (R8). AES takes keys of 16, 24 and 32 bytes; for another key string, which no
command passes, AES is not defined and the external cipher stands in (log 16). -/
def Primitive.encrypt : Primitive → List Byte → Block → Block
  | .external, k, b => Config.cipher k b
  | .aes, k, b =>
    if k.length = 16 ∨ k.length = 24 ∨ k.length = 32 then Aes.encrypt k b else Config.cipher k b

/-- `D(k, b)` of a primitive (R8). -/
def Primitive.decrypt : Primitive → List Byte → Block → Block
  | .external, k, b => (Config.cipher k).symm b
  | .aes, k, b =>
    if k.length = 16 ∨ k.length = 24 ∨ k.length = 32 then Aes.decrypt k b else (Config.cipher k).symm b

namespace Machine

/-- `E(k, b)` of this machine. -/
def State.E (s : State) (k : List Byte) (b : Block) : Block := s.cfg.primitive.encrypt k b

/-- `D(k, b)` of this machine. -/
def State.D (s : State) (k : List Byte) (b : Block) : Block := s.cfg.primitive.decrypt k b

/-- `E(KC.k, b)`: the primitive under the key of the standard modes (R60). -/
def State.encK (s : State) (b : Block) : Block := s.E s.kc.k b

/-- `D(KC.k, b)`. -/
def State.decK (s : State) (b : Block) : Block := s.D s.kc.k b

end Machine

end Sys2Proof
end

