-- ==== Sys2Proof/Machine/Mac.lean ====
section
/-! DEFINITION. The CMAC/CBC-MAC engine (spec/44_mac.md rules R280–R287). -/

namespace Sys2Proof

/-- The chain `y := E(k, y xor X_i)` over whole blocks, from `y` (R280, R281, R323). -/
def macChain (e : Block → Block) (y : Block) (xs : List Block) : Block :=
  xs.foldl (fun y x => e (y.xor x)) y

/-- CBC-MAC's padding: `0x80` and zeros, only if the message is empty or not block-aligned (R280). -/
def cbcmacPad (m : List Byte) : List Byte :=
  if m.length = 0 ∨ m.length % 16 ≠ 0 then zpad16 (m ++ [0x80]) else m

/-- `cbcmac(M)` (R280). -/
def cbcmac (e : Block → Block) (m : List Byte) : Block :=
  macChain e (Bytes.zero 16) (toBlocks (cbcmacPad m))

/-- The last block of CMAC: whole and xor `K1`, or padded and xor `K2` (R281). `r` is the message from its last
block on. -/
def cmacLast (k1 k2 : Block) (r : List Byte) : Block :=
  if r.length = 16 then (Bytes.ofList 16 r).xor k1 else (pad80 r).xor k2

/-- `cmac(M)` with subkeys `K1`, `K2` (R281); `nb = max(1, ceil(|M|/16))`. -/
def cmac (e : Block → Block) (k1 k2 : Block) (m : List Byte) : Block :=
  let nb := max 1 ((m.length + 15) / 16)
  let y := macChain e (Bytes.zero 16) (toChunks 16 (nb - 1) m)
  e (y.xor (cmacLast k1 k2 (m.drop (16 * (nb - 1)))))

namespace Machine

/-- The CBC-MAC of the source region under `KC.k`. -/
def State.cbcmacSrc (s : State) : Block := cbcmac s.encK s.src

/-- The CMAC of a message under the key context. -/
def State.cmacOf (s : State) (m : List Byte) : Block := cmac s.encK s.kc.k1 s.kc.k2 m

/-- Verification for both MACs: the first `r = CL.RXTLEN` bytes, for `r` in 1–16 (R282). -/
def macVerified (T : Block) (s : State) : Bool :=
  let r := s.cl.rxtlen.toNat
  decide (1 ≤ r) && decide (r ≤ 16) && ctEq T.bytes s.cl.tag.bytes r

/-- The end of a `_VER` command (R285, R287). -/
def endVerify (i : Instr) (T : Block) (s : State) : State :=
  if macVerified T s then commit i [] none none s else authFail i s

/-- CBCMAC_GEN (R284). -/
def execCbcmacGen (f : Fields) (s : State) : Result :=
  runChecked (.cbcmacGen f) s
    (commit (.cbcmacGen f) [] (some (s.cbcmacSrc.bytes.take f.tlen)) none s)

/-- CBCMAC_VER (R285). -/
def execCbcmacVer (f : Fields) (s : State) : Result :=
  runChecked (.cbcmacVer f) s (endVerify (.cbcmacVer f) s.cbcmacSrc s)

/-- CMAC_GEN (R286). -/
def execCmacGen (f : Fields) (s : State) : Result :=
  runChecked (.cmacGen f) s
    (commit (.cmacGen f) [] (some ((s.cmacOf s.src).bytes.take f.tlen)) none s)

/-- CMAC_VER (R287). -/
def execCmacVer (f : Fields) (s : State) : Result :=
  runChecked (.cmacVer f) s (endVerify (.cmacVer f) (s.cmacOf s.src) s)

/-- The end of an AEAD decrypt with candidate plaintext `P` and expected tag `T` of `t` bytes: commit if the
received length is `t` and all `t` bytes agree, else the authentication failure
(spec/45_aead_gcm_ccm.md rule R301). -/
def endDecrypt (i : Instr) (P T : List Byte) (s : State) : State :=
  if s.cl.rxtlen.toNat = i.fields.tlen ∧ ctEq T s.cl.tag.bytes i.fields.tlen then commit i P none none s
  else authFail i s

end Machine

end Sys2Proof
end

