-- ==== Sys2Proof/Machine/Stream.lean ====
section
/-! DEFINITION. The CTR/OFB/CFB stream generator (spec/42_stream.md rules R230–R241). -/

namespace Sys2Proof

/-- `inc128(X)` (R232). -/
def inc128 (x : Block) : Block := Bytes.be 16 ((intBE x.bytes + 1) % 2 ^ 128)

/-- `inc32(X)` (R232). -/
def inc32 (x : Block) : Block :=
  Bytes.ofList 16 (x.bytes.take 12 ++ beBytes 4 ((intBE (x.bytes.drop 12) + 1) % 2 ^ 32))

/-- `m` blocks of counter mode over `X` from the counter block `cb`: each block of `X`, the last one perhaps
short, xor the leading bytes of `E` of its counter block (R304, R341). -/
def ctrBlocks (inc e : Block → Block) : (m : Nat) → (cb : Block) → List Byte → List Byte
  | 0, _, _ => []
  | m + 1, cb, x => xorBytes (x.take 16) (e cb).bytes ++ ctrBlocks inc e m (inc cb) (x.drop 16)

/-- `ceil(n/16)`. -/
def blockCount (n : Nat) : Nat := (n + 15) / 16

namespace Machine

/-- The state a stream command starts from (R230): the IV of the nonce region with CONT = 0, where `S.ks` is
undefined and so a free value (log 8); `ST` with CONT = 1. -/
def streamStart (fam : Family) (f : Fields) (s : State) : Stream :=
  if f.cont then s.st
  else
    { valid := true
      smode := fam
      sreg := Bytes.ofList 16 s.nonce
      ks := freeBlock s.draws 0
      pos := 16
      fresh := true }

/-- The commit of a stream command: `ST <- S; ST.valid <- 1` in the same step (R233). -/
def commitStream (i : Instr) (S : Stream) (out : List Byte) (s : State) : State :=
  commit i out none none
    { s with
      st := { S with valid := true }
      draws := if i.fields.cont then s.draws else s.draws + 1 }

/-- A new CTR keystream block when the last one is exhausted; the counter increments lazily (R234). -/
def ctrRefill (e : Block → Block) (S : Stream) : Stream :=
  if S.pos = 16 then
    let c := if S.fresh then S.sreg else inc128 S.sreg
    { S with sreg := c, ks := e c, pos := 0, fresh := false }
  else S

/-- `ctr_byte(S, b)` (R234). -/
def ctrByte (e : Block → Block) (S : Stream) (b : Byte) : Stream × Byte :=
  let S1 := ctrRefill e S
  ({ S1 with pos := S1.pos + 1 }, b ^^^ S1.ks.byte S1.pos.val)

/-- A new OFB keystream block when the last one is exhausted (R235). -/
def ofbRefill (e : Block → Block) (S : Stream) : Stream :=
  if S.pos = 16 then { S with sreg := e S.sreg, pos := 0 } else S

/-- `ofb_byte(S, b)` (R235). -/
def ofbByte (e : Block → Block) (S : Stream) (b : Byte) : Stream × Byte :=
  let S1 := ofbRefill e S
  ({ S1 with pos := S1.pos + 1 }, b ^^^ S1.sreg.byte S1.pos.val)

/-- The bytes of a message through a byte step, in order (R238, R239). -/
def streamBytes (step : Stream → Byte → Stream × Byte) : Stream → List Byte → Stream × List Byte
  | S, [] => (S, [])
  | S, b :: x =>
    let p := step S b
    let q := streamBytes step p.1 x
    (q.1, p.2 :: q.2)

/-- `cfb_seg(S, x, s, dec)`: the register is fed with the ciphertext segment in both directions (R236). -/
def cfbSeg (e : Block → Block) (dec : Bool) (S : Stream) (x : List Byte) : Stream × List Byte :=
  let r := xorBytes x (e S.sreg).bytes
  let c := if dec then x else r
  ({ S with sreg := Bytes.ofList 16 (S.sreg.bytes.drop x.length ++ c) }, r)

/-- `m` segments of `size` bytes through `cfb_seg`, in order (R240). -/
def cfbSegs (e : Block → Block) (dec : Bool) (size : Nat) : (m : Nat) → Stream → List Byte → Stream × List Byte
  | 0, S, _ => (S, [])
  | m + 1, S, x =>
    let p := cfbSeg e dec S (x.take size)
    let q := cfbSegs e dec size m p.1 (x.drop size)
    (q.1, p.2 ++ q.2)

/-- CTR: counter-mode encrypt or decrypt (R238). -/
def execCtr (f : Fields) (s : State) : Result :=
  let r := streamBytes (ctrByte s.encK) (streamStart .ctr f s) s.src
  runChecked (.ctr f) s (commitStream (.ctr f) r.1 r.2 s)

/-- OFB: output-feedback encrypt or decrypt (R239). -/
def execOfb (f : Fields) (s : State) : Result :=
  let r := streamBytes (ofbByte s.encK) (streamStart .ofb f s) s.src
  runChecked (.ofb f) s (commitStream (.ofb f) r.1 r.2 s)

/-- A CFB command's segments over the source (R240, R241). -/
def cfbRun (dec : Bool) (f : Fields) (s : State) : Stream × List Byte :=
  let size := segmentSize f.param
  cfbSegs s.encK dec size (s.src.length / size) (streamStart (cfbFamily f.param) f s) s.src

/-- CFB_ENC (R240). -/
def execCfbEnc (f : Fields) (s : State) : Result :=
  let r := cfbRun false f s
  runChecked (.cfbEnc f) s (commitStream (.cfbEnc f) r.1 r.2 s)

/-- CFB_DEC (R241). -/
def execCfbDec (f : Fields) (s : State) : Result :=
  let r := cfbRun true f s
  runChecked (.cfbDec f) s (commitStream (.cfbDec f) r.1 r.2 s)

end Machine

end Sys2Proof
end

