-- ==== Sys2Proof/Machine/Ccm.lean ====
section
/-! DEFINITION. CCM (spec/45_aead_gcm_ccm.md rules R320–R326). -/

namespace Sys2Proof

/-- The flags byte of `B0` (R321). -/
def ccmFlags (t L aLen : Nat) : Byte :=
  BitVec.ofNat 8 (64 * (if 0 < aLen then 1 else 0) + 8 * ((t - 2) / 2) + (L - 1))

/-- `aenc(A)`, the encoding of the AAD length (R321). -/
def ccmAenc (aLen : Nat) : List Byte :=
  if aLen = 0 then []
  else if aLen < 2 ^ 16 - 2 ^ 8 then beBytes 2 aLen
  else [0xFF, 0xFE] ++ beBytes 4 aLen

/-- The formatted string `B = B0 ‖ zpad16(aenc(A) ‖ A) ‖ zpad16(Pl)` (R321). -/
def ccmFormat (t L : Nat) (nonce a pl : List Byte) : List Byte :=
  [ccmFlags t L a.length] ++ nonce ++ beBytes L pl.length
    ++ zpad16 (ccmAenc a.length ++ a) ++ zpad16 pl

/-- The counter block `Ctr_i` (R322). -/
def ccmCtr (L : Nat) (nonce : List Byte) (i : Nat) : Block :=
  Bytes.ofList 16 ([BitVec.ofNat 8 (L - 1)] ++ nonce ++ beBytes L i)

/-- `m` blocks of the payload xor the keystream `S_i ‖ S_{i+1} ‖ …` (R322). -/
def ccmStream (e : Block → Block) (L : Nat) (nonce : List Byte) : (m i : Nat) → List Byte → List Byte
  | 0, _, _ => []
  | m + 1, i, x =>
    xorBytes (x.take 16) (e (ccmCtr L nonce i)).bytes ++ ccmStream e L nonce m (i + 1) (x.drop 16)

/-- The payload xor `S_1 ‖ S_2 ‖ …` (R322). -/
def ccmCrypt (e : Block → Block) (L : Nat) (nonce x : List Byte) : List Byte :=
  ccmStream e L nonce (blockCount x.length) 1 x

/-- The CCM tag (R323): the raw CBC-MAC of `B`, xor the mask `S_0`, cut to `t` bytes. -/
def ccmTag (e : Block → Block) (t L : Nat) (nonce a pl : List Byte) : List Byte :=
  ((macChain e (Bytes.zero 16) (toBlocks (ccmFormat t L nonce a pl))).xor (e (ccmCtr L nonce 0))).bytes.take t

namespace Machine

/-- CCM_ENC (R325). -/
def execCcmEnc (f : Fields) (s : State) : Result :=
  runChecked (.ccmEnc f) s
    (commit (.ccmEnc f) (ccmCrypt s.encK f.param s.nonce s.src)
      (some (ccmTag s.encK f.tlen f.param s.nonce s.aad s.src)) none s)

/-- CCM_DEC (R326). -/
def execCcmDec (f : Fields) (s : State) : Result :=
  let Pl := ccmCrypt s.encK f.param s.nonce s.src
  runChecked (.ccmDec f) s
    (endDecrypt (.ccmDec f) Pl (ccmTag s.encK f.tlen f.param s.nonce s.aad Pl) s)

end Machine

end Sys2Proof
end

