-- ==== Sys2Proof/Machine/Chaining.lean ====
section
/-! DEFINITION. ECB and the CBC chainer (spec/43_chaining.md rules R260–R266). -/

namespace Sys2Proof

/-- `ecb_blocks(f, X)` (R260). -/
def ecbBlocks (f : Block → Block) (x : List Byte) : List Byte := joinChunks ((toBlocks x).map f)

/-- `cbc_enc`: from the chaining value, the last ciphertext block and the output blocks (R261). -/
def cbcEnc (e : Block → Block) : Block → List Block → Block × List Block
  | y, [] => (y, [])
  | y, x :: xs =>
    let c := e (x.xor y)
    let r := cbcEnc e c xs
    (r.1, c :: r.2)

/-- `cbc_dec`: chained on the received ciphertext (R261). -/
def cbcDec (d : Block → Block) : Block → List Block → Block × List Block
  | y, [] => (y, [])
  | y, c :: cs =>
    let r := cbcDec d c cs
    (r.1, (d c).xor y :: r.2)

namespace Machine

/-- ECB_ENC (R262). -/
def execEcbEnc (f : Fields) (s : State) : Result :=
  runChecked (.ecbEnc f) s (commit (.ecbEnc f) (ecbBlocks s.encK s.src) none none s)

/-- ECB_DEC (R263). -/
def execEcbDec (f : Fields) (s : State) : Result :=
  runChecked (.ecbDec f) s (commit (.ecbDec f) (ecbBlocks s.decK s.src) none none s)

/-- CBC_ENC (R265). -/
def execCbcEnc (f : Fields) (s : State) : Result :=
  let S := streamStart .cbc f s
  let r := cbcEnc s.encK S.sreg (toBlocks s.src)
  runChecked (.cbcEnc f) s (commitStream (.cbcEnc f) { S with sreg := r.1 } (joinChunks r.2) s)

/-- CBC_DEC (R266). -/
def execCbcDec (f : Fields) (s : State) : Result :=
  let S := streamStart .cbc f s
  let r := cbcDec s.decK S.sreg (toBlocks s.src)
  runChecked (.cbcDec f) s (commitStream (.cbcDec f) { S with sreg := r.1 } (joinChunks r.2) s)

end Machine

end Sys2Proof
end

