-- ==== Sys2Proof/Machine/Gf.lean ====
section
/-! DEFINITION. GF(2^128): the two doublings, the two multiplies and their chains
(spec/41_gf.md rules R200–R207). -/

namespace Sys2Proof

/-- The doubling step shared by both byte orders, on the integer of the block: shift left by one bit modulo
`2^128`, and fold the bit shifted out in as `0x87` (R202, R203). -/
def dblInt (v : Nat) : Nat :=
  let r := (v <<< 1) % 2 ^ 128
  if v.testBit 127 then r ^^^ 0x87 else r

/-- `dbl_be(X)` (R202). -/
def dblBe (x : Block) : Block := Bytes.be 16 (dblInt (intBE x.bytes))

/-- `dbl_le(X)`, the XTS multiplication by α (R203). -/
def dblLe (x : Block) : Block := Bytes.le 16 (dblInt (intLE x.bytes))

/-- The GHASH-convention loop of R204 with `fuel` iterations to go: string bit `128 - fuel` of X is integer bit
`fuel - 1`. -/
def gmulLoop (x : Nat) : (fuel : Nat) → (v z : Nat) → Nat
  | 0, _, z => z
  | fuel + 1, v, z =>
    gmulLoop x fuel (if v.testBit 0 then (v >>> 1) ^^^ (0xE1 <<< 120) else v >>> 1)
      (if x.testBit fuel then z ^^^ v else z)

/-- `gmul(X, Y)` (R204). -/
def gmul (x y : Block) : Block := Bytes.be 16 (gmulLoop (intBE x.bytes) 128 (intBE y.bytes) 0)

/-- `P(x) = x^128 + x^127 + x^126 + x^121 + 1` (R205). -/
def polyvalP : Nat := 2 ^ 128 + 2 ^ 127 + 2 ^ 126 + 2 ^ 121 + 1

/-- The POLYVAL-convention loop of R205 with `fuel` iterations to go; bit `128 - fuel` of `b` is next. -/
def pmulLoop (a b : Nat) : (fuel : Nat) → (z : Nat) → Nat
  | 0, z => z
  | fuel + 1, z =>
    let z1 := if b.testBit (127 - fuel) then z ^^^ a else z
    let z2 := if z1.testBit 0 then z1 ^^^ polyvalP else z1
    pmulLoop a b fuel (z2 >>> 1)

/-- `pmul(X, Y)`, RFC 8452's `dot` (R205). -/
def pmul (x y : Block) : Block := Bytes.le 16 (pmulLoop (intLE x.bytes) (intLE y.bytes) 128 0)

/-- `ghash(H, S, Y0)` over the full blocks of `S` (R206). -/
def ghash (h : Block) (s : List Byte) (y0 : Block) : Block :=
  (toBlocks s).foldl (fun y x => gmul (y.xor x) h) y0

/-- `polyval(H, S, S0)` over the full blocks of `S` (R207). -/
def polyval (h : Block) (s : List Byte) (s0 : Block) : Block :=
  (toBlocks s).foldl (fun y x => pmul (y.xor x) h) s0

end Sys2Proof
end

