-- ==== Sys2Proof/Machine/Control.lean ====
section
/-! DEFINITION. The control family: NOP and KEYINIT with the subkeys (spec/40_control.md rules R189–R191). -/

namespace Sys2Proof.Machine

/-- NOP: do nothing and complete (R189). -/
def execNop (f : Fields) (s : State) : Result := runChecked (.nop f) s (commit (.nop f) [] none none s)

/-- `n` doublings in a row, beginning with `b` itself: `b, dbl(b), dbl(dbl(b)), …` (R191). -/
def dblChain : Nat → Block → List Block
  | 0, _ => []
  | n + 1, b => b :: dblChain n (dblBe b)

/-- The subkeys of an AES key whose `E(k, 0^16)` is `h`, in a context that holds the rest (R191). -/
def KeyContext.withSubkeys (kc : KeyContext) (h : Block) : KeyContext :=
  { kc with
    h := h
    k1 := dblBe h
    k2 := dblBe (dblBe h)
    ldollar := dblBe h
    l := dblChain Config.lmax (dblBe (dblBe h)) }

/-- The context of a key with every field but valid, klen and key undefined: free values of a draw (R60,
spec/93_implementation_defined.md item I4; log 8). The spec gives `k`, `key1` and `key2` no length where it leaves them
undefined: 64, 32 and 32 bytes are a DESIGN CHOICE (log 8). -/
def KeyContext.undefinedBut (draw : Nat) (kl : KeyLen) (key : List Byte) : KeyContext where
  valid := true
  klen := kl
  key := key
  k := freeBytes draw 0 64
  key1 := freeBytes draw 64 32
  key2 := freeBytes draw 96 32
  h := freeBlock draw 128
  k1 := freeBlock draw 144
  k2 := freeBlock draw 160
  ldollar := freeBlock draw 176
  l := (List.range Config.lmax).map fun j => freeBlock draw (192 + 16 * j)

/-- The key context KEYINIT builds from a key of a legal length (R190). `e` is `E` of the machine. -/
def keyContextOf (e : List Byte → Block → Block) (draw : Nat) (kl : KeyLen) (key : List Byte) : KeyContext :=
  let kc := KeyContext.undefinedBut draw kl key
  let std := { kc.withSubkeys (e key (Bytes.zero 16)) with k := key }
  match kl with
  | .k16 => std
  | .k24 => std
  | .k32 => { std with key1 := key.take 16, key2 := key.drop 16 }
  | .k64 => { kc with key1 := key.take 32, key2 := key.drop 32 }

/-- The state after KEYINIT has written `KC` and cleared `ST.valid`, for a legal `CL.KEYLEN` (R190). -/
def keyinitState (kl : KeyLen) (s : State) : State :=
  { s with
    kc := keyContextOf s.E s.draws kl (s.key.bytes.take kl.bytes)
    st := { s.st with valid := false }
    draws := s.draws + 1 }

/-- KEYINIT: latch the key and precompute the subkeys (R190). A KEYLEN outside 16, 24, 32, 64 has failed the
KEYLEN check before. -/
def execKeyinit (f : Fields) (s : State) : Result :=
  runChecked (.keyinit f) s
    (match KeyLen.ofNat? s.cl.keylen.toNat with
      | some kl => commit (.keyinit f) [] none none (keyinitState kl s)
      | none => s)

end Sys2Proof.Machine
end

