-- ==== Sys2Proof/Machine/Eax.lean ====
section
/-! DEFINITION. EAX (spec/46_aead_eax_ocb.md rules R340–R344). -/

namespace Sys2Proof.Machine

/-- `omac(d, M) = cmac(be_16(d) ‖ M)` (R340). -/
def State.omac (s : State) (d : Nat) (m : List Byte) : Block := s.cmacOf (beBytes 16 d ++ m)

/-- The payload through CTR from the counter `N' = omac(0, N)`, with `inc128` (R341). -/
def State.eaxCrypt (s : State) (x : List Byte) : List Byte :=
  ctrBlocks inc128 s.encK (blockCount x.length) (s.omac 0 s.nonce) x

/-- The EAX tag over a ciphertext, cut to `t` bytes (R342). -/
def State.eaxTag (s : State) (t : Nat) (c : List Byte) : List Byte :=
  (((s.omac 0 s.nonce).xor (s.omac 1 s.aad)).xor (s.omac 2 c)).bytes.take t

/-- EAX_ENC (R343). -/
def execEaxEnc (f : Fields) (s : State) : Result :=
  let C := s.eaxCrypt s.src
  runChecked (.eaxEnc f) s (commit (.eaxEnc f) C (some (s.eaxTag f.tlen C)) none s)

/-- EAX_DEC (R344). -/
def execEaxDec (f : Fields) (s : State) : Result :=
  runChecked (.eaxDec f) s (endDecrypt (.eaxDec f) (s.eaxCrypt s.src) (s.eaxTag f.tlen s.src) s)

end Sys2Proof.Machine
end

