-- ==== Sys2Proof/Machine/Gcm.lean ====
section
/-! DEFINITION. GCM (spec/45_aead_gcm_ccm.md rules R303–R311). -/

namespace Sys2Proof

/-- The pre-counter block `J0` (R303). -/
def gcmJ0 (h : Block) (iv : List Byte) : Block :=
  if iv.length = 12 then Bytes.ofList 16 (iv ++ [0, 0, 0, 1])
  else ghash h (zpad16 iv ++ List.replicate 8 0 ++ beBytes 8 (8 * iv.length)) (Bytes.zero 16)

/-- `gctr(CB, X)` (R304). -/
def gctr (inc e : Block → Block) (cb : Block) (x : List Byte) : List Byte :=
  ctrBlocks inc e (blockCount x.length) cb x

/-- The GCM tag over AAD `a` and ciphertext `c` (R305). -/
def gcmTag (e : Block → Block) (h j0 : Block) (a c : List Byte) : Block :=
  (e j0).xor
    (ghash h (zpad16 a ++ zpad16 c ++ beBytes 8 (8 * a.length) ++ beBytes 8 (8 * c.length)) (Bytes.zero 16))

/-- The counter increment of a parameter value (R9, R304). -/
def CtrInc.inc : CtrInc → Block → Block
  | .inc32 => Sys2Proof.inc32
  | .inc128 => Sys2Proof.inc128

namespace Machine

/-- `J0` of the nonce region under `KC.H`. -/
def State.j0 (s : State) : Block := gcmJ0 s.kc.h s.nonce

/-- The payload through GCTR from `inc(J0)` (R310, R311). -/
def State.gctrSrc (s : State) : List Byte :=
  gctr s.cfg.gcmCtrInc.inc s.encK (s.cfg.gcmCtrInc.inc s.j0) s.src

/-- GCM_ENC (R310). -/
def execGcmEnc (f : Fields) (s : State) : Result :=
  let C := s.gctrSrc
  runChecked (.gcmEnc f) s
    (commit (.gcmEnc f) C (some (gcmTag s.encK s.kc.h s.j0 s.aad C).bytes) none s)

/-- GCM_DEC (R311). -/
def execGcmDec (f : Fields) (s : State) : Result :=
  runChecked (.gcmDec f) s
    (endDecrypt (.gcmDec f) s.gctrSrc (gcmTag s.encK s.kc.h s.j0 s.aad s.src).bytes s)

end Machine

end Sys2Proof
end

