-- ==== Sys2Proof/Machine/GfCommands.lean ====
section
/-! DEFINITION. The six raw GF commands (spec/41_gf.md rules R210–R215). -/

namespace Sys2Proof.Machine

/-- GHASH: `H = CL.GFB`, `Y0 = CL.GFA` (R210). -/
def execGhash (f : Fields) (s : State) : Result :=
  runChecked (.ghash f) s (commit (.ghash f) [] none (some (ghash s.cl.gfb s.src s.cl.gfa)) s)

/-- POLYVAL: `H = CL.GFB`, `S0 = CL.GFA` (R211). -/
def execPolyval (f : Fields) (s : State) : Result :=
  runChecked (.polyval f) s (commit (.polyval f) [] none (some (polyval s.cl.gfb s.src s.cl.gfa)) s)

/-- GFMUL_G (R212). -/
def execGfmulG (f : Fields) (s : State) : Result :=
  runChecked (.gfmulG f) s (commit (.gfmulG f) [] none (some (gmul s.cl.gfa s.cl.gfb)) s)

/-- GFMUL_P (R213). -/
def execGfmulP (f : Fields) (s : State) : Result :=
  runChecked (.gfmulP f) s (commit (.gfmulP f) [] none (some (pmul s.cl.gfa s.cl.gfb)) s)

/-- GFDBL_BE (R214). -/
def execGfdblBe (f : Fields) (s : State) : Result :=
  runChecked (.gfdblBe f) s (commit (.gfdblBe f) [] none (some (dblBe s.cl.gfa)) s)

/-- GFDBL_LE (R215). -/
def execGfdblLe (f : Fields) (s : State) : Result :=
  runChecked (.gfdblLe f) s (commit (.gfdblLe f) [] none (some (dblLe s.cl.gfa)) s)

end Sys2Proof.Machine
end

