-- ==== Sys2Proof/Machine/Kw.lean ====
section
/-! DEFINITION. KW (spec/47_xts_kw.md rules R390–R393). -/

namespace Sys2Proof

/-- The default IV, eight bytes `0xA6` (R390). -/
def kwIv : Bytes 8 := ⟨List.replicate 8 0xA6, by simp⟩

/-- One wrapping round over `R[i], R[i+1], …`, with `t` the round counter of the first (R390). -/
def kwWrapRound (e : Block → Block) : (t : Nat) → Bytes 8 → List (Bytes 8) → Bytes 8 × List (Bytes 8)
  | _, a, [] => (a, [])
  | t, a, r :: rs =>
    let b := e (Bytes.join a r)
    let q := kwWrapRound e (t + 1) (b.msb8.xor (Bytes.be 8 t)) rs
    (q.1, b.lsb8 :: q.2)

/-- Rounds `j, j+1, …, j + fuel - 1` (R390). -/
def kwWrapRounds (e : Block → Block) (nh : Nat) : (fuel j : Nat) → Bytes 8 → List (Bytes 8) → Bytes 8 × List (Bytes 8)
  | 0, _, a, rs => (a, rs)
  | fuel + 1, j, a, rs =>
    let q := kwWrapRound e (nh * j + 1) a rs
    kwWrapRounds e nh fuel (j + 1) q.1 q.2

/-- `kw_wrap(P)` (R390). -/
def kwWrap (e : Block → Block) (p : List Byte) : List Byte :=
  let nh := p.length / 8
  let q := kwWrapRounds e nh 6 0 kwIv (toChunks 8 nh p)
  q.1.bytes ++ joinChunks q.2

/-- One unwrapping round over `R[i], R[i+1], …`, done from the last half-block to the first (R391). -/
def kwUnwrapRound (d : Block → Block) : (t : Nat) → Bytes 8 → List (Bytes 8) → Bytes 8 × List (Bytes 8)
  | _, a, [] => (a, [])
  | t, a, r :: rs =>
    let q := kwUnwrapRound d (t + 1) a rs
    let b := d (Bytes.join (q.1.xor (Bytes.be 8 t)) r)
    (b.msb8, b.lsb8 :: q.2)

/-- Rounds `fuel - 1` down to 0 (R391). -/
def kwUnwrapRounds (d : Block → Block) (nh : Nat) : (fuel : Nat) → Bytes 8 → List (Bytes 8) → Bytes 8 × List (Bytes 8)
  | 0, a, rs => (a, rs)
  | fuel + 1, a, rs =>
    let q := kwUnwrapRound d (nh * fuel + 1) a rs
    kwUnwrapRounds d nh fuel q.1 q.2

/-- `kw_unwrap(W)`: the plaintext half-blocks and whether `A` is the default IV, compared with CTEq (R391). -/
def kwUnwrap (d : Block → Block) (w : List Byte) : List Byte × Bool :=
  let nh := w.length / 8 - 1
  let q := kwUnwrapRounds d nh 6 (Bytes.ofList 8 (w.take 8)) (toChunks 8 nh (w.drop 8))
  (joinChunks q.2, ctEq q.1.bytes kwIv.bytes 8)

namespace Machine

/-- KW_WRAP (R392). -/
def execKwWrap (f : Fields) (s : State) : Result :=
  runChecked (.kwWrap f) s (commit (.kwWrap f) (kwWrap s.encK s.src) none none s)

/-- KW_UNWRAP (R393). -/
def execKwUnwrap (f : Fields) (s : State) : Result :=
  let r := kwUnwrap s.decK s.src
  runChecked (.kwUnwrap f) s
    (if r.2 then commit (.kwUnwrap f) r.1 none none s else authFail (.kwUnwrap f) s)

end Machine

end Sys2Proof
end

