-- ==== Sys2Proof/Machine/Ocb.lean ====
section
/-! DEFINITION. OCB3 (spec/46_aead_eax_ocb.md rules R350–R358). -/

namespace Sys2Proof

/-- `L_j` of the series from `L_$`: `L_0 = dbl(L_$)`, `L_j = dbl(L_{j-1})` (spec/40_control.md rule R191). -/
def ocbSeries (ldollar : Block) : Nat → Block
  | 0 => dblBe ldollar
  | j + 1 => dblBe (ocbSeries ldollar j)

/-- The nonce block of R351, as an integer. -/
def ocbNonceInt (t : Nat) (nonce : List Byte) : Nat :=
  (((8 * t) % 128) <<< 121) ||| (1 <<< (8 * nonce.length)) ||| intBE nonce

/-- The initial offset `Offset0` (R351). -/
def ocbOffset0 (e : Block → Block) (t : Nat) (nonce : List Byte) : Block :=
  let n := Bytes.be 16 (ocbNonceInt t nonce)
  let bottom := (n.byte 15).toNat % 64
  let ktop := (e (Bytes.ofList 16 (n.bytes.take 15 ++ [n.byte 15 &&& 0xC0]))).bytes
  let stretch := ktop ++ xorBytes (ktop.take 8) ((ktop.drop 1).take 8)
  Bytes.be 16 (intBE stretch >>> (64 - bottom))

/-- The loop of `ocb_hash` over whole blocks, the next being number `i` (R353). -/
def ocbHashBlocks (e : Block → Block) (L : Nat → Block) : (i : Nat) → (off sum : Block) → List Block → Block × Block
  | _, off, sum, [] => (off, sum)
  | i, off, sum, a :: as =>
    let off1 := off.xor (L (ntz i))
    ocbHashBlocks e L (i + 1) off1 (sum.xor (e (a.xor off1))) as

/-- `ocb_hash(A)` (R353). -/
def ocbHash (e : Block → Block) (lstar : Block) (L : Nat → Block) (a : List Byte) : Block :=
  let r := ocbHashBlocks e L 1 (Bytes.zero 16) (Bytes.zero 16) (toBlocks a)
  if a.length % 16 ≠ 0 then
    r.2.xor (e ((pad80 (a.drop (16 * (a.length / 16)))).xor (r.1.xor lstar)))
  else r.2

/-- The loop of `ocb_core` over whole blocks, the next being number `i`: the offset, the checksum and the output.
`f` is `E` for encryption and `D` for decryption; the checksum is over the plaintext (R354). -/
def ocbCoreBlocks (f : Block → Block) (enc : Bool) (L : Nat → Block) :
    (i : Nat) → (off chk : Block) → List Block → Block × Block × List Block
  | _, off, chk, [] => (off, chk, [])
  | i, off, chk, x :: xs =>
    let off1 := off.xor (L (ntz i))
    let y := off1.xor (f (x.xor off1))
    let r := ocbCoreBlocks f enc L (i + 1) off1 (chk.xor (if enc then x else y)) xs
    (r.1, r.2.1, y :: r.2.2)

/-- `ocb_core(X, dir, N)`: the output and the tag of `t` bytes (R354). -/
def ocbCore (e d : Block → Block) (lstar ldollar : Block) (L : Nat → Block) (enc : Bool) (t : Nat)
    (nonce a x : List Byte) : List Byte × List Byte :=
  let r := ocbCoreBlocks (if enc then e else d) enc L 1 (ocbOffset0 e t nonce) (Bytes.zero 16) (toBlocks x)
  let tag := fun (off chk : Block) => ((e ((chk.xor off).xor ldollar)).xor (ocbHash e lstar L a)).bytes.take t
  if x.length % 16 ≠ 0 then
    let xs := x.drop (16 * (x.length / 16))
    let off := r.1.xor lstar
    let y := xorBytes xs (e off).bytes
    (joinChunks r.2.2 ++ y, tag off (r.2.1.xor (pad80 (if enc then xs else y))))
  else (joinChunks r.2.2, tag r.1 r.2.1)

namespace Machine

/-- `L_j` of the key context: the stored one of `L_0 … L_31`. Every block index below `2^32` needs no other (R354);
for an index that no command comes to, `L_j` is computed by the same rule (log 17). -/
def KeyContext.lAt (kc : KeyContext) (j : Nat) : Block :=
  match kc.l[j]? with
  | some b => b
  | none => ocbSeries kc.ldollar j

/-- `ocb_core` on the source, AAD and nonce regions (R350, R354). -/
def State.ocb (s : State) (enc : Bool) (t : Nat) : List Byte × List Byte :=
  ocbCore s.encK s.decK s.kc.h s.kc.ldollar s.kc.lAt enc t s.nonce s.aad s.src

/-- OCB_ENC (R357). -/
def execOcbEnc (f : Fields) (s : State) : Result :=
  let r := s.ocb true f.tlen
  runChecked (.ocbEnc f) s (commit (.ocbEnc f) r.1 (some r.2) none s)

/-- OCB_DEC (R358). -/
def execOcbDec (f : Fields) (s : State) : Result :=
  let r := s.ocb false f.tlen
  runChecked (.ocbDec f) s (endDecrypt (.ocbDec f) r.1 r.2 s)

end Machine

end Sys2Proof
end

