-- ==== Sys2Proof/Machine/Xts.lean ====
section
/-! DEFINITION. XTS (spec/47_xts_kw.md rules R380–R386). -/

namespace Sys2Proof

/-- The tweak doubling of a parameter value (R381). -/
def AlphaOrder.alpha : AlphaOrder → Block → Block
  | .le => dblLe
  | .be => dblBe

/-- `T_j` from `T_0` (R381). -/
def xtsTweak (alpha : Block → Block) (t0 : Block) : Nat → Block
  | 0 => t0
  | j + 1 => alpha (xtsTweak alpha t0 j)

/-- The XEX block step `f(X xor T) xor T`, with `f` the data key's `E` or `D` (R382). -/
def xex (f : Block → Block) (x t : Block) : Block := (f (x.xor t)).xor t

/-- Whole blocks with the tweaks `T, alpha(T), …` in order (R383, R384). -/
def xexBlocks (alpha f : Block → Block) : Block → List Block → List Block
  | _, [] => []
  | t, x :: xs => xex f x t :: xexBlocks alpha f (alpha t) xs

/-- The two last output pieces of a message with a tail: the full block at the penultimate place is passed under
the tweak `t1`, its surplus bytes fill up the tail, and the filled block is passed under `t2`. Encryption has
`t1 = T_{m-1}`, `t2 = T_m` (R383), decryption the reverse (R384). -/
def xtsSteal (f : Block → Block) (t1 t2 x : Block) (tail : List Byte) : List Byte :=
  let cc := xex f x t1
  let pp := Bytes.ofList 16 (tail ++ cc.bytes.drop tail.length)
  (xex f pp t2).bytes ++ cc.bytes.take tail.length

/-- `xts_enc` and `xts_dec` from `T_0` (R383, R384), for at least one full block. -/
def xtsCrypt (alpha f : Block → Block) (dec : Bool) (t0 : Block) (x : List Byte) : List Byte :=
  let m := x.length / 16
  if x.length % 16 = 0 then joinChunks (xexBlocks alpha f t0 (toBlocks x))
  else
    let tm1 := xtsTweak alpha t0 (m - 1)
    let tm := xtsTweak alpha t0 m
    let last := Bytes.ofList 16 ((x.drop (16 * (m - 1))).take 16)
    joinChunks (xexBlocks alpha f t0 (toChunks 16 (m - 1) x))
      ++ xtsSteal f (if dec then tm else tm1) (if dec then tm1 else tm) last (x.drop (16 * m))

namespace Machine

/-- `T_0 = E(K2, tweak)` (R381). -/
def State.xtsT0 (s : State) : Block := s.E s.kc.key2 (Bytes.ofList 16 s.nonce)

/-- XTS_ENC (R385). -/
def execXtsEnc (f : Fields) (s : State) : Result :=
  runChecked (.xtsEnc f) s
    (commit (.xtsEnc f) (xtsCrypt s.cfg.xtsAlphaOrder.alpha (s.E s.kc.key1) false s.xtsT0 s.src) none none s)

/-- XTS_DEC (R386). -/
def execXtsDec (f : Fields) (s : State) : Result :=
  runChecked (.xtsDec f) s
    (commit (.xtsDec f) (xtsCrypt s.cfg.xtsAlphaOrder.alpha (s.D s.kc.key1) true s.xtsT0 s.src) none none s)

end Machine

end Sys2Proof
end

