-- ==== Sys2Proof/Machine/Dispatch.lean ====
section
/-! DEFINITION. The meaning of every command, one arm each (spec/30_encoding.md rule R150). -/

namespace Sys2Proof.Machine

def exec (i : Instr) (s : State) : Host.Outcome State Fault Refusal :=
  match i with
  | .nop f => Sys2Proof.Machine.execNop f s
  | .keyinit f => Sys2Proof.Machine.execKeyinit f s
  | .ecbEnc f => Sys2Proof.Machine.execEcbEnc f s
  | .ecbDec f => Sys2Proof.Machine.execEcbDec f s
  | .cbcEnc f => Sys2Proof.Machine.execCbcEnc f s
  | .cbcDec f => Sys2Proof.Machine.execCbcDec f s
  | .ctr f => Sys2Proof.Machine.execCtr f s
  | .ofb f => Sys2Proof.Machine.execOfb f s
  | .cfbEnc f => Sys2Proof.Machine.execCfbEnc f s
  | .cfbDec f => Sys2Proof.Machine.execCfbDec f s
  | .cbcmacGen f => Sys2Proof.Machine.execCbcmacGen f s
  | .cbcmacVer f => Sys2Proof.Machine.execCbcmacVer f s
  | .cmacGen f => Sys2Proof.Machine.execCmacGen f s
  | .cmacVer f => Sys2Proof.Machine.execCmacVer f s
  | .gcmEnc f => Sys2Proof.Machine.execGcmEnc f s
  | .gcmDec f => Sys2Proof.Machine.execGcmDec f s
  | .ccmEnc f => Sys2Proof.Machine.execCcmEnc f s
  | .ccmDec f => Sys2Proof.Machine.execCcmDec f s
  | .eaxEnc f => Sys2Proof.Machine.execEaxEnc f s
  | .eaxDec f => Sys2Proof.Machine.execEaxDec f s
  | .ocbEnc f => Sys2Proof.Machine.execOcbEnc f s
  | .ocbDec f => Sys2Proof.Machine.execOcbDec f s
  | .xtsEnc f => Sys2Proof.Machine.execXtsEnc f s
  | .xtsDec f => Sys2Proof.Machine.execXtsDec f s
  | .kwWrap f => Sys2Proof.Machine.execKwWrap f s
  | .kwUnwrap f => Sys2Proof.Machine.execKwUnwrap f s
  | .ghash f => Sys2Proof.Machine.execGhash f s
  | .polyval f => Sys2Proof.Machine.execPolyval f s
  | .gfmulG f => Sys2Proof.Machine.execGfmulG f s
  | .gfmulP f => Sys2Proof.Machine.execGfmulP f s
  | .gfdblBe f => Sys2Proof.Machine.execGfdblBe f s
  | .gfdblLe f => Sys2Proof.Machine.execGfdblLe f s

end Sys2Proof.Machine
end

