-- ==== Sys2Proof/Machine/Sequencer.lean ====
section
/-! DEFINITION. The engine's turn, the effect of one input, and how a command word comes to be the next one run
(spec/40_control.md rules R180, R182; spec/10_state.md rule R66). -/

namespace Sys2Proof.Machine

/-- The completion step `complete()`: decode the latched word, and run its rule; a word that is no command ends in
`CmdError(BADOP)` (R182, R502). -/
def complete (s : State) : Result :=
  match decodeWord s.cl.cmd with
  | .error _ => .next (raiseError .badop s)
  | .ok i => exec i s

/-- The engine's turn: the completion step while BUSY, nothing while IDLE (R180, R520). -/
def engineTurn (s : State) : Result :=
  match s.seq with
  | .busy => complete s
  | .idle => .next s

/-- What comes next: the oldest input; when there is none, the engine moves, so that a command completes after
finitely many host accesses (R182, R581; log 1). -/
def stepInputs (s : State) : Result :=
  match s.inputs with
  | [] => engineTurn s
  | .engine :: rest => engineTurn { s with inputs := rest }
  | .access a :: rest => .next (hostAccess a { s with inputs := rest })
  | .hardReset :: rest => .next (hardReset { s with inputs := rest })

/-- The state in which a command word has been latched by START and the engine moves next: `SEQ = BUSY`,
`CL.CMD = w`, and an engine slot in front of what the host has pending (none is needed when nothing is pending).
The block fetches nothing; START latches CMD (R66, R117; log 11). -/
def withLatchedCmd (s : State) (w : Word) : State :=
  { s with
    seq := .busy
    cl := { s.cl with cmd := w }
    inputs := match s.inputs with
      | [] => []
      | x :: rest => .engine :: x :: rest }

end Sys2Proof.Machine
end

