-- ==== Sys2Proof/Machine/Step.lean ====
section
/-! DEFINITION. One step of the machine (spec/00_scope.md rule R7; spec/20_memory.md rule R112). -/

namespace Sys2Proof.Machine

/-- One step: one host access, one hard reset, or one turn of the engine, each indivisible (R112, R512). -/
def step (s : State) : Host.Outcome State Fault Refusal := stepInputs s

/-- The state whose next step runs the command word `w`, numbered as spec/opcode_table.json numbers its bits
(log 11). -/
def State.withFetchWord (s : State) (nbits w : Nat) : State :=
  withLatchedCmd s (BitVec.ofNat 32 (w % 2 ^ nbits))

end Sys2Proof.Machine
end

