-- ==== Sys2Proof/Safety.lean ====
section
/-! DEFINITION. The terms the claims use: the checks of spec/60_exceptions.md as their own tables state them, the
outcomes of a command as spec/40_control.md rule R185 states them, and the invariant of the machine. Nothing here
is used by the machine. -/

namespace Sys2Proof.Safety

open Sys2Proof.Machine

/-! ## The checks, row by row of R502 and R504–R509 -/

/-- `keyed` of R502: every command but NOP, KEYINIT and the six GF commands. -/
def keyed : Instr → Bool
  | .nop _ | .keyinit _ | .ghash _ | .polyval _ | .gfmulG _ | .gfmulP _ | .gfdblBe _ | .gfdblLe _ => false
  | .ecbEnc _ | .ecbDec _ | .cbcEnc _ | .cbcDec _ | .ctr _ | .ofb _ | .cfbEnc _ | .cfbDec _
  | .cbcmacGen _ | .cbcmacVer _ | .cmacGen _ | .cmacVer _ | .gcmEnc _ | .gcmDec _ | .ccmEnc _ | .ccmDec _
  | .eaxEnc _ | .eaxDec _ | .ocbEnc _ | .ocbDec _ | .xtsEnc _ | .xtsDec _ | .kwWrap _ | .kwUnwrap _ => true

/-- XTS_ENC or XTS_DEC. -/
def isXts : Instr → Bool
  | .xtsEnc _ | .xtsDec _ => true
  | _ => false

/-- One of the eight AEAD commands (R148). -/
def isAead : Instr → Bool
  | .gcmEnc _ | .gcmDec _ | .ccmEnc _ | .ccmDec _ | .eaxEnc _ | .eaxDec _ | .ocbEnc _ | .ocbDec _ => true
  | _ => false

/-- One of the six stream commands (R144). -/
def isStream : Instr → Bool
  | .cbcEnc _ | .cbcDec _ | .ctr _ | .ofb _ | .cfbEnc _ | .cfbDec _ => true
  | _ => false

/-- One of the six GF commands (R502). -/
def isGf : Instr → Bool
  | .ghash _ | .polyval _ | .gfmulG _ | .gfmulP _ | .gfdblBe _ | .gfdblLe _ => true
  | _ => false

/-- A tag-producing command (R53). -/
def makesTag : Instr → Bool
  | .cbcmacGen _ | .cmacGen _ | .gcmEnc _ | .ccmEnc _ | .eaxEnc _ | .ocbEnc _ => true
  | _ => false

/-- A command that compares the received tag in TAG: the six R147 marks "TAG in" (R184 adds KW_UNWRAP to those that can
fail verification). -/
def comparesTag : Instr → Bool
  | .cbcmacVer _ | .cmacVer _ | .gcmDec _ | .ccmDec _ | .eaxDec _ | .ocbDec _ => true
  | _ => false

/-- `outlen` as R153 tabulates it. -/
def outLength (i : Instr) (s : State) : Nat :=
  let n := s.cl.srcLen.toNat
  match i with
  | .ecbEnc _ | .ecbDec _ | .cbcEnc _ | .cbcDec _ | .ctr _ | .ofb _ | .cfbEnc _ | .cfbDec _ => n
  | .gcmEnc _ | .gcmDec _ | .ccmEnc _ | .ccmDec _ | .eaxEnc _ | .eaxDec _ | .ocbEnc _ | .ocbDec _ => n
  | .xtsEnc _ | .xtsDec _ => n
  | .kwWrap _ => n + 8
  | .kwUnwrap _ => n - 8
  | _ => 0

/-- Does the command use the source region (R147, R148)? -/
def usesSource : Instr → Bool
  | .nop _ | .keyinit _ | .gfmulG _ | .gfmulP _ | .gfdblBe _ | .gfdblLe _ => false
  | _ => true

/-- Does the command use the nonce region (R148)? -/
def usesNonceRegion (i : Instr) : Bool :=
  match i with
  | .xtsEnc _ | .xtsDec _ | .kwWrap _ | .kwUnwrap _ => true
  | _ => isAead i || (isStream i && !i.fields.cont)

/-- The family `fam(name, param)` of R230. -/
def familyOf (i : Instr) : Family :=
  match i with
  | .ctr _ => .ctr
  | .ofb _ => .ofb
  | .cfbEnc f | .cfbDec f =>
    match f.param with
    | 0 => .cfb1
    | 1 => .cfb8
    | _ => .cfb16
  | _ => .cbc

/-- The CFB segment size in bytes of a segment code 0, 1 or 2 (R143). -/
def segmentBytes : Nat → Nat
  | 0 => 1
  | 1 => 8
  | _ => 16

/-- NOKEY (R502). -/
def failsNokey (i : Instr) (s : State) : Bool := keyed i && !s.kc.valid

/-- KEYLEN (R505). -/
def failsKeylen (i : Instr) (s : State) : Bool :=
  match i with
  | .keyinit _ => !([16, 24, 32, 64].contains s.cl.keylen.toNat)
  | .xtsEnc _ | .xtsDec _ => !([32, 64].contains s.kc.klen.bytes)
  | _ => keyed i && s.kc.klen.bytes == 64

/-- PARAM (R504). -/
def failsParam (i : Instr) : Bool :=
  match i with
  | .cbcmacGen f | .cmacGen f => !(decide (1 ≤ f.tlen ∧ f.tlen ≤ 16))
  | .gcmEnc f | .gcmDec f => f.tlen != 16
  | .ccmEnc f | .ccmDec f =>
    !([4, 6, 8, 10, 12, 14, 16].contains f.tlen) || !(decide (2 ≤ f.param ∧ f.param ≤ 8))
  | .eaxEnc f | .eaxDec f | .ocbEnc f | .ocbDec f => !(decide (8 ≤ f.tlen ∧ f.tlen ≤ 16))
  | .cfbEnc f | .cfbDec f => decide (f.param > 2)
  | _ => false

/-- STATE (R504). -/
def failsState (i : Instr) (s : State) : Bool :=
  isStream i && i.fields.cont && (!s.st.valid || s.st.smode != familyOf i)

/-- NONCE (R506). -/
def failsNonce (i : Instr) (s : State) : Bool :=
  let nl := s.cl.nonceLen.toNat
  match i with
  | .gcmEnc _ | .gcmDec _ => !(decide (nl ≥ 1))
  | .ccmEnc f | .ccmDec f => nl != 15 - f.param
  | .ocbEnc _ | .ocbDec _ => !(decide (1 ≤ nl ∧ nl ≤ 15))
  | .xtsEnc _ | .xtsDec _ => nl != 16
  | .kwWrap _ | .kwUnwrap _ => nl != 0
  | _ => isStream i && !i.fields.cont && nl != 16

/-- LEN (R507). -/
def failsLen (i : Instr) (s : State) : Bool :=
  let n := s.cl.srcLen.toNat
  match i with
  | .ecbEnc _ | .ecbDec _ | .cbcEnc _ | .cbcDec _ | .ghash _ | .polyval _ => n % 16 != 0
  | .cfbEnc f | .cfbDec f => n % segmentBytes f.param != 0
  | .ccmEnc f | .ccmDec f => !(decide (n < 2 ^ (8 * f.param)))
  | .xtsEnc _ | .xtsDec _ => !(decide (n ≥ 16))
  | .kwWrap _ => !(decide (n % 8 = 0 ∧ n ≥ 16))
  | .kwUnwrap _ => !(decide (n % 8 = 0 ∧ n ≥ 24))
  | _ => false

/-- The range check of a region (R108): "iff `n = 0` or `p + n ≤ MSG_SIZE`". -/
def fits (s : State) (p n : Nat) : Bool := decide (n = 0 ∨ p + n ≤ s.msgSize)

/-- RANGE (R508). -/
def failsRange (i : Instr) (s : State) : Bool :=
  (usesSource i && !fits s s.cl.srcPtr.toNat s.cl.srcLen.toNat)
    || (isAead i && !fits s s.cl.aadPtr.toNat s.cl.aadLen.toNat)
    || (usesNonceRegion i && !fits s s.cl.noncePtr.toNat s.cl.nonceLen.toNat)
    || !fits s s.cl.dstPtr.toNat (outLength i s)

/-- Two non-empty regions overlap (R110): "iff `p < q + m` and `q < p + n`". -/
def meets (p n q m : Nat) : Bool := decide (0 < n ∧ 0 < m ∧ p < q + m ∧ q < p + n)

/-- OVERLAP (R509, R110). -/
def failsOverlap (i : Instr) (s : State) : Bool :=
  let d := s.cl.dstPtr.toNat
  let n := outLength i s
  (isAead i && meets d n s.cl.aadPtr.toNat s.cl.aadLen.toNat)
    || (usesNonceRegion i && meets d n s.cl.noncePtr.toNat s.cl.nonceLen.toNat)
    || (usesSource i && meets d n s.cl.srcPtr.toNat s.cl.srcLen.toNat && s.cl.srcPtr.toNat != d)

/-- The checks after BADOP in the order of R502, each with its code. -/
def checksInOrder (i : Instr) (s : State) : List (Bool × ErrCode) :=
  [(failsNokey i s, .nokey), (failsKeylen i s, .keylen), (failsParam i, .param), (failsState i s, .state),
    (failsNonce i s, .nonce), (failsLen i s, .len), (failsRange i s, .range), (failsOverlap i s, .overlap)]

/-- The code of the first failing check, if one fails (R502). -/
def firstFailure (i : Instr) (s : State) : Option ErrCode :=
  ((checksInOrder i s).find? (·.1)).map (·.2)

/-- Every check of the command passes. -/
abbrev Passes (i : Instr) (s : State) : Prop := firstFailure i s = none

/-! ## The outcomes of a command (R185) -/

/-- The commit row of R185, less what the command itself writes: SEQ idle, DONE, no error, OUT_LEN. -/
def committed (s : State) (n : Nat) : State :=
  { s with
    seq := .idle, done := true, err := false, authfail := false, errcode := .none, outLen := BitVec.ofNat 32 n }

/-- The authentication-failure row of R185, less the destination region. -/
def failedAuth (s : State) : State :=
  { s with seq := .idle, done := true, err := false, authfail := true, errcode := .none, outLen := 0 }

/-- The error row of R185 and R503: STATUS alone. -/
def errored (s : State) (c : ErrCode) : State :=
  { s with seq := .idle, done := true, err := true, authfail := false, errcode := c }

/-- MSG of `t` is MSG of `s` with the bytes `out` from address `a` up: every other byte reads as before. -/
def Stores (s t : State) (a : Nat) (out : List Byte) : Prop :=
  ∀ b, t.msgByte b = if a ≤ b ∧ b < a + out.length then out.getD (b - a) 0 else s.msgByte b

/-- A command ends with a commit that stores `out` at its destination and leaves all else as `u`, which is the
state with what the command writes beside MSG. -/
def CommitsStoring (i : Instr) (s u : State) (out : List Byte) : Prop :=
  ∃ m, exec i s = .next { committed u out.length with msg := m }
    ∧ Stores s { committed u out.length with msg := m } s.cl.dstPtr.toNat out

/-- A command ends with an authentication failure that zero-fills `n` destination bytes (R184). -/
def FailsStoringZeros (i : Instr) (s : State) (n : Nat) : Prop :=
  ∃ m, exec i s = .next { failedAuth s with msg := m }
    ∧ Stores s { failedAuth s with msg := m } s.cl.dstPtr.toNat (List.replicate n 0)

/-- The state after a command that changes nothing but STATUS, OUT_LEN and its tag. -/
def taggedWith (s : State) (t : List Byte) : State :=
  { s with tag := Bytes.ofList 16 (t ++ List.replicate (16 - t.length) 0) }

/-- A stream command ends with a commit that stores `out` and leaves `S` in `ST`, valid (R233). Which free draws
the model has used is left open. -/
def CommitsStream (i : Instr) (s : State) (S : Stream) (out : List Byte) : Prop :=
  ∃ d, CommitsStoring i s { s with st := { S with valid := true }, draws := d } out

/-- The two ends of an AEAD decrypt with candidate plaintext `P` and expected tag `T` of `t` bytes (R301). -/
def EndsAead (i : Instr) (s : State) (P T : List Byte) (t : Nat) : Prop :=
  (s.cl.rxtlen.toNat = t ∧ T.take t = s.cl.tag.bytes.take t → CommitsStoring i s s P)
    ∧ (¬ (s.cl.rxtlen.toNat = t ∧ T.take t = s.cl.tag.bytes.take t) → FailsStoringZeros i s P.length)

/-- The two ends of a MAC verification with the full MAC `T` (R282, R285, R287). -/
def EndsVerify (i : Instr) (s : State) (T : Block) : Prop :=
  let r := s.cl.rxtlen.toNat
  (1 ≤ r ∧ r ≤ 16 ∧ T.bytes.take r = s.cl.tag.bytes.take r → exec i s = .next (committed s 0))
    ∧ (¬ (1 ≤ r ∧ r ≤ 16 ∧ T.bytes.take r = s.cl.tag.bytes.take r) → exec i s = .next (failedAuth s))

/-- What a command has written to its destination region, read back from the state it answers. -/
def outputOf (i : Instr) (s t : State) : List Byte := t.memRead s.cl.dstPtr.toNat (outLength i s)

/-! ## The modes by index

Each mode is given here block by block or byte by byte, with no loop: what output number `j` is. -/

/-- Block `j` of a string: `X[16j .. 16j+15]`. -/
def blockAt (x : List Byte) (j : Nat) : Block := Bytes.ofList 16 ((x.drop (16 * j)).take 16)

/-- Segment `j` of `size` bytes. -/
def segAt (size : Nat) (x : List Byte) (j : Nat) : List Byte := (x.drop (size * j)).take size

/-- The string of the blocks `g 0 … g (m-1)`. -/
def blocks (m : Nat) (g : Nat → Block) : List Byte := (List.range m).flatMap fun j => (g j).bytes

/-- A string xor a pad given byte by byte. -/
def padded (pad : Nat → Byte) (x : List Byte) : List Byte :=
  (List.range x.length).map fun j => x.getD j 0 ^^^ pad j

/-- Byte `j` of the keystream of blocks `ks 0, ks 1, …`. -/
def keystream (ks : Nat → Block) (j : Nat) : Byte := (ks (j / 16)).byte (j % 16)

/-- The chain `y_{j+1} = g(y_j xor X_j)` (R206, R207, R261, R280, R281, R323). -/
def chain (g : Block → Block) (y0 : Block) (x : List Byte) : Nat → Block
  | 0 => y0
  | j + 1 => g ((chain g y0 x j).xor (blockAt x j))

/-- The sum (xor) of the blocks `g 0 … g (m-1)`. -/
def xorSum (g : Nat → Block) : Nat → Block
  | 0 => Bytes.zero 16
  | m + 1 => (xorSum g m).xor (g m)

/-- A counter block `k` steps further, modulo `2^128` (R232). -/
def counterPlus (x : Block) (k : Nat) : Block := Bytes.be 16 (intBE x.bytes + k)

/-- The stream a command begins with (R230): a new one from the IV with CONT = 0, whose `ks` is not fixed; `ST`
with CONT = 1. -/
def Begins (fam : Family) (f : Fields) (s : State) (S : Stream) : Prop :=
  if f.cont then S = s.st
  else S.smode = fam ∧ S.sreg.bytes = s.nonce ∧ S.pos = 16 ∧ S.fresh = true

/-- CTR keystream byte number `q` counted from the start of the block in use (R234). Numbers below 16 lie in
that block; later blocks are `E` of the counter, which increments once per block, but not before the first block of
a new stream. -/
def ctrPad (e : Block → Block) (S : Stream) (q : Nat) : Byte :=
  if q < 16 then S.ks.byte q
  else (e (counterPlus S.sreg (q / 16 - S.fresh.toNat))).byte (q % 16)

/-- The CTR stream after `n` more bytes (R234, R238). -/
def CtrEnds (e : Block → Block) (S : Stream) (n : Nat) (S' : Stream) : Prop :=
  let q := S.pos.val + n
  if q ≤ 16 then S' = { S with pos := Fin.ofNat 17 q }
  else
    S'.smode = S.smode ∧ S'.fresh = false ∧ S'.pos.val = (q - 1) % 16 + 1
      ∧ S'.sreg = counterPlus S.sreg ((q - 1) / 16 - S.fresh.toNat) ∧ S'.ks = e S'.sreg

/-- OFB keystream byte number `q`, counted likewise (R235). -/
def ofbPad (e : Block → Block) (S : Stream) (q : Nat) : Byte := (e^[q / 16] S.sreg).byte (q % 16)

/-- The OFB stream after `n` more bytes (R235, R239). -/
def OfbEnds (e : Block → Block) (S : Stream) (n : Nat) (S' : Stream) : Prop :=
  let q := S.pos.val + n
  S'.smode = S.smode ∧ S'.fresh = S.fresh ∧ S'.ks = S.ks
    ∧ if n = 0 then S'.pos = S.pos ∧ S'.sreg = S.sreg
      else S'.pos.val = (q - 1) % 16 + 1 ∧ S'.sreg = e^[(q - 1) / 16] S.sreg

/-- The CFB shift register after `k` ciphertext bytes of the stream `iv ‖ C` (R236). -/
def cfbRegister (iv : Block) (c : List Byte) (k : Nat) : Block := Bytes.ofList 16 ((iv.bytes ++ c).drop k)

/-- The MAC input of CBC-MAC: padded with `0x80` and zeros if empty or not block-aligned (R280). -/
def isoPadded (m : List Byte) : List Byte :=
  if m.length = 0 ∨ m.length % 16 ≠ 0 then m ++ 0x80 :: List.replicate (15 - m.length % 16) 0 else m

/-- `cbcmac(M)` (R280). -/
def cbcmacOf (e : Block → Block) (m : List Byte) : Block :=
  chain e (Bytes.zero 16) (isoPadded m) ((isoPadded m).length / 16)

/-- `r ‖ 0x80 ‖ 0^(15 - |r|)` (R281, R352). -/
def tailBlock (r : List Byte) : Block := Bytes.ofList 16 (r ++ 0x80 :: List.replicate (15 - r.length) 0)

/-- `cmac(M)` (R281). -/
def cmacOf (e : Block → Block) (k1 k2 : Block) (m : List Byte) : Block :=
  let nb := max 1 ((m.length + 15) / 16)
  let last :=
    if 0 < m.length ∧ m.length % 16 = 0 then (blockAt m (nb - 1)).xor k1
    else (tailBlock (m.drop (16 * (nb - 1)))).xor k2
  e ((chain e (Bytes.zero 16) m (nb - 1)).xor last)

/-- `ghash` by index: the chain `y := gmul(y xor X_j, H)` (R206). -/
def ghashOf (h : Block) (x : List Byte) (y0 : Block) : Block :=
  chain (fun b => gmul b h) y0 x (x.length / 16)

/-- `polyval` by index (R207). -/
def polyvalOf (h : Block) (x : List Byte) (y0 : Block) : Block :=
  chain (fun b => pmul b h) y0 x (x.length / 16)

/-- `J0` (R303). -/
def j0Of (h : Block) (iv : List Byte) : Block :=
  if iv.length = 12 then Bytes.ofList 16 (iv ++ [0x00, 0x00, 0x00, 0x01])
  else ghashOf h (zpad16 iv ++ List.replicate 8 0 ++ beBytes 8 (8 * iv.length)) (Bytes.zero 16)

/-- The increment the parameter GCM_CTR_INC names, `k` times (R304). -/
def gcmCounter (s : State) (j0 : Block) (k : Nat) : Block :=
  match s.cfg.gcmCtrInc with
  | .inc32 => inc32^[k] j0
  | .inc128 => counterPlus j0 k

/-- The GCM tag (R305). -/
def gcmTagOf (s : State) (a c : List Byte) : Block :=
  (s.E s.kc.k (j0Of s.kc.h s.nonce)).xor
    (ghashOf s.kc.h (zpad16 a ++ zpad16 c ++ beBytes 8 (8 * a.length) ++ beBytes 8 (8 * c.length)) (Bytes.zero 16))

/-- A payload under GCTR from `inc(J0)` (R304, R310). -/
def gcmCrypt (s : State) (x : List Byte) : List Byte :=
  padded (keystream fun j => s.E s.kc.k (gcmCounter s (j0Of s.kc.h s.nonce) (j + 1))) x

/-- Byte `k` of `be_n(v)` (R12). -/
def beByte (n v k : Nat) : Byte := BitVec.ofNat 8 (v / 2 ^ (8 * (n - 1 - k)))

/-- The length of a string padded to whole blocks. -/
def paddedLength (n : Nat) : Nat := (n + 15) / 16 * 16

/-- Byte `k` of the CCM block `B0` (R321), for `a` bytes of AAD and `n` bytes of payload. The flags byte has bit 7 clear,
bit 6 set if there is AAD, `(t − 2)/2` in bits 5:3 and `L − 1` in bits 2:0; the nonce and the length follow. -/
def ccmB0Byte (t L : Nat) (nonce : List Byte) (a n k : Nat) : Byte :=
  if k = 0 then 0#1 ++ BitVec.ofBool (decide (0 < a)) ++ BitVec.ofNat 3 ((t - 2) / 2) ++ BitVec.ofNat 3 (L - 1)
  else if k < 16 - L then nonce.getD (k - 1) 0
  else beByte L n (k - (16 - L))

/-- The number of bytes of `aenc(A)` for `a` bytes of AAD (R321). -/
def aencLength (a : Nat) : Nat := if a = 0 then 0 else if a < 2 ^ 16 - 2 ^ 8 then 2 else 6

/-- Byte `k` of `aenc(A)` (R321). -/
def aencByte (a k : Nat) : Byte :=
  if a < 2 ^ 16 - 2 ^ 8 then beByte 2 a k
  else if k = 0 then 0xFF
  else if k = 1 then 0xFE
  else beByte 4 a (k - 2)

/-- The formatted string `B` of CCM byte by byte (R321): `B0`, the encoded length of the AAD, the AAD with zeros up to a
whole block, and the payload with zeros likewise. -/
def ccmInput (t L : Nat) (nonce a pl : List Byte) : List Byte :=
  let h := aencLength a.length
  let m := paddedLength (h + a.length)
  (List.range (16 + m + paddedLength pl.length)).map fun j =>
    if j < 16 then ccmB0Byte t L nonce a.length pl.length j
    else if j < 16 + h then aencByte a.length (j - 16)
    else if j < 16 + m then a.getD (j - 16 - h) 0
    else pl.getD (j - 16 - m) 0

/-- The CCM counter block `Ctr_i` byte by byte (R322): `L − 1`, the nonce, and `i` in the last `L` bytes. -/
def ccmCounter (L : Nat) (nonce : List Byte) (i : Nat) : Block :=
  ⟨(List.range 16).map fun k =>
    if k = 0 then BitVec.ofNat 8 (L - 1)
    else if k < 16 - L then nonce.getD (k - 1) 0
    else beByte L i (k - (16 - L)), by simp⟩

/-- The CCM tag (R323): the chain over `B`, xor `S_0`, cut to `t` bytes. -/
def ccmTagOf (s : State) (t L : Nat) (pl : List Byte) : List Byte :=
  let b := ccmInput t L s.nonce s.aad pl
  ((chain (s.E s.kc.k) (Bytes.zero 16) b (b.length / 16)).xor (s.E s.kc.k (ccmCounter L s.nonce 0))).bytes.take t

/-- A payload under the CCM keystream `S_1 ‖ S_2 ‖ …` (R322). -/
def ccmCryptOf (s : State) (L : Nat) (x : List Byte) : List Byte :=
  padded (keystream fun j => s.E s.kc.k (ccmCounter L s.nonce (j + 1))) x

/-- `omac(d, M)` (R340). -/
def omacOf (s : State) (d : Nat) (m : List Byte) : Block :=
  cmacOf (s.E s.kc.k) s.kc.k1 s.kc.k2 (beBytes 16 d ++ m)

/-- A payload under the EAX keystream (R341). -/
def eaxCryptOf (s : State) (x : List Byte) : List Byte :=
  padded (keystream fun j => s.E s.kc.k (counterPlus (omacOf s 0 s.nonce) j)) x

/-- The EAX tag over a ciphertext (R342). -/
def eaxTagOf (s : State) (t : Nat) (c : List Byte) : List Byte :=
  (((omacOf s 0 s.nonce).xor (omacOf s 1 s.aad)).xor (omacOf s 2 c)).bytes.take t

/-- Bit `i` of a string, bit 0 being the most significant bit of byte 0. -/
def bitAt (x : List Byte) (i : Nat) : Bool := (x.getD (i / 8) 0).getLsbD (7 - i % 8)

/-- The byte of the bits `b 0 … b 7`, the most significant first. -/
def byteOfBits (b : Nat → Bool) : Byte := BitVec.ofFnBE fun j : Fin 8 => b j

/-- The block of the bits `b 0 … b 127`, numbered as `bitAt` numbers them. -/
def blockOfBits (b : Nat → Bool) : Block :=
  ⟨(List.range 16).map fun k => byteOfBits fun i => b (8 * k + i), by simp⟩

/-- Bit `i` of the OCB nonce block (R351): "the 7-bit value `8t mod 128`, then zero bits, then a 1 bit, then `N`". -/
def ocbNonceBit (t : Nat) (nonce : List Byte) (i : Nat) : Bool :=
  let start := 128 - 8 * nonce.length
  if i < 7 then (8 * t % 128).testBit (6 - i)
  else if i < start then decide (i + 1 = start)
  else bitAt nonce (i - start)

/-- `Ktop` (R351): `E` of the nonce block with its last six bits cleared. -/
def ocbKtop (e : Block → Block) (t : Nat) (nonce : List Byte) : Block :=
  e (blockOfBits fun i => decide (i < 122) && ocbNonceBit t nonce i)

/-- `bottom` (R351): the last six bits of the nonce block. -/
def ocbBottom (t : Nat) (nonce : List Byte) : Nat := ((blockOfBits (ocbNonceBit t nonce)).byte 15).toNat % 64

/-- Bit `i` of `Stretch` (R351): `Ktop`, then `Ktop[0..7] xor Ktop[1..8]`. -/
def ocbStretchBit (ktop : Block) (i : Nat) : Bool :=
  if i < 128 then bitAt ktop.bytes i else bitAt ktop.bytes (i - 128) ^^ bitAt ktop.bytes (i - 120)

/-- `Offset0` bit by bit (R351): "Stretch bits bottom .. bottom+127". -/
def ocbStartOffset (e : Block → Block) (t : Nat) (nonce : List Byte) : Block :=
  blockOfBits fun i => ocbStretchBit (ocbKtop e t nonce) (ocbBottom t nonce + i)

/-- The OCB offset of block number `j` (1-based), from the offset before block 1: it gathers `L_ntz(1) … L_ntz(j)`
(R353, R354). -/
def ocbOffset (s : State) (off0 : Block) : Nat → Block
  | 0 => off0
  | j + 1 => (ocbOffset s off0 j).xor (s.kc.l.getD (ntz (j + 1)) (Bytes.zero 16))

/-- `ocb_hash(A)` (R353). -/
def ocbHashOf (s : State) (a : List Byte) : Block :=
  let m := a.length / 16
  let off := ocbOffset s (Bytes.zero 16)
  let sum := xorSum (fun j => s.E s.kc.k ((blockAt a j).xor (off (j + 1)))) m
  if a.length % 16 = 0 then sum
  else sum.xor (s.E s.kc.k ((tailBlock (a.drop (16 * m))).xor ((off m).xor s.kc.h)))

/-- The output of `ocb_core` from `Offset0` (R354): whole blocks through `f`, a tail under `E` of its offset. -/
def ocbOut (s : State) (f : Block → Block) (off0 : Block) (x : List Byte) : List Byte :=
  let m := x.length / 16
  let off := ocbOffset s off0
  blocks m (fun j => (off (j + 1)).xor (f ((blockAt x j).xor (off (j + 1)))))
    ++ xorBytes (x.drop (16 * m)) (s.E s.kc.k ((off m).xor s.kc.h)).bytes

/-- The OCB tag over the plaintext `p` (R354). -/
def ocbTagOf (s : State) (t : Nat) (off0 : Block) (p : List Byte) : List Byte :=
  let m := p.length / 16
  let offm := ocbOffset s off0 m
  let chkm := xorSum (blockAt p) m
  let off := if p.length % 16 = 0 then offm else offm.xor s.kc.h
  let chk := if p.length % 16 = 0 then chkm else chkm.xor (tailBlock (p.drop (16 * m)))
  ((s.E s.kc.k ((chk.xor off).xor s.kc.ldollar)).xor (ocbHashOf s s.aad)).bytes.take t

/-- XTS by index (R383, R384). `T j` is the tweak of block `j`; with a tail the two last pieces swap, and the block
that comes last is filled up with the surplus bytes of the piece before. -/
def xtsOut (f : Block → Block) (dec : Bool) (T : Nat → Block) (x : List Byte) : List Byte :=
  let m := x.length / 16
  let b := x.length % 16
  if b = 0 then blocks m fun j => xex f (blockAt x j) (T j)
  else
    let first := xex f (blockAt x (m - 1)) (T (if dec then m else m - 1))
    let filled := Bytes.ofList 16 (x.drop (16 * m) ++ first.bytes.drop b)
    blocks (m - 1) (fun j => xex f (blockAt x j) (T j))
      ++ (xex f filled (T (if dec then m - 1 else m))).bytes ++ first.bytes.take b

/-- Half-block `j` of a string. -/
def halfAt (x : List Byte) (j : Nat) : Bytes 8 := Bytes.ofList 8 ((x.drop (8 * j)).take 8)

/-- The KW registers `A` and `R[1 .. nh]` after the first `t` of the `6·nh` steps, with `t` itself the round counter
`nh·j + i` of R390. -/
def kwSteps (e : Block → Block) (a0 : Bytes 8) (r0 : List (Bytes 8)) : Nat → Bytes 8 × List (Bytes 8)
  | 0 => (a0, r0)
  | t + 1 =>
    let q := kwSteps e a0 r0 t
    let i := t % r0.length
    let b := e (Bytes.join q.1 (q.2.getD i (Bytes.zero 8)))
    (b.msb8.xor (Bytes.be 8 (t + 1)), q.2.set i b.lsb8)

/-- `A ‖ R[1] ‖ … ‖ R[nh]` after all `6·nh` steps from `a0` and the half-blocks of `p` (R390). -/
def kwFrom (e : Block → Block) (a0 : Bytes 8) (p : List Byte) : List Byte :=
  let q := kwSteps e a0 ((List.range (p.length / 8)).map (halfAt p)) (6 * (p.length / 8))
  q.1.bytes ++ joinChunks q.2

/-! ## Relations between two runs -/

/-- A command's outcome with the state in it changed. -/
def mapNext (g : State → State) : Result → Result
  | .next t => .next (g t)
  | .fault r => .fault r
  | .refused r => .refused r

/-- `dec` recovers what `enc` wrote: a run of `dec` that passes its checks, under the same key context and
parameters, with the same nonce and a new stream, on the output of a run of `enc`, commits the source of `enc`. -/
def Recovers (enc dec : Fields → Instr) : Prop :=
  ∀ f g s t u, Passes (enc f) s → exec (enc f) s = .next t → Passes (dec g) u →
    f.cont = false → g.cont = false → f.param = g.param →
    u.cfg = s.cfg → u.kc = s.kc → u.nonce = s.nonce → u.src = outputOf (enc f) s t →
    ∃ v, exec (dec g) u = .next v ∧ v.err = false ∧ v.authfail = false ∧ outputOf (dec g) u v = s.src

/-- The same for an AEAD mode, whose decrypt also gets the AAD and the tag `enc` made, and verifies it. -/
def RecoversAead (enc dec : Fields → Instr) : Prop :=
  ∀ f s t u, Passes (enc f) s → exec (enc f) s = .next t → Passes (dec f) u →
    u.cfg = s.cfg → u.kc = s.kc → u.nonce = s.nonce → u.aad = s.aad → u.src = outputOf (enc f) s t →
    u.cl.tag = t.tag → u.cl.rxtlen.toNat = f.tlen →
    ∃ v, exec (dec f) u = .next v ∧ v.err = false ∧ v.authfail = false ∧ outputOf (dec f) u v = s.src

/-- A command that may be split: one run over `X ‖ Y` writes what a run over `X` and then a run with CONT = 1 over
`Y` write, and leaves the same stream. -/
def Splits (c : Fields → Instr) : Prop :=
  ∀ f g s s1 s2 t t1 t2, Passes (c f) s → exec (c f) s = .next t →
    Passes (c f) s1 → exec (c f) s1 = .next t1 → Passes (c g) s2 → exec (c g) s2 = .next t2 →
    g.cont = true → g.param = f.param →
    s1.cfg = s.cfg → s1.kc = s.kc → s1.st = s.st → s1.draws = s.draws → s1.nonce = s.nonce →
    s2.cfg = s.cfg → s2.kc = s.kc → s2.st = t1.st → s.src = s1.src ++ s2.src →
    outputOf (c f) s t = outputOf (c f) s1 t1 ++ outputOf (c g) s2 t2 ∧ t2.st = t.st

/-! ## The invariant -/

/-- The fields of a valid key context stand in the relations R60, R61, R190 and R191 give them. -/
structure KeyContextOk (s : State) : Prop where
  key_eq : s.kc.key = s.key.bytes.take s.kc.klen.bytes
  keylen_eq : s.keylen.toNat = s.kc.klen.bytes
  k_eq : s.kc.klen ≠ .k64 → s.kc.k = s.kc.key
  h_eq : s.kc.klen ≠ .k64 → s.kc.h = s.E s.kc.key (Bytes.zero 16)
  k1_eq : s.kc.klen ≠ .k64 → s.kc.k1 = dblBe s.kc.h
  k2_eq : s.kc.klen ≠ .k64 → s.kc.k2 = dblBe s.kc.k1
  ldollar_eq : s.kc.klen ≠ .k64 → s.kc.ldollar = dblBe s.kc.h
  l_eq : s.kc.klen ≠ .k64 → ∀ j, j < 32 → s.kc.l[j]? = some (ocbSeries s.kc.ldollar j)
  halves : s.kc.klen = .k32 ∨ s.kc.klen = .k64 →
    s.kc.key1 = s.kc.key.take (s.kc.klen.bytes / 2) ∧ s.kc.key2 = s.kc.key.drop (s.kc.klen.bytes / 2)

/-- What holds between the fields of every state the machine comes to. -/
structure Inv (s : State) : Prop where
  /-- DEV_BASE is aligned (R9). -/
  cfg_wf : s.cfg.wf
  /-- MSG keeps its canonical form. -/
  msg_wf : Memory.wf s.msg
  /-- Only bytes that exist are written (R100). -/
  msg_in : ∀ c ∈ s.msg, c.1 < s.msgSize
  /-- A valid key context belongs to the key in KEY and KEYLEN (R57, R60). -/
  kc_ok : s.kc.valid = true → KeyContextOk s
  /-- A valid stream has a valid standard key (R57, R62). -/
  st_key : s.st.valid = true → s.kc.valid = true ∧ s.kc.klen ≠ .k64
  /-- A CTR stream that has made no keystream block has none in use (R62, R234). -/
  st_fresh : s.st.valid = true → s.st.smode = .ctr → s.st.fresh = true → s.st.pos = 16
  /-- While BUSY the operand registers are frozen, so the latch still equals them (R58, R64, R572). -/
  frozen : s.seq = .busy → s.cl = latchOf s
  /-- While BUSY the STATUS of the last command is cleared (R181). -/
  busy_status : s.seq = .busy →
    s.done = false ∧ s.err = false ∧ s.authfail = false ∧ s.errcode = .none ∧ s.outLen = 0
  /-- ERR is 1 exactly when ERRCODE is not 0 (R185). -/
  err_code : s.err = true ↔ s.errcode ≠ .none
  /-- An authentication failure is no error (R185). -/
  one_outcome : ¬ (s.err = true ∧ s.authfail = true)
  /-- A command that did not commit leaves OUT_LEN 0 (R51). -/
  out_zero : s.err = true ∨ s.authfail = true → s.outLen = 0
  /-- OUT_LEN counts bytes of MSG (R51, R108). -/
  out_le : s.outLen.toNat ≤ s.msgSize

end Sys2Proof.Safety
end

