-- ==== Sys2Proof/Certificates/Slice0/Obligations.lean ====
section
/-! DEFINITION. The statements for the provers. Each is about every state, or every state that meets the premises it
names; "passes" is `Safety.Passes`, the checks of spec/60_exceptions.md rule R502. -/

open Sys2Proof Sys2Proof.Machine Sys2Proof.Safety

/-! ## Encoding -/

/-- Decoding the word of a well-formed command gives the command back, fields and all (R140, R161). -/
def Obligations.DecodeEncode : Prop :=
  ∀ i : Instr, i.wf = true → decodeWord (encode i) = .ok i

/-- A word that decodes is the encoding of the command it decodes to, and that command is well formed: no two words
decode alike, and no bit is ignored (R140, R145). -/
def Obligations.EncodeDecode : Prop :=
  ∀ (w : Word) (i : Instr), decodeWord w = .ok i → i.wf = true ∧ encode i = w

/-- "A command word selects command `OP` iff `(w and 0xFFE0E0FF) = OP`", for the 32 rows of R150; and the command
carries TLEN, PARAM and CONT as bits 12:8, 19:16 and 20 (R142–R144, R152). -/
def Obligations.WordSelectsCommand : Prop :=
  ∀ (w : Word) (op : Nat) (c : Fields → Instr), (op, c) ∈
      [(0x00, Instr.nop), (0x01, .keyinit), (0x02, .ecbEnc), (0x03, .ecbDec), (0x04, .cbcEnc), (0x05, .cbcDec),
        (0x06, .ctr), (0x07, .ofb), (0x08, .cfbEnc), (0x09, .cfbDec), (0x0A, .cbcmacGen), (0x0B, .cbcmacVer),
        (0x0C, .cmacGen), (0x0D, .cmacVer), (0x0E, .gcmEnc), (0x0F, .gcmDec)]
      ++ [(0x10, .ccmEnc), (0x11, .ccmDec), (0x12, .eaxEnc), (0x13, .eaxDec), (0x14, .ocbEnc), (0x15, .ocbDec),
        (0x16, .xtsEnc), (0x17, .xtsDec), (0x18, .kwWrap), (0x19, .kwUnwrap), (0x1A, .ghash), (0x1B, .polyval),
        (0x1C, .gfmulG), (0x1D, .gfmulP), (0x1E, .gfdblBe), (0x1F, .gfdblLe)] →
    ((w &&& 0xFFE0E0FF#32 = BitVec.ofNat 32 op) ↔
      decodeWord w = .ok (c ⟨(w.extractLsb' 8 5).toNat, (w.extractLsb' 16 4).toNat, w.getLsbD 20⟩))

/-- A word with a reserved bit set, or with OP 0x20–0x3F, ends the command with CmdError(BADOP), before any other
check and whatever else the state holds (R145, R151). -/
def Obligations.BadWordsEndInBadop : Prop :=
  ∀ s : State, (s.cl.cmd &&& 0xFFE0E0C0#32 ≠ 0 ∨ 0x20 ≤ (s.cl.cmd &&& 0x3F#32).toNat) →
    complete s = .next (errored s .badop)

/-- The words R161 and R150 write out decode to their commands; two illegal words do not decode. -/
def Obligations.WrittenWordsDecode : Prop :=
  decodeWord 0x0000100E#32 = .ok (.gcmEnc ⟨16, 0, false⟩)
    ∧ decodeWord 0x00020810#32 = .ok (.ccmEnc ⟨8, 2, false⟩)
    ∧ decodeWord 0x00100006#32 = .ok (.ctr ⟨0, 0, true⟩)
    ∧ decodeWord 0x00000000#32 = .ok (.nop ⟨0, 0, false⟩)
    ∧ decodeWord 0x00000001#32 = .ok (.keyinit ⟨0, 0, false⟩)
    ∧ decodeWord 0x0000100C#32 = .ok (.cmacGen ⟨16, 0, false⟩)
    ∧ decodeWord 0x00000019#32 = .ok (.kwUnwrap ⟨0, 0, false⟩)
    ∧ decodeWord 0x0000001F#32 = .ok (.gfdblLe ⟨0, 0, false⟩)
    ∧ decodeWord 0x00000020#32 = .error .reservedOpcode
    ∧ decodeWord 0x00000040#32 = .error .reservedBits

/-! ## The sequencer -/

/-- A step runs the decoded command: while BUSY, when the latched word decodes to `i`, a step in which the engine
moves is `exec i`. The engine moves when nothing is pending, or when a slot of its own comes first, which the step
uses up (the queue is the model's own: log 1). A word that does not decode ends in BADOP, and an IDLE engine
does nothing. Where a host access or a hard reset comes first, that is what the step does. -/
def Obligations.StepRunsLatchedCommand : Prop :=
  ∀ (s : State),
    (s.seq = .busy → ∀ i, decodeWord s.cl.cmd = .ok i →
      (s.inputs = [] → step s = exec i s)
      ∧ ∀ rest, s.inputs = .engine :: rest → step s = exec i { s with inputs := rest })
    ∧ (s.seq = .busy → ∀ e, decodeWord s.cl.cmd = .error e →
      (s.inputs = [] → step s = .next (errored s .badop))
      ∧ ∀ rest, s.inputs = .engine :: rest → step s = .next (errored { s with inputs := rest } .badop))
    ∧ (s.seq = .idle →
      (s.inputs = [] → step s = .next s)
      ∧ ∀ rest, s.inputs = .engine :: rest → step s = .next { s with inputs := rest })
    ∧ (∀ a rest, s.inputs = .access a :: rest → step s = .next (hostAccess a { s with inputs := rest }))
    ∧ ∀ rest, s.inputs = .hardReset :: rest → step s = .next (hardReset { s with inputs := rest })

/-- Every command, in every state, ends in one of the first three outcomes of R185 as the host sees them: commit,
auth failure, or error. Only the seven commands R184 lists can fail to authenticate. -/
def Obligations.CommandOutcomes : Prop :=
  ∀ (i : Instr) (s : State), ∃ t, exec i s = .next t ∧ t.seq = .idle ∧ t.done = true ∧
    ((t.err = false ∧ t.authfail = false ∧ t.errcode = .none ∧ t.outLen = BitVec.ofNat 32 (outLength i s))
    ∨ (t.err = false ∧ t.authfail = true ∧ t.errcode = .none ∧ t.outLen = 0
      ∧ (∀ b, s.cl.dstPtr.toNat ≤ b → b < s.cl.dstPtr.toNat + outLength i s → t.msgByte b = 0)
      ∧ t.tag = s.tag ∧ t.gfr = s.gfr ∧ t.kc = s.kc ∧ t.st = s.st
      ∧ (comparesTag i = true ∨ ∃ f, i = .kwUnwrap f))
    ∨ (∃ c, c ≠ .none ∧ c ≠ .abort ∧ t = errored s c))

/-- What a command leaves unchanged, for all 32 commands: every operand register, the KEY, GFA and GFB windows, the
latch, IRQ_EN and BUSYERR; TAG but for the six tag-producing commands, GFR but for the six GF commands, `KC` but for
KEYINIT, `ST` but for the stream commands and KEYINIT; and every byte of MSG outside the destination region (R53, R54,
R55, R59, R62, R107). That the latch `CL` keeps its contents in the IDLE state after it is the model's choice (log 7);
`cfg`, `inputs` and `response` are the model's own fields (logs 2, 1 and 10). -/
def Obligations.CommandFrame : Prop :=
  ∀ (i : Instr) (s t : State), exec i s = .next t →
    (t.cmd = s.cmd ∧ t.keylen = s.keylen ∧ t.srcPtr = s.srcPtr ∧ t.srcLen = s.srcLen ∧ t.dstPtr = s.dstPtr
      ∧ t.aadPtr = s.aadPtr ∧ t.aadLen = s.aadLen ∧ t.noncePtr = s.noncePtr ∧ t.nonceLen = s.nonceLen
      ∧ t.rxtlen = s.rxtlen ∧ t.key = s.key ∧ t.gfa = s.gfa ∧ t.gfb = s.gfb)
    ∧ (t.cl = s.cl ∧ t.irqEn = s.irqEn ∧ t.busyerr = s.busyerr ∧ t.cfg = s.cfg ∧ t.inputs = s.inputs
      ∧ t.response = s.response)
    ∧ (makesTag i = false → t.tag = s.tag)
    ∧ (isGf i = false → t.gfr = s.gfr)
    ∧ ((∀ f, i ≠ .keyinit f) → t.kc = s.kc)
    ∧ ((∀ f, i ≠ .keyinit f) → isStream i = false → t.st = s.st)
    ∧ (∀ b, ¬ (s.cl.dstPtr.toNat ≤ b ∧ b < s.cl.dstPtr.toNat + outLength i s) → t.msgByte b = s.msgByte b)

/-- The machine always goes on, and a command that is BUSY ends: every step answers a next state, and whatever is
pending, after at most one step more than that the engine has been IDLE (R501, R581; that a pending queue runs out is
the model's fairness, log 1). -/
def Obligations.StepsGoOnAndBusyEnds : Prop :=
  (∀ s : State, ∃ t, step s = .next t)
    ∧ ∀ s : State, s.seq = .busy →
      ∃ k t, k ≤ s.inputs.length + 1 ∧ Host.Core.run Sys2Proof.core k s = .next t ∧ t.seq = .idle

/-- The invariant holds right after reset. -/
def Obligations.InvariantAtReset : Prop := Safety.Inv State.reset

/-- Every step keeps the invariant, from every state that has it: host accesses, aborts and resets as well as the 32
commands. -/
def Obligations.InvariantKept : Prop := ∀ s t : State, Safety.Inv s → step s = .next t → Safety.Inv t

/-! ## Errors -/

/-- Error completion (R503): when a check fails, the first failing one in the order of R502 names the error, and the
state is as before but for SEQ, DONE, ERR, ERRCODE and AUTHFAIL. When none fails, no error is raised. -/
def Obligations.FirstFailingCheckReported : Prop :=
  ∀ (i : Instr) (s : State),
    (∀ c, firstFailure i s = some c →
      exec i s = .next { s with seq := .idle, done := true, err := true, errcode := c, authfail := false })
    ∧ (firstFailure i s = none → ∃ t, exec i s = .next t ∧ t.err = false)

/-- Which check fails depends on nothing secret and on no data: two states that agree on the latched command
registers, KC.valid, KC.klen, ST.valid, ST.smode and MSG_SIZE report the same error, or both none. (A part of R580 that
has no time in it.) -/
def Obligations.ErrorsIgnoreData : Prop :=
  ∀ (i : Instr) (s s' : State), s'.cl.keylen = s.cl.keylen →
    s'.cl.srcPtr = s.cl.srcPtr → s'.cl.srcLen = s.cl.srcLen → s'.cl.dstPtr = s.cl.dstPtr →
    s'.cl.aadPtr = s.cl.aadPtr → s'.cl.aadLen = s.cl.aadLen →
    s'.cl.noncePtr = s.cl.noncePtr → s'.cl.nonceLen = s.cl.nonceLen →
    s'.kc.valid = s.kc.valid → s'.kc.klen = s.kc.klen → s'.st.valid = s.st.valid → s'.st.smode = s.st.smode →
    s'.msgSize = s.msgSize →
    ∃ t t', exec i s = .next t ∧ exec i s' = .next t' ∧ t'.err = t.err ∧ t'.errcode = t.errcode

/-- Unused operands have no effect (R148, R149): a command answers the same, whatever stands in the latched registers that R147
does not list for it, and in the fields of its word that R146 has it ignore. -/
def Obligations.UnusedOperandsIgnored : Prop :=
  (∀ (i : Instr) (s : State) (p n : Word) (r : BitVec 8) (x : Block),
    (isAead i = false →
      exec i { s with cl := { s.cl with aadPtr := p, aadLen := n } }
        = mapNext (fun t => { t with cl := { t.cl with aadPtr := p, aadLen := n } }) (exec i s))
    ∧ (usesNonceRegion i = false →
      exec i { s with cl := { s.cl with noncePtr := p, nonceLen := n } }
        = mapNext (fun t => { t with cl := { t.cl with noncePtr := p, nonceLen := n } }) (exec i s))
    ∧ (usesSource i = false →
      exec i { s with cl := { s.cl with srcPtr := p, srcLen := n } }
        = mapNext (fun t => { t with cl := { t.cl with srcPtr := p, srcLen := n } }) (exec i s))
    ∧ ((∀ u, outLength i u = 0) →
      exec i { s with cl := { s.cl with dstPtr := p } }
        = mapNext (fun t => { t with cl := { t.cl with dstPtr := p } }) (exec i s))
    ∧ ((∀ f, i ≠ .keyinit f) →
      exec i { s with cl := { s.cl with keylen := n } }
        = mapNext (fun t => { t with cl := { t.cl with keylen := n } }) (exec i s))
    ∧ (isGf i = false →
      exec i { s with cl := { s.cl with gfa := x, gfb := x } }
        = mapNext (fun t => { t with cl := { t.cl with gfa := x, gfb := x } }) (exec i s))
    ∧ (comparesTag i = false →
      exec i { s with cl := { s.cl with rxtlen := r, tag := x } }
        = mapNext (fun t => { t with cl := { t.cl with rxtlen := r, tag := x } }) (exec i s)))
  ∧ (∀ c ∈ [Instr.nop, .keyinit, .ecbEnc, .ecbDec, .cbcmacVer, .cmacVer, .xtsEnc, .xtsDec, .kwWrap, .kwUnwrap,
        .ghash, .polyval, .gfmulG, .gfmulP, .gfdblBe, .gfdblLe], ∀ f g s, exec (c f) s = exec (c g) s)
  ∧ (∀ c ∈ [Instr.cbcEnc, .cbcDec, .ctr, .ofb], ∀ f g s, f.cont = g.cont → exec (c f) s = exec (c g) s)
  ∧ (∀ c ∈ [Instr.cfbEnc, .cfbDec], ∀ f g s, f.cont = g.cont → f.param = g.param → exec (c f) s = exec (c g) s)
  ∧ (∀ c ∈ [Instr.cbcmacGen, .cmacGen, .gcmEnc, .gcmDec, .eaxEnc, .eaxDec, .ocbEnc, .ocbDec],
      ∀ f g s, f.tlen = g.tlen → exec (c f) s = exec (c g) s)
  ∧ (∀ c ∈ [Instr.ccmEnc, .ccmDec], ∀ f g s, f.tlen = g.tlen → f.param = g.param → exec (c f) s = exec (c g) s)

/-- Determinism (R186): a command that is no stream command, and a stream command with CONT = 0 that passes its checks,
do not depend on `ST`. KEYINIT clears `ST.valid` when it commits, and that is all it does with `ST`;
that the other fields of the invalid `ST` stay is the model's choice (log 7). -/
def Obligations.NoCallHistory : Prop :=
  ∀ (i : Instr) (s : State) (S : Stream),
    (isStream i = false → (∀ f, i ≠ .keyinit f) →
      exec i { s with st := S } = mapNext (fun t => { t with st := S }) (exec i s))
    ∧ (∀ f, exec (.keyinit f) { s with st := S }
      = mapNext (fun t => { t with st := if t.err then S else { S with valid := false } }) (exec (.keyinit f) s))
    ∧ (isStream i = true → i.fields.cont = false → Passes i s → exec i { s with st := S } = exec i s)

/-! ## The control family -/

/-- NOP does nothing and completes, in every state and with any field values (R189). STATUS then reads
`0x00000002 | KEYVALID<<5 | SVALID<<6 | SMODE<<8 | SPOS<<16` when BUSYERR is 0. -/
def Obligations.NopCompletes : Prop :=
  ∀ (f : Fields) (s : State), exec (.nop f) s = .next (committed s 0)
    ∧ (s.busyerr = false → (committed s 0).statusWord =
      2#32 ||| (BitVec.ofNat 32 s.kc.valid.toNat <<< 5) ||| (BitVec.ofNat 32 s.st.valid.toNat <<< 6)
        ||| (BitVec.ofNat 32 s.smodeView <<< 8) ||| (BitVec.ofNat 32 s.sposView <<< 16))

/-- KEYINIT with a legal KEYLEN latches the key, precomputes the subkeys and ends the stream (R190, R191); with another
KEYLEN it raises KEYLEN, and finds the key context invalid already in every state with the invariant. What R60
calls undefined for the length is left open (log 8), and which free draws were used (log 9). That the other fields
of the invalid `ST` stay is the model's choice (log 7). -/
def Obligations.KeyinitSetsContext : Prop :=
  ∀ (f : Fields) (s : State),
    (∀ kl : KeyLen, s.cl.keylen.toNat = kl.bytes →
      ∃ kc d, exec (.keyinit f) s
          = .next { committed s 0 with kc := kc, st := { s.st with valid := false }, draws := d }
        ∧ kc.valid = true ∧ kc.klen = kl ∧ kc.key = s.key.bytes.take kl.bytes
        ∧ (kl ≠ .k64 → kc.k = kc.key ∧ kc.h = s.E kc.key (Bytes.zero 16) ∧ kc.k1 = dblBe kc.h ∧ kc.k2 = dblBe kc.k1
          ∧ kc.ldollar = dblBe kc.h ∧ kc.l.length = 32 ∧ kc.l[0]? = some (dblBe kc.ldollar)
          ∧ ∀ j, j + 1 < 32 → kc.l[j + 1]? = kc.l[j]?.map dblBe)
        ∧ (kl = .k32 ∨ kl = .k64 → kc.key1 = kc.key.take (kl.bytes / 2) ∧ kc.key2 = kc.key.drop (kl.bytes / 2)))
    ∧ (s.cl.keylen.toNat ∉ [16, 24, 32, 64] →
      exec (.keyinit f) s = .next (errored s .keylen) ∧ (Safety.Inv s → s.seq = .busy → s.kc.valid = false))

/-! ## The chaining family -/

/-- ECB: block `i` of the output is `f` of block `i` of the source, `f` being E for ECB_ENC and D for ECB_DEC, and nothing
else is written (R260). -/
def Obligations.EcbResults : Prop :=
  ∀ (f : Fields) (s : State),
    (Passes (.ecbEnc f) s → CommitsStoring (.ecbEnc f) s s
      (blocks (s.cl.srcLen.toNat / 16) fun i => s.E s.kc.k (blockAt s.src i)))
    ∧ (Passes (.ecbDec f) s → CommitsStoring (.ecbDec f) s s
      (blocks (s.cl.srcLen.toNat / 16) fun i => s.D s.kc.k (blockAt s.src i)))

/-- CBC: each output block chains on the ciphertext block before it, or on the starting value; the last ciphertext block
is left in `ST` (R261, R265, R266). The chain of the ciphertext is `y_{j+1} = E(X_j xor y_j)`. -/
def Obligations.CbcResults : Prop :=
  ∀ (f : Fields) (s : State),
    let m := s.cl.srcLen.toNat / 16
    (Passes (.cbcEnc f) s → ∃ S, Begins .cbc f s S ∧
      let y := chain (s.E s.kc.k) S.sreg s.src
      CommitsStream (.cbcEnc f) s { S with sreg := y m } (blocks m fun j => y (j + 1)))
    ∧ (Passes (.cbcDec f) s → ∃ S, Begins .cbc f s S ∧
      let y := fun j => if j = 0 then S.sreg else blockAt s.src (j - 1)
      CommitsStream (.cbcDec f) s { S with sreg := y m } (blocks m fun j => (s.D s.kc.k (blockAt s.src j)).xor (y j)))

/-! ## The stream family -/

/-- CTR: byte `j` of the output is byte `j` of the source xor the keystream byte at its place in the stream, and the
stream is left at the place reached (R234, R238). -/
def Obligations.CtrResult : Prop :=
  ∀ (f : Fields) (s : State), Passes (.ctr f) s →
    ∃ S S', Begins .ctr f s S ∧ CtrEnds (s.E s.kc.k) S s.cl.srcLen.toNat S'
      ∧ CommitsStream (.ctr f) s S' (padded (fun j => ctrPad (s.E s.kc.k) S (S.pos.val + j)) s.src)

/-- OFB likewise, with the keystream `E(IV), E(E(IV)), …` (R235, R239). -/
def Obligations.OfbResult : Prop :=
  ∀ (f : Fields) (s : State), Passes (.ofb f) s →
    ∃ S S', Begins .ofb f s S ∧ OfbEnds (s.E s.kc.k) S s.cl.srcLen.toNat S'
      ∧ CommitsStream (.ofb f) s S' (padded (fun j => ofbPad (s.E s.kc.k) S (S.pos.val + j)) s.src)

/-- CFB: segment `j` of the output is segment `j` of the source xor the leading bytes of `E` of the shift register,
which holds the last 16 bytes of `register ‖ ciphertext` so far: the ciphertext is the output of CFB_ENC and the source of
CFB_DEC (R236, R240, R241). -/
def Obligations.CfbResults : Prop :=
  ∀ (f : Fields) (s : State),
    let size := segmentBytes f.param
    let n := s.cl.srcLen.toNat
    (Passes (.cfbEnc f) s → ∃ S out, Begins (familyOf (.cfbEnc f)) f s S ∧ out.length = n
      ∧ CommitsStream (.cfbEnc f) s { S with sreg := cfbRegister S.sreg out n } out
      ∧ ∀ j < n / size, segAt size out j
        = xorBytes (segAt size s.src j) (s.E s.kc.k (cfbRegister S.sreg out (size * j))).bytes)
    ∧ (Passes (.cfbDec f) s → ∃ S out, Begins (familyOf (.cfbDec f)) f s S ∧ out.length = n
      ∧ CommitsStream (.cfbDec f) s { S with sreg := cfbRegister S.sreg s.src n } out
      ∧ ∀ j < n / size, segAt size out j
        = xorBytes (segAt size s.src j) (s.E s.kc.k (cfbRegister S.sreg s.src (size * j))).bytes)

/-- Splitting a message across commands with CONT = 1 gives the same output and the same stream as one command, for CTR,
OFB and both directions of CBC and CFB (R230, R233, R234, R236, R239–R241, R261). That the two runs from the start use the
same free draw for `ST.ks`, which R230 leaves undefined, is a premise about the model's own counter (logs 8 and 9). -/
def Obligations.StreamsSplit : Prop :=
  Splits .ctr ∧ Splits .ofb ∧ Splits .cbcEnc ∧ Splits .cbcDec ∧ Splits .cfbEnc ∧ Splits .cfbDec

/-! ## The MAC family -/

/-- CBC-MAC: the tag is the last value of the chain over the padded message, its first `t` bytes and then zeros; CBCMAC_VER
ends by comparing the first RXTLEN bytes, for RXTLEN in 1–16 (R280, R282, R284, R285). -/
def Obligations.CbcmacResults : Prop :=
  ∀ (f : Fields) (s : State),
    (Passes (.cbcmacGen f) s → exec (.cbcmacGen f) s
      = .next (committed (taggedWith s ((cbcmacOf (s.E s.kc.k) s.src).bytes.take f.tlen)) 0))
    ∧ (Passes (.cbcmacVer f) s → EndsVerify (.cbcmacVer f) s (cbcmacOf (s.E s.kc.k) s.src))

/-- CMAC likewise, with the subkeys K1 and K2 (R281, R282, R286, R287). -/
def Obligations.CmacResults : Prop :=
  ∀ (f : Fields) (s : State),
    (Passes (.cmacGen f) s → exec (.cmacGen f) s
      = .next (committed (taggedWith s ((cmacOf (s.E s.kc.k) s.kc.k1 s.kc.k2 s.src).bytes.take f.tlen)) 0))
    ∧ (Passes (.cmacVer f) s → EndsVerify (.cmacVer f) s (cmacOf (s.E s.kc.k) s.kc.k1 s.kc.k2 s.src))

/-! ## The AEAD family -/

/-- GCM: byte `j` of the output is byte `j` of the source xor the counter-mode keystream from `inc(J0)`; the tag is over
the ciphertext; GCM_DEC commits exactly when RXTLEN is 16 and the tag agrees, and zero-fills otherwise
(R301, R303–R305, R310, R311). -/
def Obligations.GcmResults : Prop :=
  ∀ (f : Fields) (s : State),
    (Passes (.gcmEnc f) s →
      let c := gcmCrypt s s.src
      CommitsStoring (.gcmEnc f) s (taggedWith s (gcmTagOf s s.aad c).bytes) c)
    ∧ (Passes (.gcmDec f) s →
      EndsAead (.gcmDec f) s (gcmCrypt s s.src) (gcmTagOf s s.aad s.src).bytes 16)

/-- CCM: the keystream `S_1 ‖ S_2 ‖ …` over the payload, the tag over the formatted plaintext, with `B` and the counter
blocks said byte by byte (`ccmInput`, `ccmCounter`; R301, R321–R323, R325, R326). -/
def Obligations.CcmResults : Prop :=
  ∀ (f : Fields) (s : State),
    (Passes (.ccmEnc f) s →
      CommitsStoring (.ccmEnc f) s (taggedWith s (ccmTagOf s f.tlen f.param s.src)) (ccmCryptOf s f.param s.src))
    ∧ (Passes (.ccmDec f) s →
      let pl := ccmCryptOf s f.param s.src
      EndsAead (.ccmDec f) s pl (ccmTagOf s f.tlen f.param pl) f.tlen)

/-- EAX: the keystream from the counter `omac(0, N)`, the tag `omac(0, N) xor omac(1, A) xor omac(2, C)` cut to `t` bytes
(R301, R340–R344). -/
def Obligations.EaxResults : Prop :=
  ∀ (f : Fields) (s : State),
    (Passes (.eaxEnc f) s →
      let c := eaxCryptOf s s.src
      CommitsStoring (.eaxEnc f) s (taggedWith s (eaxTagOf s f.tlen c)) c)
    ∧ (Passes (.eaxDec f) s →
      EndsAead (.eaxDec f) s (eaxCryptOf s s.src) (eaxTagOf s f.tlen s.src) f.tlen)

/-- OCB: each whole block is masked by its offset before and after the cipher, a tail takes the leading bytes of one more
keystream block, and the tag is over the plaintext checksum, for a context that holds `L_0 … L_31`; `Offset0` is said
bit by bit (`ocbStartOffset`; R301, R350–R354, R357, R358). -/
def Obligations.OcbResults : Prop :=
  ∀ (f : Fields) (s : State), 32 ≤ s.kc.l.length →
    let off0 := ocbStartOffset (s.E s.kc.k) f.tlen s.nonce
    (Passes (.ocbEnc f) s →
      CommitsStoring (.ocbEnc f) s (taggedWith s (ocbTagOf s f.tlen off0 s.src)) (ocbOut s (s.E s.kc.k) off0 s.src))
    ∧ (Passes (.ocbDec f) s →
      let p := ocbOut s (s.D s.kc.k) off0 s.src
      EndsAead (.ocbDec f) s p (ocbTagOf s f.tlen off0 p) f.tlen)

/-! ## XTS and KW -/

/-- XTS: every block under its tweak `T_j`, with ciphertext stealing for a tail (R381–R386). -/
def Obligations.XtsResults : Prop :=
  ∀ (f : Fields) (s : State),
    let alpha := match s.cfg.xtsAlphaOrder with | .le => dblLe | .be => dblBe
    let T := fun j => alpha^[j] (s.E s.kc.key2 (blockAt s.nonce 0))
    (Passes (.xtsEnc f) s → CommitsStoring (.xtsEnc f) s s (xtsOut (s.E s.kc.key1) false T s.src))
    ∧ (Passes (.xtsDec f) s → CommitsStoring (.xtsDec f) s s (xtsOut (s.D s.kc.key1) true T s.src))

/-- KW_WRAP: the output is `A ‖ R[1] ‖ … ‖ R[nh]` after 6·nh steps with the running counter, from the default IV
(R390, R392). KW_UNWRAP undoes the steps: there are one `A` and one plaintext from which the 6·nh steps give the
source, and the command commits the plaintext exactly when that `A` is the default IV, and zero-fills otherwise
(R391, R393). -/
def Obligations.KwResults : Prop :=
  ∀ (f : Fields) (s : State),
    (Passes (.kwWrap f) s →
      CommitsStoring (.kwWrap f) s s (kwFrom (s.E s.kc.k) ⟨List.replicate 8 0xA6, by simp⟩ s.src))
    ∧ (Passes (.kwUnwrap f) s →
      ∃ (a : Bytes 8) (p : List Byte), p.length + 8 = s.cl.srcLen.toNat ∧ kwFrom (s.E s.kc.k) a p = s.src
        ∧ (a.bytes = List.replicate 8 0xA6 → CommitsStoring (.kwUnwrap f) s s p)
        ∧ (a.bytes ≠ List.replicate 8 0xA6 → FailsStoringZeros (.kwUnwrap f) s p.length))

/-! ## What a decrypt recovers -/

/-- ECB and CBC decrypt what was encrypted (R263, R266; R8), for commands with CONT = 0. -/
def Obligations.BlockModesRecover : Prop := Recovers .ecbEnc .ecbDec ∧ Recovers .cbcEnc .cbcDec

/-- The stream modes decrypt what was encrypted, for commands with CONT = 0; CTR and OFB are their own inverses
(R238–R241). -/
def Obligations.StreamModesRecover : Prop :=
  Recovers .ctr .ctr ∧ Recovers .ofb .ofb ∧ Recovers .cfbEnc .cfbDec

/-- `xts_dec(xts_enc(P)) = P` for every `n ≥ 16`, tail or not (R384). -/
def Obligations.XtsRecovers : Prop := Recovers .xtsEnc .xtsDec

/-- Unwrapping what was wrapped passes the integrity check and gives the key data back (R390, R391). -/
def Obligations.KwRecovers : Prop := Recovers .kwWrap .kwUnwrap

/-- GCM_DEC accepts what GCM_ENC made and recovers the plaintext (R310, R311). -/
def Obligations.GcmRecovers : Prop := RecoversAead .gcmEnc .gcmDec

/-- CCM likewise (R325, R326). -/
def Obligations.CcmRecovers : Prop := RecoversAead .ccmEnc .ccmDec

/-- EAX likewise (R343, R344). -/
def Obligations.EaxRecovers : Prop := RecoversAead .eaxEnc .eaxDec

/-- OCB likewise (R357, R358). -/
def Obligations.OcbRecovers : Prop := RecoversAead .ocbEnc .ocbDec

/-! ## The GF family -/

/-- The four single operations write GFR and nothing else, in every state (R212–R215). -/
def Obligations.GfUnitResults : Prop :=
  ∀ (f : Fields) (s : State),
    exec (.gfmulG f) s = .next { committed s 0 with gfr := gmul s.cl.gfa s.cl.gfb }
    ∧ exec (.gfmulP f) s = .next { committed s 0 with gfr := pmul s.cl.gfa s.cl.gfb }
    ∧ exec (.gfdblBe f) s = .next { committed s 0 with gfr := dblBe s.cl.gfa }
    ∧ exec (.gfdblLe f) s = .next { committed s 0 with gfr := dblLe s.cl.gfa }

/-- GHASH and POLYVAL leave in GFR the chain over the source from GFA under GFB (R206, R207, R210, R211). So the host can
chain commands by copying GFR into GFA: a run over `S ‖ T` leaves in GFR what a run over `T` leaves that starts from the
GFR of a run over `S`. -/
def Obligations.GfChainResults : Prop :=
  (∀ (f : Fields) (s : State),
    (Passes (.ghash f) s → exec (.ghash f) s
      = .next { committed s 0 with gfr := ghashOf s.cl.gfb s.src s.cl.gfa })
    ∧ (Passes (.polyval f) s → exec (.polyval f) s
      = .next { committed s 0 with gfr := polyvalOf s.cl.gfb s.src s.cl.gfa }))
  ∧ ∀ c : Fields → Instr, c = .ghash ∨ c = .polyval →
    ∀ f s s1 s2 t t1 t2, Passes (c f) s → exec (c f) s = .next t → Passes (c f) s1 → exec (c f) s1 = .next t1 →
      Passes (c f) s2 → exec (c f) s2 = .next t2 →
      s1.cl.gfa = s.cl.gfa → s1.cl.gfb = s.cl.gfb → s2.cl.gfa = t1.gfr → s2.cl.gfb = s.cl.gfb →
      s.src = s1.src ++ s2.src → t2.gfr = t.gfr

/-- The doublings by byte: each byte moves one bit toward its MSB and takes the MSB of its lower neighbour, and the bit
shifted out is folded into the last byte as `0x87`; big-endian for dbl_be, little-endian for dbl_le; with the corner
cases of R202 and R203. -/
def Obligations.DoublingByBytes : Prop :=
  (∀ x : Block,
    (∀ i < 15, (dblBe x).byte i = (x.byte i <<< 1) ||| (x.byte (i + 1) >>> 7))
    ∧ (dblBe x).byte 15 = (x.byte 15 <<< 1) ^^^ (if (x.byte 0).getLsbD 7 then 0x87 else 0)
    ∧ (∀ i < 15, (dblLe x).byte (i + 1) = (x.byte (i + 1) <<< 1) ||| (x.byte i >>> 7))
    ∧ (dblLe x).byte 0 = (x.byte 0 <<< 1) ^^^ (if (x.byte 15).getLsbD 7 then 0x87 else 0))
  ∧ dblBe (Bytes.be 16 0) = Bytes.be 16 0
  ∧ dblBe (Bytes.be 16 (2 ^ 127)) = Bytes.be 16 0x87
  ∧ dblBe (Bytes.be 16 1) = Bytes.be 16 2
  ∧ dblBe (Bytes.be 16 (2 ^ 128 - 1)) = Bytes.be 16 (2 ^ 128 - 2 ^ 8 + 0x79)
  ∧ dblLe (Bytes.le 16 0) = Bytes.le 16 0
  ∧ dblLe (Bytes.le 16 (2 ^ 127)) = Bytes.le 16 0x87
  ∧ dblLe (Bytes.le 16 1) = Bytes.le 16 2
  ∧ dblLe (Bytes.le 16 (2 ^ 128 - 1)) = Bytes.le 16 (2 ^ 128 - 2 ^ 8 + 0x79)

/-- The laws of the GHASH-convention multiply (R204): it commutes, `0^16` annihilates, `80 00…00` is the one, and it
distributes over xor. -/
def Obligations.GmulLaws : Prop :=
  ∀ x y z : Block, gmul x y = gmul y x
    ∧ gmul x (Bytes.zero 16) = Bytes.zero 16
    ∧ gmul (Bytes.be 16 (2 ^ 127)) y = y
    ∧ gmul (x.xor y) z = (gmul x z).xor (gmul y z)

/-- The laws of the POLYVAL-convention multiply (R205): it commutes, `0^16` annihilates, `01 00…00 c2` is the one, and
`pmul(01 00…00, 01 00…00) = 01 00…00 04 92`. -/
def Obligations.PmulLaws : Prop :=
  (∀ x y : Block, pmul x y = pmul y x
    ∧ pmul x (Bytes.zero 16) = Bytes.zero 16
    ∧ pmul (Bytes.le 16 (1 + 0xC2 * 2 ^ 120)) y = y)
  ∧ pmul (Bytes.le 16 1) (Bytes.le 16 1) = Bytes.le 16 (1 + 0x04 * 2 ^ 112 + 0x92 * 2 ^ 120)

/-! ## Functions of the spec's notation -/

/-- The one law of the primitive (R8): `D(k, E(k, b)) = b` and `E(k, D(k, b)) = b`, for the external
cipher of R8 as for AES. The text of AES, from FIPS-197, is the model's choice (log 3, PRESUMED), and so is the external
cipher that stands in for AES under a key string of another length than 16, 24 or 32 (log 16, DESIGN CHOICE). -/
def Obligations.CipherInverse : Prop :=
  ∀ (s : State) (k : List Byte) (b : Block), s.D k (s.E k b) = b ∧ s.E k (s.D k b) = b

/-- `be_n` and `le_n` encode `v mod 2^(8n)`, byte 0 the most or the least significant, and `int_be` and `int_le` are the
inverse readings (R12). -/
def Obligations.IntegerEncodings : Prop :=
  (∀ n v : Nat, intBE (beBytes n v) = v % 2 ^ (8 * n) ∧ intLE (leBytes n v) = v % 2 ^ (8 * n)
    ∧ (∀ i < n, (beBytes n v).getD i 0 = BitVec.ofNat 8 (v / 2 ^ (8 * (n - 1 - i))))
    ∧ (∀ i < n, (leBytes n v).getD i 0 = BitVec.ofNat 8 (v / 2 ^ (8 * i))))
  ∧ (∀ x : List Byte, beBytes x.length (intBE x) = x ∧ leBytes x.length (intLE x) = x)

/-- The counter increments (R232): `inc128` adds one modulo `2^128` and wraps silently; `inc32` keeps bytes 0–11 and adds one
to the last four modulo `2^32`. -/
def Obligations.CounterIncrements : Prop :=
  (∀ x : Block, intBE (inc128 x).bytes = (intBE x.bytes + 1) % 2 ^ 128
    ∧ (inc32 x).bytes.take 12 = x.bytes.take 12
    ∧ intBE ((inc32 x).bytes.drop 12) = (intBE (x.bytes.drop 12) + 1) % 2 ^ 32)
  ∧ inc128 ⟨List.replicate 16 0xFF, by simp⟩ = Bytes.zero 16

/-- `ntz(i)` is the number of trailing zero bits, 128 for 0 (R16), and at most 31 below `2^32` (R354). -/
def Obligations.TrailingZeros : Prop :=
  ntz 0 = 128 ∧ ∀ i : Nat, 0 < i →
    (∀ j < ntz i, i.testBit j = false) ∧ i.testBit (ntz i) = true ∧ (i < 2 ^ 32 → ntz i ≤ 31)

/-! ## The host side -/

/-- After a hard reset, from any state, every register reads 0 but ID and VERSION, `KC` and `ST` are invalid, SEQ is IDLE and
IRQ is low (R68, R560). -/
def Obligations.HardResetState : Prop :=
  ∀ (s : State),
    (∀ r, (hardReset s).readReg r = match r with | .id => 0x4145534D | .version => 1 | _ => 0)
    ∧ (hardReset s).key = Bytes.zero 64 ∧ (hardReset s).seq = .idle
    ∧ (hardReset s).kc.valid = false ∧ (hardReset s).st.valid = false ∧ (hardReset s).irq = false
    ∧ ∀ r, State.reset.readReg r = (hardReset s).readReg r

/-- A soft reset (R561, R562): registers, windows and hidden state as after a hard reset, IDLE or BUSY, with no DONE and no error
code; every MSG byte is kept, but for the destination of a command that was running and would have passed its checks. -/
def Obligations.SoftReset : Prop :=
  ∀ (s : State) (v : Word), v.getLsbD 2 = true →
    let t := writeReg .ctrl v s
    (∀ r, t.readReg r = match r with | .id => 0x4145534D | .version => 1 | _ => 0)
    ∧ t.key = Bytes.zero 64 ∧ t.seq = .idle ∧ t.kc.valid = false ∧ t.st.valid = false ∧ t.irq = false
    ∧ (∀ b, (s.seq = .idle ∨ (∀ i, decodeWord s.cl.cmd = .ok i → ¬ Passes i s)
        ∨ ∃ i, decodeWord s.cl.cmd = .ok i
          ∧ ¬ (s.cl.dstPtr.toNat ≤ b ∧ b < s.cl.dstPtr.toNat + outLength i s)) →
      t.msgByte b = s.msgByte b)

/-- A CTRL write (R44): "exactly one of the following effects, tested in this order". SRST resets and nothing else counts;
else IRQ_EN takes bit 3; ABORT while BUSY aborts; else START while BUSY is dropped and sets BUSYERR, and START while IDLE
does what R181 says, "taken on an accepted START": it latches the operands and clears DONE, ERR, AUTHFAIL, ERRCODE and
OUT_LEN. CTRL and STATUS are the only registers that accept a write while BUSY. -/
def Obligations.ControlWrite : Prop :=
  ∀ (s : State) (v : Word),
    let s1 := { s with irqEn := v.getLsbD 3 }
    (v.getLsbD 2 = true → writeReg .ctrl v s = softReset s)
    ∧ (v.getLsbD 2 = false → v.getLsbD 1 = true → s.seq = .busy → writeReg .ctrl v s = abort s1)
    ∧ (v.getLsbD 2 = false → v.getLsbD 1 = false → v.getLsbD 0 = true → s.seq = .busy →
      writeReg .ctrl v s = { s1 with busyerr := true })
    ∧ (v.getLsbD 2 = false → v.getLsbD 0 = true → s.seq = .idle → writeReg .ctrl v s =
      { s1 with
        seq := .busy, done := false, err := false, authfail := false, errcode := .none, outLen := 0
        cl := ⟨s.cmd, s.keylen, s.srcPtr, s.srcLen, s.dstPtr, s.aadPtr, s.aadLen, s.noncePtr, s.nonceLen, s.rxtlen,
          s.tag, s.gfa, s.gfb⟩ })
    ∧ (v.getLsbD 2 = false → v.getLsbD 0 = false → (v.getLsbD 1 = false ∨ s.seq = .idle) → writeReg .ctrl v s = s1)
    ∧ ∀ r, r ≠ .ctrl → r ≠ .status → s.seq = .busy → writeReg r v s = { s with busyerr := true }

/-- An abort (R510): a command that would have failed its checks ends with that error; any other ends with ABORT, its
destination zero-filled, TAG, GFR, `ST` and `KC` as the rule says for its name, and nothing else changed. That the other
fields of an invalidated `ST` or `KC` stay is the model's choice (log 7). -/
def Obligations.AbortOutcome : Prop :=
  ∀ (s : State),
    (∀ e, decodeWord s.cl.cmd = .error e → abort s = errored s .badop)
    ∧ (∀ i c, decodeWord s.cl.cmd = .ok i → firstFailure i s = some c → abort s = errored s c)
    ∧ (∀ i, decodeWord s.cl.cmd = .ok i → Passes i s → ∃ m,
      let isKeyinit := match i with | .keyinit _ => true | _ => false
      let t : State :=
        { s with
          msg := m
          tag := if makesTag i then Bytes.zero 16 else s.tag
          gfr := if isGf i then Bytes.zero 16 else s.gfr
          st := if isStream i || isKeyinit then { s.st with valid := false } else s.st
          kc := if isKeyinit then { s.kc with valid := false } else s.kc
          outLen := 0, seq := .idle, done := true, err := true, errcode := .abort, authfail := false }
      abort s = t ∧ Stores s t s.cl.dstPtr.toNat (List.replicate (outLength i s) 0))

/-- STATUS as it reads, bit by bit (R45, R63), and CTRL (R43), and the interrupt level (R65). A STATUS write clears DONE if
bit 1 is 1 and BUSYERR if bit 4 is 1, and does nothing else, BUSY or not (R46). -/
def Obligations.StatusReadAndWritten : Prop :=
  ∀ s : State, let w := s.readReg .status
    (w.getLsbD 0 = decide (s.seq = .busy) ∧ w.getLsbD 1 = s.done ∧ w.getLsbD 2 = s.err ∧ w.getLsbD 3 = s.authfail
      ∧ w.getLsbD 4 = s.busyerr ∧ w.getLsbD 5 = s.kc.valid ∧ w.getLsbD 6 = s.st.valid ∧ w.getLsbD 7 = false)
    ∧ (w.extractLsb' 8 3).toNat = (if s.st.valid then
        match s.st.smode with | .cbc => 1 | .ctr => 2 | .ofb => 3 | .cfb1 => 4 | .cfb8 => 5 | .cfb16 => 6
      else 0)
    ∧ w.extractLsb' 11 5 = 0
    ∧ (w.extractLsb' 16 5).toNat
      = (if s.st.valid = true ∧ (s.st.smode = .ctr ∨ s.st.smode = .ofb) then s.st.pos.val else 0)
    ∧ w.extractLsb' 21 3 = 0
    ∧ (w.extractLsb' 24 8).toNat =
      (match s.errcode with
        | .none => 0 | .badop => 1 | .nokey => 2 | .keylen => 3 | .param => 4 | .state => 5 | .nonce => 6 | .len => 7
        | .range => 8 | .overlap => 9 | .abort => 10)
    ∧ s.readReg .ctrl = (if s.irqEn then 8#32 else 0#32)
    ∧ s.irq = (s.irqEn && s.done)
    ∧ ∀ v : Word, writeReg .status v s =
      { s with
        done := if v.getLsbD 1 then false else s.done
        busyerr := if v.getLsbD 4 then false else s.busyerr }

/-- While BUSY, a write to any mapped register but CTRL and STATUS is dropped and sets BUSYERR, and completes without a bus
error; a register read goes on as normal (R58). The outcome is recorded in `response`, the model's own (log 10). -/
def Obligations.BusyDropsWrites : Prop :=
  ∀ (s : State) (o : Nat) (v : Word) (r : Reg), s.seq = .busy → o < 0x10000 → o % 4 = 0 → regAt (o / 4) = some r →
    (r ≠ .ctrl → r ≠ .status →
      hostAccess (.write .w4 (s.cfg.devBase + o) v) s = { s with busyerr := true, response := some .written })
    ∧ hostAccess (.read .w4 (s.cfg.devBase + o)) s = { s with response := some (.data (s.readReg r)) }

/-- An accepted write to KEYLEN or to a word of KEY stores its value and clears `KC.valid` and `ST.valid`, whatever value it writes,
and changes nothing else (R48, R52, R57). That the other fields of the invalid `KC` and `ST` stay is the model's choice
(log 7). -/
def Obligations.KeyWritesInvalidate : Prop :=
  ∀ (s : State) (v : Word), s.seq = .idle →
    writeReg .keylen v s
      = { s with keylen := v, kc := { s.kc with valid := false }, st := { s.st with valid := false } }
    ∧ ∀ i < 16, ∃ key, writeReg (.key i) v s
        = { s with key := key, kc := { s.kc with valid := false }, st := { s.st with valid := false } }
      ∧ ∀ j < 64, key.byte j = if 4 * i ≤ j ∧ j < 4 * i + 4 then v.extractLsb' (8 * (j - 4 * i)) 8 else s.key.byte j

/-- The register space (R40, R103, R105): the map of R40, offset by offset; an access is legal only if it is 4 bytes wide, aligned, and at an offset R40 maps;
an illegal one is a bus error without effect. A read of a legal offset returns the register and has no effect. The outcome is
recorded in `response`, the model's own (log 10). -/
def Obligations.RegisterSpace : Prop :=
  ((∀ p ∈ [(0x000, Reg.id), (0x004, .version), (0x008, .ctrl), (0x00C, .status), (0x010, .cmd), (0x014, .keylen),
        (0x018, .srcPtr), (0x01C, .srcLen), (0x020, .dstPtr), (0x024, .aadPtr), (0x028, .aadLen), (0x02C, .noncePtr),
        (0x030, .nonceLen), (0x034, .rxtlen), (0x038, .outLen)], regAt (p.1 / 4) = some p.2)
    ∧ (∀ i < 16, regAt ((0x040 + 4 * i) / 4) = some (.key i))
    ∧ ∀ i < 4, regAt ((0x080 + 4 * i) / 4) = some (.tag i) ∧ regAt ((0x090 + 4 * i) / 4) = some (.gfa i)
      ∧ regAt ((0x0A0 + 4 * i) / 4) = some (.gfb i) ∧ regAt ((0x0B0 + 4 * i) / 4) = some (.gfr i))
  ∧ ∀ (s : State) (w : Width) (o : Nat) (v : Word), o < 0x10000 →
    ((w = .w4 ∧ o % 4 = 0 ∧ (o < 0x3C ∨ 0x40 ≤ o ∧ o < 0xC0)) →
      ∃ r, regAt (o / 4) = some r
        ∧ hostAccess (.read w (s.cfg.devBase + o)) s = { s with response := some (.data (s.readReg r)) }
        ∧ hostAccess (.write w (s.cfg.devBase + o) v) s = { writeReg r v s with response := some .written })
    ∧ (¬ (w = .w4 ∧ o % 4 = 0 ∧ (o < 0x3C ∨ 0x40 ≤ o ∧ o < 0xC0)) →
      hostAccess (.read w (s.cfg.devBase + o)) s = { s with response := some .busError }
        ∧ hostAccess (.write w (s.cfg.devBase + o) v) s = { s with response := some .busError })

/-- An accepted register write stores its value and changes nothing else, no other register, key context, stream, MSG byte
or STATUS bit (R47, R49, R50, R53, R54, R56; KEYLEN and KEY are `KeyWritesInvalidate`). So the operand registers read back
whole, RXTLEN its low 8 bits, and the windows word by word; KEY reads 0 (R52); a write to a read-only register changes
nothing (R41, R42, R51, R55). -/
def Obligations.RegistersReadBack : Prop :=
  ∀ (s : State) (v : Word), s.seq = .idle →
    (writeReg .cmd v s = { s with cmd := v } ∧ writeReg .srcPtr v s = { s with srcPtr := v }
      ∧ writeReg .srcLen v s = { s with srcLen := v } ∧ writeReg .dstPtr v s = { s with dstPtr := v }
      ∧ writeReg .aadPtr v s = { s with aadPtr := v } ∧ writeReg .aadLen v s = { s with aadLen := v }
      ∧ writeReg .noncePtr v s = { s with noncePtr := v } ∧ writeReg .nonceLen v s = { s with nonceLen := v }
      ∧ writeReg .rxtlen v s = { s with rxtlen := v.extractLsb' 0 8 })
    ∧ (∀ i < 4,
      let word := fun (old : Block) (j : Nat) =>
        if 4 * i ≤ j ∧ j < 4 * i + 4 then v.extractLsb' (8 * (j - 4 * i)) 8 else old.byte j
      (∃ x, writeReg (.tag i) v s = { s with tag := x } ∧ ∀ j < 16, x.byte j = word s.tag j)
      ∧ (∃ x, writeReg (.gfa i) v s = { s with gfa := x } ∧ ∀ j < 16, x.byte j = word s.gfa j)
      ∧ ∃ x, writeReg (.gfb i) v s = { s with gfb := x } ∧ ∀ j < 16, x.byte j = word s.gfb j)
    ∧ (∀ r ∈ [Reg.cmd, .keylen, .srcPtr, .srcLen, .dstPtr, .aadPtr, .aadLen, .noncePtr, .nonceLen],
      (writeReg r v s).readReg r = v)
    ∧ (writeReg .rxtlen v s).readReg .rxtlen = v &&& 0xFF#32
    ∧ (∀ i < 4, ∀ j < 4,
      (writeReg (.tag i) v s).readReg (.tag j) = (if j = i then v else s.readReg (.tag j))
      ∧ (writeReg (.gfa i) v s).readReg (.gfa j) = (if j = i then v else s.readReg (.gfa j))
      ∧ (writeReg (.gfb i) v s).readReg (.gfb j) = (if j = i then v else s.readReg (.gfb j)))
    ∧ (∀ i j, (writeReg (.key i) v s).readReg (.key j) = 0)
    ∧ (∀ i, writeReg .id v s = s ∧ writeReg .version v s = s ∧ writeReg .outLen v s = s ∧ writeReg (.gfr i) v s = s)

/-- The MSG window (R102, R104, R105): a naturally aligned access below MSG_SIZE moves bytes on little-endian lanes while IDLE, and
is a bus error that sets BUSYERR while BUSY; any other is a bus error without effect, BUSYERR included
(log 13). The outcome is recorded in `response`, the model's own (log 10). -/
def Obligations.MessageWindow : Prop :=
  ∀ (s : State) (w : Width) (a : Nat) (v : Word), a < 0x10000 →
    let n := match w with | .w1 => 1 | .w2 => 2 | .w4 => 4
    let addr := s.cfg.devBase + 0x10000 + a
    (a % n = 0 → a < s.msgSize → s.seq = .idle →
      (∃ m, hostAccess (.write w addr v) s = { s with msg := m, response := some .written }
        ∧ ∀ b, { s with msg := m }.msgByte b =
          if a ≤ b ∧ b < a + n then v.extractLsb' (8 * (b - a)) 8 else s.msgByte b)
      ∧ ∃ d : Word, hostAccess (.read w addr) s = { s with response := some (.data d) }
        ∧ ∀ j < n, d.extractLsb' (8 * j) 8 = s.msgByte (a + j))
    ∧ (a % n = 0 → a < s.msgSize → s.seq = .busy →
      hostAccess (.write w addr v) s = { s with busyerr := true, response := some .busError }
      ∧ hostAccess (.read w addr) s = { s with busyerr := true, response := some .busError })
    ∧ (¬ (a % n = 0 ∧ a < s.msgSize) →
      hostAccess (.write w addr v) s = { s with response := some .busError }
      ∧ hostAccess (.read w addr) s = { s with response := some .busError })

/-- The host cannot read a key (R52, R60, R63, R515): two states that differ only in the KEY window, in the key context but for
`KC.valid`, and in the hidden part of the stream give every read of the aperture the same answer, in
`response`, the model's own (log 10). -/
def Obligations.KeysUnreadable : Prop :=
  ∀ (s : State) (key : Bytes 64) (kc : KeyContext) (sreg ks : Block) (fresh : Bool) (w : Width) (addr : Nat),
    kc.valid = s.kc.valid →
    (hostAccess (.read w addr)
        { s with key := key, kc := kc, st := { s.st with sreg := sreg, ks := ks, fresh := fresh } }).response
      = (hostAccess (.read w addr) s).response
end

