-- ==== Sys2Proof/Laws/Bytes.lean ====
section
/-! SUPPORT. The algebra of byte strings: xor, chunks, and the integers they encode. -/

namespace Sys2Proof

theorem Bytes.ext_bytes {n : Nat} {x y : Bytes n} (h : x.bytes = y.bytes) : x = y := by
  cases x; cases y; cases h; rfl

@[simp] theorem Bytes.length_bytes {n : Nat} (x : Bytes n) : x.bytes.length = n := x.len

@[simp] theorem Bytes.zero_bytes (n : Nat) : (Bytes.zero n).bytes = List.replicate n 0 := rfl

@[simp] theorem Bytes.xor_bytes {n : Nat} (x y : Bytes n) : (x.xor y).bytes = xorBytes x.bytes y.bytes := rfl

@[simp] theorem Bytes.be_bytes (n v : Nat) : (Bytes.be n v).bytes = beBytes n v := rfl

@[simp] theorem Bytes.le_bytes (n v : Nat) : (Bytes.le n v).bytes = leBytes n v := rfl

theorem Bytes.ofList_bytes_of_length {n : Nat} {x : List Byte} (h : x.length = n) : (Bytes.ofList n x).bytes = x := by
  simp [Bytes.ofList, ← h]

theorem Bytes.ofList_bytes_of_le {n : Nat} {x : List Byte} (h : n ≤ x.length) :
    (Bytes.ofList n x).bytes = x.take n := by
  simp [Bytes.ofList, List.take_append_of_le_length h]

@[simp] theorem Bytes.ofList_self {n : Nat} (x : Bytes n) : Bytes.ofList n x.bytes = x :=
  Bytes.ext_bytes (Bytes.ofList_bytes_of_length x.len)

theorem Bytes.ofList_take (n : Nat) (x : List Byte) : Bytes.ofList n (x.take n) = Bytes.ofList n x := by
  apply Bytes.ext_bytes
  simp only [Bytes.ofList]
  rcases Nat.le_total n x.length with h | h
  · rw [List.take_append_of_le_length (by simp; omega), List.take_append_of_le_length h]; simp
  · rw [List.take_of_length_le h]

@[simp] theorem xorBytes_length (x y : List Byte) : (xorBytes x y).length = min x.length y.length := by
  simp [xorBytes]

theorem getD_xorBytes {x y : List Byte} {j : Nat} (hx : j < x.length) (hy : j < y.length) :
    (xorBytes x y).getD j 0 = x.getD j 0 ^^^ y.getD j 0 := by
  simp [xorBytes, hx, hy]

theorem xorBytes_comm (x y : List Byte) : xorBytes x y = xorBytes y x := by
  simp only [xorBytes]
  rw [List.zipWith_comm]
  congr; funext a b; exact BitVec.xor_comm b a

theorem xorBytes_assoc (x y z : List Byte) : xorBytes (xorBytes x y) z = xorBytes x (xorBytes y z) := by
  apply List.ext_getElem
  · simp [Nat.min_assoc]
  · intro j h1 h2; simp [xorBytes, BitVec.xor_assoc]

theorem xorBytes_cancel {x k : List Byte} (h : x.length ≤ k.length) : xorBytes (xorBytes x k) k = x := by
  apply List.ext_getElem
  · simp; omega
  · intro j h1 h2; simp [xorBytes]

theorem xorBytes_zero {x : List Byte} {n : Nat} (h : x.length ≤ n) : xorBytes x (List.replicate n 0) = x := by
  apply List.ext_getElem
  · simp; omega
  · intro j h1 h2; simp [xorBytes]

theorem Bytes.xor_comm {n : Nat} (x y : Bytes n) : x.xor y = y.xor x := Bytes.ext_bytes (xorBytes_comm _ _)

theorem Bytes.xor_assoc {n : Nat} (x y z : Bytes n) : (x.xor y).xor z = x.xor (y.xor z) :=
  Bytes.ext_bytes (xorBytes_assoc _ _ _)

@[simp] theorem Bytes.xor_cancel_right {n : Nat} (x k : Bytes n) : (x.xor k).xor k = x :=
  Bytes.ext_bytes (xorBytes_cancel (by simp))

@[simp] theorem Bytes.xor_cancel_left {n : Nat} (x k : Bytes n) : k.xor (k.xor x) = x := by
  rw [Bytes.xor_comm k (k.xor x), Bytes.xor_comm k x, Bytes.xor_cancel_right]

@[simp] theorem Bytes.xor_zero {n : Nat} (x : Bytes n) : x.xor (Bytes.zero n) = x :=
  Bytes.ext_bytes (xorBytes_zero (by simp))

@[simp] theorem Bytes.zero_xor {n : Nat} (x : Bytes n) : (Bytes.zero n).xor x = x := by
  rw [Bytes.xor_comm, Bytes.xor_zero]

@[simp] theorem Bytes.xor_self {n : Nat} (x : Bytes n) : x.xor x = Bytes.zero n := by
  have := Bytes.xor_cancel_right (Bytes.zero n) x
  rwa [Bytes.zero_xor] at this

/-! ## Chunks -/

/-- Chunk `j` of `n` bytes. -/
def chunkAt (n : Nat) (x : List Byte) (j : Nat) : Bytes n := Bytes.ofList n ((x.drop (n * j)).take n)

theorem toChunks_eq (n m : Nat) (x : List Byte) : toChunks n m x = (List.range m).map (chunkAt n x) := by
  induction m generalizing x with
  | zero => rfl
  | succ m ih =>
    rw [toChunks, ih, List.range_succ_eq_map, List.map_cons, List.map_map]
    congr 1
    apply List.map_congr_left; intro j _
    simp only [chunkAt, List.drop_drop, Function.comp, Nat.succ_eq_add_one, Nat.mul_succ, Nat.add_comm n]

theorem toBlocks_eq (x : List Byte) : toBlocks x = (List.range (x.length / 16)).map (Safety.blockAt x) :=
  toChunks_eq 16 _ x

@[simp] theorem toChunks_length (n m : Nat) (x : List Byte) : (toChunks n m x).length = m := by
  simp [toChunks_eq]

@[simp] theorem toBlocks_length (x : List Byte) : (toBlocks x).length = x.length / 16 := by simp [toBlocks]

theorem joinChunks_length {n : Nat} (bs : List (Bytes n)) : (joinChunks bs).length = n * bs.length := by
  induction bs with
  | nil => rfl
  | cons b bs ih => simp [joinChunks, List.flatMap_cons] at ih ⊢; rw [ih]; ring

@[simp] theorem joinChunks_nil {n : Nat} : joinChunks ([] : List (Bytes n)) = [] := rfl

@[simp] theorem joinChunks_cons {n : Nat} (b : Bytes n) (bs : List (Bytes n)) :
    joinChunks (b :: bs) = b.bytes ++ joinChunks bs := rfl

theorem joinChunks_append {n : Nat} (bs cs : List (Bytes n)) :
    joinChunks (bs ++ cs) = joinChunks bs ++ joinChunks cs := by simp [joinChunks]

theorem joinChunks_toChunks {n m : Nat} {x : List Byte} (h : n * m ≤ x.length) :
    joinChunks (toChunks n m x) = x.take (n * m) := by
  induction m generalizing x with
  | zero => simp [toChunks]
  | succ m ih =>
    have h1 : n ≤ x.length := by rw [Nat.mul_succ] at h; omega
    rw [toChunks, joinChunks_cons, ih (by simp; rw [Nat.mul_succ] at h; omega),
      Bytes.ofList_bytes_of_length (by simp [h1]), Nat.mul_succ, Nat.add_comm (n * m) n, List.take_add]

theorem joinChunks_toBlocks {x : List Byte} (h : x.length % 16 = 0) : joinChunks (toBlocks x) = x := by
  rw [toBlocks, joinChunks_toChunks (by omega), List.take_of_length_le (by omega)]

theorem toChunks_joinChunks_append {n : Nat} (bs : List (Bytes n)) (y : List Byte) :
    toChunks n bs.length (joinChunks bs ++ y) = bs := by
  induction bs with
  | nil => rfl
  | cons b bs ih =>
    simp only [List.length_cons, toChunks, joinChunks_cons, List.append_assoc]
    rw [List.take_left' b.len, List.drop_left' b.len, ih, Bytes.ofList_self]

theorem toChunks_joinChunks {n : Nat} (bs : List (Bytes n)) : toChunks n bs.length (joinChunks bs) = bs := by
  simpa using toChunks_joinChunks_append bs []

theorem toBlocks_joinChunks (bs : List Block) : toBlocks (joinChunks bs) = bs := by
  rw [toBlocks, joinChunks_length, Nat.mul_div_cancel_left _ (by decide), toChunks_joinChunks]

theorem toChunks_append {n m k : Nat} {x y : List Byte} (h : x.length = n * m) :
    toChunks n (m + k) (x ++ y) = toChunks n m x ++ toChunks n k y := by
  induction m generalizing x with
  | zero => simp [List.length_eq_zero_iff.1 (by simpa using h), toChunks]
  | succ m ih =>
    have h1 : n ≤ x.length := by rw [h, Nat.mul_succ]; omega
    rw [Nat.succ_add, toChunks, toChunks, List.take_append_of_le_length h1, List.drop_append_of_le_length h1,
      ih (by simp [h, Nat.mul_succ])]
    rfl

theorem toBlocks_append {x y : List Byte} (h : x.length % 16 = 0) : toBlocks (x ++ y) = toBlocks x ++ toBlocks y := by
  have h1 : (x ++ y).length / 16 = x.length / 16 + y.length / 16 := by simp; omega
  rw [toBlocks, h1, toChunks_append (by omega)]; rfl

theorem joinChunks_map_range {n : Nat} (m : Nat) (g : Nat → Bytes n) :
    joinChunks ((List.range m).map g) = (List.range m).flatMap fun j => (g j).bytes := by
  simp [joinChunks, List.flatMap_map]

theorem blocks_eq (m : Nat) (g : Nat → Block) : Safety.blocks m g = joinChunks ((List.range m).map g) :=
  (joinChunks_map_range m g).symm

theorem blocks_length (m : Nat) (g : Nat → Block) : (Safety.blocks m g).length = 16 * m := by
  rw [blocks_eq, joinChunks_length]; simp

/-! ## Integers -/

theorem intBE_eq (x : List Byte) : intBE x = intLE x.reverse := by
  have : ∀ (x : List Byte) (a : Nat), x.foldl (fun acc b => acc * 256 + b.toNat) a
      = intLE x.reverse + 256 ^ x.length * a := by
    intro x
    induction x with
    | nil => intro a; simp [intLE]
    | cons b x ih =>
      intro a
      have hl : ∀ (y : List Byte) (c : Byte), intLE (y ++ [c]) = intLE y + 256 ^ y.length * c.toNat := by
        intro y c
        induction y with
        | nil => simp [intLE]
        | cons d y ih => simp only [List.cons_append, intLE, ih, List.length_cons]; ring
      rw [List.foldl_cons, ih, List.reverse_cons, hl, List.length_reverse, List.length_cons]; ring
  simpa [intBE] using this x 0

theorem leBytes_eq (n v : Nat) : leBytes n v = (beBytes n v).reverse := by
  induction n generalizing v with
  | zero => rfl
  | succ n ih => simp [leBytes, beBytes, ih]

theorem beBytes_eq (n v : Nat) : beBytes n v = (leBytes n v).reverse := by simp [leBytes_eq]

theorem intLE_lt (x : List Byte) : intLE x < 2 ^ (8 * x.length) := by
  induction x with
  | nil => decide
  | cons b x ih =>
    have := b.isLt
    rw [List.length_cons, Nat.mul_succ, Nat.pow_add]
    simp only [intLE]
    omega

theorem intBE_lt (x : List Byte) : intBE x < 2 ^ (8 * x.length) := by
  rw [intBE_eq]; simpa using intLE_lt x.reverse

theorem intLE_leBytes (n v : Nat) : intLE (leBytes n v) = v % 2 ^ (8 * n) := by
  induction n generalizing v with
  | zero => simp [leBytes, intLE, Nat.mod_one]
  | succ n ih =>
    have h := Nat.mod_mul (x := v) (a := 2 ^ 8) (b := 2 ^ (8 * n))
    rw [leBytes, intLE, ih, Nat.mul_succ, Nat.add_comm (8 * n) 8, Nat.pow_add, h,
      BitVec.toNat_ofNat]; rfl

theorem intBE_beBytes (n v : Nat) : intBE (beBytes n v) = v % 2 ^ (8 * n) := by
  rw [intBE_eq, ← leBytes_eq, intLE_leBytes]

theorem leBytes_intLE (x : List Byte) : leBytes x.length (intLE x) = x := by
  induction x with
  | nil => rfl
  | cons b x ih =>
    have := b.isLt
    have h1 : (b.toNat + 256 * intLE x) / 256 = intLE x := by omega
    simp only [List.length_cons, leBytes, intLE, h1, ih]
    congr 1
    apply BitVec.eq_of_toNat_eq; simp; omega

theorem beBytes_intBE (x : List Byte) : beBytes x.length (intBE x) = x := by
  have h := leBytes_intLE x.reverse
  rw [List.length_reverse] at h
  rw [intBE_eq, beBytes_eq, h, List.reverse_reverse]

theorem leBytes_mod (n v : Nat) : leBytes n (v % 2 ^ (8 * n)) = leBytes n v := by
  have h := leBytes_intLE (leBytes n v)
  rwa [leBytes_length, intLE_leBytes] at h

theorem beBytes_mod (n v : Nat) : beBytes n (v % 2 ^ (8 * n)) = beBytes n v := by
  rw [beBytes_eq, leBytes_mod, ← beBytes_eq]

theorem Bytes.be_mod (n v : Nat) : Bytes.be n (v % 2 ^ (8 * n)) = Bytes.be n v :=
  Bytes.ext_bytes (beBytes_mod n v)

@[simp] theorem Bytes.be_intBE {n : Nat} (x : Bytes n) : Bytes.be n (intBE x.bytes) = x := by
  obtain ⟨x, rfl⟩ := x; exact Bytes.ext_bytes (beBytes_intBE x)

@[simp] theorem Bytes.le_intLE {n : Nat} (x : Bytes n) : Bytes.le n (intLE x.bytes) = x := by
  obtain ⟨x, rfl⟩ := x; exact Bytes.ext_bytes (leBytes_intLE x)

theorem intBE_be (n v : Nat) : intBE (Bytes.be n v).bytes = v % 2 ^ (8 * n) := intBE_beBytes n v

theorem intLE_le (n v : Nat) : intLE (Bytes.le n v).bytes = v % 2 ^ (8 * n) := intLE_leBytes n v

theorem Bytes.intBE_lt {n : Nat} (x : Bytes n) : intBE x.bytes < 2 ^ (8 * n) := by
  have := Sys2Proof.intBE_lt x.bytes; rwa [x.len] at this

theorem Bytes.intLE_lt {n : Nat} (x : Bytes n) : intLE x.bytes < 2 ^ (8 * n) := by
  have := Sys2Proof.intLE_lt x.bytes; rwa [x.len] at this

theorem Bytes.intBE_inj {n : Nat} {x y : Bytes n} (h : intBE x.bytes = intBE y.bytes) : x = y := by
  rw [← Bytes.be_intBE x, h, Bytes.be_intBE]

theorem Bytes.intLE_inj {n : Nat} {x y : Bytes n} (h : intLE x.bytes = intLE y.bytes) : x = y := by
  rw [← Bytes.le_intLE x, h, Bytes.le_intLE]

/-- Byte `i` of a little-endian encoding. -/
theorem getD_leBytes {n i : Nat} (v : Nat) (h : i < n) :
    (leBytes n v).getD i 0 = BitVec.ofNat 8 (v / 2 ^ (8 * i)) := by
  induction n generalizing v i with
  | zero => omega
  | succ n ih =>
    cases i with
    | zero => simp [leBytes]
    | succ i =>
      simp only [leBytes, List.getD_cons_succ]
      rw [ih _ (by omega), Nat.div_div_eq_div_mul, Nat.mul_succ, Nat.add_comm (8 * i) 8, Nat.pow_add]

/-- Byte `i` of a big-endian encoding. -/
theorem getD_beBytes {n i : Nat} (v : Nat) (h : i < n) :
    (beBytes n v).getD i 0 = BitVec.ofNat 8 (v / 2 ^ (8 * (n - 1 - i))) := by
  rw [← getD_leBytes (n := n) v (by omega), beBytes_eq]
  have : i < (leBytes n v).length := by rw [leBytes_length]; omega
  simp only [List.getD_eq_getElem?_getD, List.getElem?_reverse this, leBytes_length]

theorem testBit_intLE (x : List Byte) (k : Nat) :
    (intLE x).testBit k = (x.getD (k / 8) 0).getLsbD (k % 8) := by
  induction x generalizing k with
  | nil => simp [intLE]
  | cons b x ih =>
    have hb := b.isLt
    have e : intLE (b :: x) = 2 ^ 8 * intLE x + b.toNat := by simp only [intLE]; omega
    rw [e, Nat.testBit_two_pow_mul_add _ hb]
    by_cases h : k < 8
    · have h0 : k / 8 = 0 := by omega
      have h1 : k % 8 = k := by omega
      rw [if_pos h, h0, h1]; rfl
    · obtain ⟨q, rfl⟩ : ∃ q, k = q + 8 := ⟨k - 8, by omega⟩
      have h0 : (q + 8) / 8 = q / 8 + 1 := by omega
      have h1 : (q + 8) % 8 = q % 8 := by omega
      rw [if_neg h, Nat.add_sub_cancel, ih, h0, h1]; rfl

/-- Xor of equally long strings is xor of their integers. -/
theorem intLE_xorBytes {x y : List Byte} (h : x.length = y.length) :
    intLE (xorBytes x y) = intLE x ^^^ intLE y := by
  apply Nat.eq_of_testBit_eq; intro k
  rw [Nat.testBit_xor, testBit_intLE, testBit_intLE, testBit_intLE]
  by_cases hk : k / 8 < x.length
  · rw [getD_xorBytes hk (by omega), BitVec.getLsbD_xor]
  · simp [show x.length ≤ k / 8 by omega, show y.length ≤ k / 8 by omega]

theorem reverse_xorBytes {x y : List Byte} (h : x.length = y.length) :
    (xorBytes x y).reverse = xorBytes x.reverse y.reverse := by
  apply List.ext_getElem
  · simp
  · intro j h1 h2; simp [xorBytes, h]

theorem intBE_xorBytes {x y : List Byte} (h : x.length = y.length) :
    intBE (xorBytes x y) = intBE x ^^^ intBE y := by
  rw [intBE_eq, reverse_xorBytes h, intLE_xorBytes (by simpa using h), ← intBE_eq, ← intBE_eq]

theorem Bytes.intLE_xor {n : Nat} (x y : Bytes n) : intLE (x.xor y).bytes = intLE x.bytes ^^^ intLE y.bytes :=
  intLE_xorBytes (by simp)

theorem Bytes.intBE_xor {n : Nat} (x y : Bytes n) : intBE (x.xor y).bytes = intBE x.bytes ^^^ intBE y.bytes :=
  intBE_xorBytes (by simp)

/-! ## The comparison -/

theorem foldl_or_eq_zero (z : List Byte) (a : Byte) :
    z.foldl (· ||| ·) a = 0 ↔ a = 0 ∧ ∀ b ∈ z, b = 0 := by
  induction z generalizing a with
  | nil => simp
  | cons c z ih =>
    rw [List.foldl_cons, ih]
    have : a ||| c = 0#8 ↔ a = 0#8 ∧ c = 0#8 := BitVec.or_eq_zero_iff
    simp [this, and_assoc]

/-- `CTEq` compares the first `t` bytes (R15). -/
theorem ctEq_iff {a b : List Byte} {t : Nat} (ha : t ≤ a.length) (hb : t ≤ b.length) :
    ctEq a b t = true ↔ a.take t = b.take t := by
  have hl : (a.take t).length = (b.take t).length := by simp [ha, hb]
  simp only [ctEq, beq_iff_eq, foldl_or_eq_zero, true_and]
  constructor
  · intro h
    apply List.ext_getElem hl
    intro j h1 h2
    have := h ((a.take t)[j] ^^^ (b.take t)[j]) (List.mem_iff_getElem.2 ⟨j, by simp at h1 h2 ⊢; omega, by simp⟩)
    exact BitVec.xor_eq_zero_iff.1 this
  · intro h b' hb'
    rw [h] at hb'
    obtain ⟨j, hj, rfl⟩ := List.mem_iff_getElem.1 hb'
    simp

end Sys2Proof
end

