-- ==== Sys2Proof/Laws/AeadInputs.lean ====
section
/-! SUPPORT. The strings and blocks CCM and OCB build from their operands, by index and by bit: what the machine
builds by concatenation and integer arithmetic is what `Safety` says byte by byte and bit by bit. -/

namespace Sys2Proof

open Sys2Proof.Safety

/-! ## Strings by index -/

/-- A string of known length is given by its bytes. -/
theorem eq_map_range {n : Nat} {x : List Byte} (h : x.length = n) {g : Nat → Byte} (hg : ∀ j < n, x.getD j 0 = g j) :
    x = (List.range n).map g := by
  subst h
  apply List.ext_getElem
  · simp
  · intro j h1 h2
    rw [List.getElem_map, List.getElem_range, ← hg j h1, List.getD_eq_getElem _ _ h1]

theorem getD_append_lt {x y : List Byte} {j : Nat} (h : j < x.length) : (x ++ y).getD j 0 = x.getD j 0 :=
  List.getD_append _ _ _ _ h

theorem getD_append_ge {x y : List Byte} {j : Nat} (h : x.length ≤ j) : (x ++ y).getD j 0 = y.getD (j - x.length) 0 :=
  List.getD_append_right _ _ _ _ h

theorem zpad16_length (x : List Byte) : (zpad16 x).length = paddedLength x.length := by
  simp only [zpad16, List.length_append, List.length_replicate, paddedLength]
  omega

/-- Zero padding does not show in a read beyond the end. -/
theorem getD_zpad16 (x : List Byte) (j : Nat) : (zpad16 x).getD j 0 = x.getD j 0 := by
  unfold zpad16
  by_cases h : j < x.length
  · exact getD_append_lt h
  · rw [getD_append_ge (by omega)]
    simp only [List.getD_eq_getElem?_getD, List.getElem?_replicate, List.getElem?_eq_none (show x.length ≤ j by omega)]
    split <;> rfl

theorem getD_beByte {n k : Nat} (v : Nat) (h : k < n) : (beBytes n v).getD k 0 = beByte n v k := getD_beBytes v h

/-! ## CCM -/

theorem ccmAenc_length (a : Nat) : (ccmAenc a).length = aencLength a := by
  unfold ccmAenc aencLength
  split
  · rfl
  · split <;> simp [beBytes_length]

theorem getD_ccmAenc {a k : Nat} (h : k < aencLength a) : (ccmAenc a).getD k 0 = aencByte a k := by
  unfold aencLength at h
  unfold ccmAenc aencByte
  split at h
  · omega
  · rename_i h0
    rw [if_neg h0]
    split at h
    · rename_i h1
      rw [if_pos h1, if_pos h1, getD_beByte _ h]
    · rename_i h1
      rw [if_neg h1, if_neg h1]
      match k, h with
      | 0, _ => rfl
      | 1, _ => rfl
      | k + 2, h => exact getD_beByte a (by omega)

theorem ccmFlags_eq {t L a : Nat} (ht : 4 ≤ t ∧ t ≤ 16) (hL : 2 ≤ L ∧ L ≤ 8) :
    ccmFlags t L a = 0#1 ++ BitVec.ofBool (decide (0 < a)) ++ BitVec.ofNat 3 ((t - 2) / 2) ++ BitVec.ofNat 3 (L - 1) := by
  obtain ⟨u, rfl⟩ : ∃ u, t = u + 4 := ⟨t - 4, by omega⟩
  obtain ⟨M, rfl⟩ : ∃ M, L = M + 2 := ⟨L - 2, by omega⟩
  have hu : u < 13 := by omega
  have hM : M < 7 := by omega
  unfold ccmFlags
  by_cases ha : 0 < a
  · simp only [ha, if_true, decide_true]
    clear ht hL ha
    revert M; revert u; decide
  · simp only [ha, if_false, decide_false]
    clear ht hL ha
    revert M; revert u; decide

/-- A string `f ‖ N ‖ be_L(v)` with `|N| = 15 − L`, byte by byte: the shape of `B0` and of `Ctr_i`. -/
theorem getD_framed {L k : Nat} {f : Byte} {nonce : List Byte} (v : Nat) (hn : nonce.length = 15 - L)
    (hL : 2 ≤ L ∧ L ≤ 8) (hk : k < 16) :
    ([f] ++ nonce ++ beBytes L v).getD k 0
      = if k = 0 then f else if k < 16 - L then nonce.getD (k - 1) 0 else beByte L v (k - (16 - L)) := by
  match k with
  | 0 => rfl
  | k + 1 =>
    rw [List.append_assoc, List.singleton_append, List.getD_cons_succ, if_neg (by omega)]
    by_cases h : k < nonce.length
    · rw [getD_append_lt h, if_pos (by omega), Nat.add_sub_cancel]
    · rw [getD_append_ge (by omega), if_neg (by omega), hn, getD_beByte _ (by omega)]
      congr 1; omega

theorem ccmCtr_eq {L : Nat} {nonce : List Byte} (i : Nat) (hn : nonce.length = 15 - L) (hL : 2 ≤ L ∧ L ≤ 8) :
    ccmCtr L nonce i = ccmCounter L nonce i := by
  have hl : ([BitVec.ofNat 8 (L - 1)] ++ nonce ++ beBytes L i).length = 16 := by
    simp [beBytes_length, hn]; omega
  apply Bytes.ext_bytes
  rw [ccmCtr, Bytes.ofList_bytes_of_length hl]
  exact eq_map_range hl fun k hk => getD_framed i hn hL hk

theorem ccmFormat_eq {t L : Nat} {nonce : List Byte} (a pl : List Byte) (ht : 4 ≤ t ∧ t ≤ 16) (hL : 2 ≤ L ∧ L ≤ 8)
    (hn : nonce.length = 15 - L) : ccmFormat t L nonce a pl = ccmInput t L nonce a pl := by
  have hb : ([ccmFlags t L a.length] ++ nonce ++ beBytes L pl.length).length = 16 := by
    simp [beBytes_length, hn]; omega
  have ha : (zpad16 (ccmAenc a.length ++ a)).length = paddedLength (aencLength a.length + a.length) := by
    rw [zpad16_length, List.length_append, ccmAenc_length]
  have hm : aencLength a.length ≤ paddedLength (aencLength a.length + a.length) := by unfold paddedLength; omega
  apply eq_map_range
  · simp only [ccmFormat, List.length_append] at hb ⊢
    rw [hb, ha, zpad16_length]
  · intro j hj
    rw [ccmFormat]
    by_cases h1 : j < 16
    · rw [List.append_assoc, getD_append_lt (by omega), getD_framed _ hn hL h1, if_pos h1, ccmB0Byte, ccmFlags_eq ht hL]
    · rw [if_neg h1]
      by_cases h2 : j < 16 + paddedLength (aencLength a.length + a.length)
      · rw [getD_append_lt (by rw [List.length_append, hb, ha]; exact h2), getD_append_ge (by omega), hb, getD_zpad16]
        by_cases h3 : j < 16 + aencLength a.length
        · rw [if_pos h3, getD_append_lt (by rw [ccmAenc_length]; omega), getD_ccmAenc (by omega)]
        · rw [if_neg h3, if_pos h2, getD_append_ge (by rw [ccmAenc_length]; omega), ccmAenc_length]
      · rw [if_neg (by omega), if_neg h2, getD_append_ge (by rw [List.length_append, hb, ha]; omega), List.length_append,
          hb, ha, getD_zpad16]
        congr 1; omega

/-! ## Bits of strings and blocks -/

theorem bitAt_append_lt {x y : List Byte} {i : Nat} (h : i < 8 * x.length) : bitAt (x ++ y) i = bitAt x i := by
  rw [bitAt, getD_append_lt (by omega)]; rfl

theorem bitAt_append_ge {x y : List Byte} {i : Nat} (h : 8 * x.length ≤ i) :
    bitAt (x ++ y) i = bitAt y (i - 8 * x.length) := by
  rw [bitAt, bitAt, getD_append_ge (by omega), show (i - 8 * x.length) / 8 = i / 8 - x.length by omega,
    show (i - 8 * x.length) % 8 = i % 8 by omega]

theorem bitAt_xorBytes {x y : List Byte} {i : Nat} (hx : i < 8 * x.length) (hy : i < 8 * y.length) :
    bitAt (xorBytes x y) i = (bitAt x i ^^ bitAt y i) := by
  rw [bitAt, getD_xorBytes (by omega) (by omega), BitVec.getLsbD_xor]; rfl

/-- Bit `k` of the integer a string writes. -/
theorem testBit_intBE {x : List Byte} {k : Nat} (h : k < 8 * x.length) :
    (intBE x).testBit k = bitAt x (8 * x.length - 1 - k) := by
  rw [intBE_eq, testBit_intLE, bitAt, List.getD_eq_getElem?_getD, List.getElem?_reverse (by omega),
    ← List.getD_eq_getElem?_getD, show x.length - 1 - k / 8 = (8 * x.length - 1 - k) / 8 by omega,
    show 7 - (8 * x.length - 1 - k) % 8 = k % 8 by omega]

/-- Bit `i` of an integer's encoding. -/
theorem bitAt_beBytes {n i : Nat} (v : Nat) (h : i < 8 * n) : bitAt (beBytes n v) i = v.testBit (8 * n - 1 - i) := by
  have := testBit_intBE (x := beBytes n v) (k := 8 * n - 1 - i) (by rw [beBytes_length]; omega)
  rw [beBytes_length, show 8 * n - 1 - (8 * n - 1 - i) = i by omega] at this
  rw [← this, intBE_beBytes, Nat.testBit_mod_two_pow]
  simp; omega

/-- Two blocks with the same bits are the same. -/
theorem Block.ext_bits {x y : Block} (h : ∀ i < 128, bitAt x.bytes i = bitAt y.bytes i) : x = y := by
  apply Bytes.intBE_inj
  apply Nat.eq_of_testBit_eq
  intro k
  by_cases hk : k < 128
  · rw [testBit_intBE (by rw [x.len]; omega), testBit_intBE (by rw [y.len]; omega), x.len, y.len]
    exact h _ (by omega)
  · have hx := Nat.lt_of_lt_of_le (Bytes.intBE_lt x) (Nat.pow_le_pow_right (n := 2) (by omega) (show 8 * 16 ≤ k by omega))
    have hy := Nat.lt_of_lt_of_le (Bytes.intBE_lt y) (Nat.pow_le_pow_right (n := 2) (by omega) (show 8 * 16 ≤ k by omega))
    rw [Nat.testBit_lt_two_pow hx, Nat.testBit_lt_two_pow hy]

theorem getLsbD_byteOfBits (b : Nat → Bool) {j : Nat} (h : j < 8) : (byteOfBits b).getLsbD (7 - j) = b j := by
  rw [byteOfBits, BitVec.getLsbD_ofFnBE, dif_pos (by omega)]
  congr 1
  simp [Fin.rev]
  omega

theorem bitAt_blockOfBits (b : Nat → Bool) {i : Nat} (h : i < 128) : bitAt (blockOfBits b).bytes i = b i := by
  have : (blockOfBits b).bytes.getD (i / 8) 0 = byteOfBits fun r => b (8 * (i / 8) + r) := by
    simp [blockOfBits, List.getD_eq_getElem?_getD, show i / 8 < 16 by omega]
  rw [bitAt, this, getLsbD_byteOfBits _ (by omega)]
  congr 1; omega

theorem bitAt_eq_false {x : List Byte} {i : Nat} (h : 8 * x.length ≤ i) : bitAt x i = false := by
  simp [bitAt, List.getD_eq_getElem?_getD, show x.length ≤ i / 8 by omega]

/-! ## OCB -/

theorem ocbNonce_bit {t : Nat} {nonce : List Byte} (hn : 1 ≤ nonce.length ∧ nonce.length ≤ 15) {i : Nat} (h : i < 128) :
    bitAt (Bytes.be 16 (ocbNonceInt t nonce)).bytes i = ocbNonceBit t nonce i := by
  rw [Bytes.be_bytes, bitAt_beBytes _ h, ocbNonceInt, Nat.testBit_or, Nat.testBit_or, Nat.testBit_shiftLeft,
    Nat.testBit_shiftLeft, ocbNonceBit]
  have hlt := intBE_lt nonce
  have hN : (intBE nonce).testBit (8 * 16 - 1 - i)
      = (decide (128 - 8 * nonce.length ≤ i) && bitAt nonce (i - (128 - 8 * nonce.length))) := by
    by_cases hk : 128 - 8 * nonce.length ≤ i
    · rw [testBit_intBE (by omega), decide_eq_true hk, Bool.true_and]
      congr 1; omega
    · rw [decide_eq_false hk, Bool.false_and]
      exact Nat.testBit_lt_two_pow (Nat.lt_of_lt_of_le hlt (Nat.pow_le_pow_right (by omega) (by omega)))
  have h1 : ∀ m, (1 : Nat).testBit m = decide (m = 0) := by intro m; cases m <;> simp [Nat.testBit_succ]
  rw [hN, h1]
  by_cases h7 : i < 7
  · rw [if_pos h7, show 8 * 16 - 1 - i - 121 = 6 - i by omega]
    simp [show 121 ≤ 8 * 16 - 1 - i by omega, show ¬ 8 * 16 - 1 - i - 8 * nonce.length = 0 by omega,
      show ¬ 128 - 8 * nonce.length ≤ i by omega]
  · rw [if_neg h7, decide_eq_false (show ¬ 8 * 16 - 1 - i ≥ 121 by omega)]
    by_cases hs : i < 128 - 8 * nonce.length
    · rw [if_pos hs, decide_eq_false (show ¬ 128 - 8 * nonce.length ≤ i by omega),
        decide_eq_true (show 8 * 16 - 1 - i ≥ 8 * nonce.length by omega)]
      simp only [Bool.false_and, Bool.true_and, Bool.false_or, Bool.or_false]
      exact decide_eq_decide.2 (by omega)
    · rw [if_neg hs, decide_eq_true (show 128 - 8 * nonce.length ≤ i by omega),
        decide_eq_false (show ¬ 8 * 16 - 1 - i ≥ 8 * nonce.length by omega)]
      simp

/-- A block with its last six bits cleared. -/
theorem bitAt_cleared (n : Block) {i : Nat} (h : i < 128) :
    bitAt (n.bytes.take 15 ++ [n.byte 15 &&& 0xC0]) i = (decide (i < 122) && bitAt n.bytes i) := by
  have hl : (n.bytes.take 15).length = 15 := by simp
  by_cases hi : i < 120
  · rw [bitAt_append_lt (by omega), decide_eq_true (by omega), Bool.true_and, bitAt, bitAt,
      List.getD_eq_getElem?_getD, List.getElem?_take_of_lt (by omega), ← List.getD_eq_getElem?_getD]
  · obtain ⟨j, rfl⟩ : ∃ j, i = 120 + j := ⟨i - 120, by omega⟩
    have hj : j < 8 := by omega
    have hm : ∀ j < 8, (0xC0 : Byte).getLsbD (7 - j) = decide (j < 2) := by decide
    rw [bitAt_append_ge (by omega), bitAt, bitAt, hl, show 120 + j - 8 * 15 = j by omega, show j / 8 = 0 by omega,
      show (120 + j) / 8 = 15 by omega, show (120 + j) % 8 = j by omega, show j % 8 = j by omega, List.getD_cons_zero,
      BitVec.getLsbD_and, hm j hj, Bool.and_comm,
      show decide (120 + j < 122) = decide (j < 2) from decide_eq_decide.2 (by omega)]
    rfl

/-- The bits of `Stretch`. -/
theorem bitAt_stretch (k : Block) {i : Nat} (h : i < 192) :
    bitAt (k.bytes ++ xorBytes (k.bytes.take 8) ((k.bytes.drop 1).take 8)) i = ocbStretchBit k i := by
  unfold ocbStretchBit
  have hk := k.len
  split
  · exact bitAt_append_lt (by omega)
  · rw [bitAt_append_ge (by omega), hk, bitAt_xorBytes (by simp; omega) (by simp; omega)]
    have h1 : bitAt (k.bytes.take 8) (i - 8 * 16) = bitAt k.bytes (i - 128) := by
      rw [bitAt, bitAt, List.getD_eq_getElem?_getD, List.getElem?_take_of_lt (by omega), ← List.getD_eq_getElem?_getD]
    have h2 : bitAt ((k.bytes.drop 1).take 8) (i - 8 * 16) = bitAt k.bytes (i - 120) := by
      rw [bitAt, bitAt, List.getD_eq_getElem?_getD, List.getElem?_take_of_lt (by omega), List.getElem?_drop,
        ← List.getD_eq_getElem?_getD, show 1 + (i - 8 * 16) / 8 = (i - 120) / 8 by omega,
        show (i - 8 * 16) % 8 = (i - 120) % 8 by omega]
    rw [h1, h2]

theorem ocbOffset0_eq (e : Block → Block) (t : Nat) {nonce : List Byte} (hn : 1 ≤ nonce.length ∧ nonce.length ≤ 15) :
    ocbOffset0 e t nonce = ocbStartOffset e t nonce := by
  have hblk : Bytes.be 16 (ocbNonceInt t nonce) = blockOfBits (ocbNonceBit t nonce) :=
    Block.ext_bits fun i hi => by rw [ocbNonce_bit hn hi, bitAt_blockOfBits _ hi]
  have hin : Bytes.ofList 16 ((Bytes.be 16 (ocbNonceInt t nonce)).bytes.take 15
        ++ [(Bytes.be 16 (ocbNonceInt t nonce)).byte 15 &&& 0xC0])
      = blockOfBits fun i => decide (i < 122) && ocbNonceBit t nonce i :=
    Block.ext_bits fun i hi => by
      rw [Bytes.ofList_bytes_of_length (by simp [beBytes_length]), bitAt_cleared _ hi, bitAt_blockOfBits _ hi,
        ocbNonce_bit hn hi]
  apply Block.ext_bits
  intro i hi
  have hb : ocbBottom t nonce < 64 := Nat.mod_lt _ (by decide)
  rw [ocbStartOffset, bitAt_blockOfBits _ hi, ocbOffset0]
  rw [hin, hblk]
  change bitAt (beBytes 16 (intBE ((ocbKtop e t nonce).bytes
      ++ xorBytes ((ocbKtop e t nonce).bytes.take 8) (((ocbKtop e t nonce).bytes.drop 1).take 8))
      >>> (64 - ocbBottom t nonce))) i = _
  have hl : ((ocbKtop e t nonce).bytes
      ++ xorBytes ((ocbKtop e t nonce).bytes.take 8) (((ocbKtop e t nonce).bytes.drop 1).take 8)).length = 24 := by
    simp
  rw [bitAt_beBytes _ hi, Nat.testBit_shiftRight, testBit_intBE (by omega), hl,
    show 8 * 24 - 1 - (64 - ocbBottom t nonce + (8 * 16 - 1 - i)) = ocbBottom t nonce + i by omega]
  exact bitAt_stretch _ (by omega)

end Sys2Proof
end

