-- ==== Sys2Proof/Laws/Modes.lean ====
section
/-! SUPPORT. The loops of the modes, block by block: what each loop computes at index `j`, and how long its output is. -/

namespace Sys2Proof

open Sys2Proof.Machine Sys2Proof.Safety

/-! ## Blocks of a string -/

theorem blockAt_append_left {x y : List Byte} {j : Nat} (h : 16 * (j + 1) ≤ x.length) :
    blockAt (x ++ y) j = blockAt x j := by
  simp only [blockAt]
  rw [List.drop_append_of_le_length (by omega), List.take_append_of_le_length (by simp; omega)]

theorem blockAt_append_right {x y : List Byte} {m : Nat} (h : x.length = 16 * m) (j : Nat) :
    blockAt (x ++ y) (m + j) = blockAt y j := by
  simp only [blockAt]
  rw [show 16 * (m + j) = x.length + 16 * j by omega, ← List.drop_drop, List.drop_left]

theorem blockAt_take {x : List Byte} {j n : Nat} (h : 16 * (j + 1) ≤ n) : blockAt (x.take n) j = blockAt x j := by
  simp only [blockAt, List.drop_take, List.take_take]
  rw [Nat.min_eq_left (by omega)]

theorem blockAt_bytes {x : List Byte} {j : Nat} (h : 16 * (j + 1) ≤ x.length) :
    (blockAt x j).bytes = (x.drop (16 * j)).take 16 := Bytes.ofList_bytes_of_length (by simp; omega)

theorem blockAt_joinChunks {bs : List Block} {j : Nat} (h : j < bs.length) : blockAt (joinChunks bs) j = bs[j] := by
  have h1 := toBlocks_joinChunks bs
  have h2 : (toBlocks (joinChunks bs))[j]'(by simpa [h1] using h) = bs[j] := by simp only [h1]
  rw [← h2]; simp [toBlocks_eq]

theorem blockAt_blocks {m j : Nat} (g : Nat → Block) (h : j < m) : blockAt (blocks m g) j = g j := by
  rw [blocks_eq, blockAt_joinChunks (by simpa using h)]; simp

theorem blocks_congr {m : Nat} {g g' : Nat → Block} (h : ∀ j < m, g j = g' j) : blocks m g = blocks m g' := by
  rw [blocks_eq, blocks_eq, List.map_congr_left (by simpa using h)]

theorem blocks_blockAt {m : Nat} {x : List Byte} (h : 16 * m ≤ x.length) : blocks m (blockAt x) = x.take (16 * m) := by
  rw [blocks_eq, ← joinChunks_toChunks h, toChunks_eq]; rfl

theorem blocks_succ (m : Nat) (g : Nat → Block) : blocks (m + 1) g = (g 0).bytes ++ blocks m fun j => g (j + 1) := by
  rw [blocks_eq, blocks_eq, List.range_succ_eq_map]; simp [Function.comp_def]

/-! ## ECB and chains -/

theorem ecbBlocks_eq (f : Block → Block) (x : List Byte) :
    ecbBlocks f x = blocks (x.length / 16) fun j => f (blockAt x j) := by
  rw [ecbBlocks, toBlocks_eq, blocks_eq, List.map_map]; rfl

theorem foldl_toChunks (g : Block → Block) (y0 : Block) (m : Nat) (x : List Byte) :
    (toChunks 16 m x).foldl (fun y b => g (y.xor b)) y0 = chain g y0 x m := by
  rw [toChunks_eq]
  induction m with
  | zero => rfl
  | succ m ih => rw [List.range_succ, List.map_append, List.foldl_append, ih]; rfl

theorem macChain_toChunks (e : Block → Block) (y0 : Block) (m : Nat) (x : List Byte) :
    macChain e y0 (toChunks 16 m x) = chain e y0 x m := foldl_toChunks e y0 m x

theorem ghash_eq (h : Block) (x : List Byte) (y0 : Block) : ghash h x y0 = ghashOf h x y0 :=
  foldl_toChunks (fun b => gmul b h) y0 _ x

theorem polyval_eq (h : Block) (x : List Byte) (y0 : Block) : polyval h x y0 = polyvalOf h x y0 :=
  foldl_toChunks (fun b => pmul b h) y0 _ x

/-- A chain goes on over what is appended. -/
theorem chain_append (g : Block → Block) (y0 : Block) {x y : List Byte} {m : Nat} (h : x.length = 16 * m) (k : Nat) :
    chain g y0 (x ++ y) (m + k) = chain g (chain g y0 x m) y k := by
  induction k with
  | zero =>
    have : ∀ j ≤ m, chain g y0 (x ++ y) j = chain g y0 x j := by
      intro j hj
      induction j with
      | zero => rfl
      | succ j ih => rw [chain, chain, ih (by omega), blockAt_append_left (by omega)]
    exact this m (Nat.le_refl m)
  | succ k ih => rw [← Nat.add_assoc, chain, chain, ih, blockAt_append_right h]

/-- Chains over strings that agree on the first `m` blocks. -/
theorem chain_congr (g : Block → Block) (y0 : Block) {x y : List Byte} {m : Nat}
    (h : ∀ j < m, blockAt x j = blockAt y j) : chain g y0 x m = chain g y0 y m := by
  induction m with
  | zero => rfl
  | succ m ih => rw [chain, chain, ih fun j hj => h j (by omega), h m (by omega)]

theorem cbcEnc_eq (e : Block → Block) (y : Block) (x : List Byte) :
    cbcEnc e y (toBlocks x)
      = (chain e y x (x.length / 16), (List.range (x.length / 16)).map fun j => chain e y x (j + 1)) := by
  have : ∀ (m : Nat) (y : Block) (x : List Byte), cbcEnc e y (toChunks 16 m x)
      = (chain e y x m, (List.range m).map fun j => chain e y x (j + 1)) := by
    intro m
    induction m with
    | zero => intro y x; rfl
    | succ m ih =>
      intro y x
      have hc : ∀ k, chain e y x (k + 1) = chain e (e ((Bytes.ofList 16 (x.take 16)).xor y)) (x.drop 16) k := by
        intro k
        induction k with
        | zero => simp [chain, blockAt, Bytes.xor_comm]
        | succ k ihk =>
          rw [chain, ihk, chain]
          congr 2
          simp only [blockAt, List.drop_drop, Nat.mul_succ, Nat.add_comm 16]
      rw [toChunks, cbcEnc, ih]
      simp only [← hc]
      rw [List.range_succ_eq_map, List.map_cons, List.map_map, hc 0]
      rfl
  exact this _ y x

theorem cbcDec_eq (d : Block → Block) (y : Block) (x : List Byte) :
    cbcDec d y (toBlocks x)
      = (if x.length / 16 = 0 then y else blockAt x (x.length / 16 - 1),
        (List.range (x.length / 16)).map fun j =>
          (d (blockAt x j)).xor (if j = 0 then y else blockAt x (j - 1))) := by
  have : ∀ (m : Nat) (y : Block) (x : List Byte), cbcDec d y (toChunks 16 m x)
      = (if m = 0 then y else blockAt x (m - 1),
        (List.range m).map fun j => (d (blockAt x j)).xor (if j = 0 then y else blockAt x (j - 1))) := by
    intro m
    induction m with
    | zero => intro y x; rfl
    | succ m ih =>
      intro y x
      have hb : ∀ k, blockAt (x.drop 16) k = blockAt x (k + 1) := by
        intro k; simp only [blockAt, List.drop_drop, Nat.mul_succ, Nat.add_comm 16]
      have h0 : Bytes.ofList 16 (x.take 16) = blockAt x 0 := by simp [blockAt]
      rw [toChunks, cbcDec, ih, h0]
      simp only [hb]
      rw [List.range_succ_eq_map, List.map_cons, List.map_map]
      refine Prod.ext ?_ ?_
      · cases m <;> simp
      · simp only [List.cons.injEq]
        refine ⟨by simp, List.map_congr_left fun j _ => ?_⟩
        cases j <;> simp [Function.comp]
  exact this _ y x

/-! ## Pads -/

@[simp] theorem padded_length (pad : Nat → Byte) (x : List Byte) : (padded pad x).length = x.length := by
  simp [padded]

theorem getD_padded {pad : Nat → Byte} {x : List Byte} {j : Nat} (h : j < x.length) :
    (padded pad x).getD j 0 = x.getD j 0 ^^^ pad j := by
  simp [padded, h]

/-- A list is a padded string when its length and its bytes say so. -/
theorem eq_padded {pad : Nat → Byte} {x y : List Byte} (hl : y.length = x.length)
    (h : ∀ j < x.length, y.getD j 0 = x.getD j 0 ^^^ pad j) : y = padded pad x := by
  apply List.ext_getElem (by simpa using hl)
  intro j h1 h2
  have := h j (by omega)
  simpa [h1, padded, List.getD_eq_getElem?_getD] using this

theorem padded_congr {pad pad' : Nat → Byte} {x : List Byte} (h : ∀ j < x.length, pad j = pad' j) :
    padded pad x = padded pad' x := by
  simp only [padded]
  exact List.map_congr_left fun j hj => by rw [h j (by simpa using hj)]

theorem padded_append (pad : Nat → Byte) (x y : List Byte) :
    padded pad (x ++ y) = padded pad x ++ padded (fun j => pad (x.length + j)) y := by
  symm
  apply eq_padded (by simp)
  intro j hj
  by_cases h : j < x.length
  · rw [List.getD_append _ _ _ _ (by simpa using h), getD_padded h, List.getD_append _ _ _ _ h]
  · rw [List.getD_append_right _ _ _ _ (by simpa using h), List.getD_append_right _ _ _ _ (by omega), padded_length,
      getD_padded (by simp at hj; omega)]
    congr 2; omega

/-- Padding twice with the same pad gives the string back. -/
theorem padded_padded (pad : Nat → Byte) (x : List Byte) : padded pad (padded pad x) = x := by
  apply Eq.symm
  apply eq_padded (by simp)
  intro j hj
  have hj' : j < x.length := by simpa using hj
  rw [getD_padded hj', BitVec.xor_assoc, BitVec.xor_self, BitVec.xor_zero]

theorem xorBytes_eq_padded {x : List Byte} {k : Block} (h : x.length ≤ 16) :
    xorBytes x k.bytes = padded k.byte x := by
  apply eq_padded (by simp; omega)
  intro j hj
  exact getD_xorBytes hj (by simp; omega)

theorem blockCount_pos {n : Nat} (h : n ≠ 0) : blockCount n = blockCount (n - 16) + 1 := by
  unfold blockCount; omega

/-- A loop that xors block after block of a string with keystream blocks `ks i, ks (i+1), …`. -/
theorem padLoop_eq {ks : Nat → Block} {F : Nat → Nat → List Byte → List Byte} (h0 : ∀ i x, F 0 i x = [])
    (h1 : ∀ m i x, F (m + 1) i x = xorBytes (x.take 16) (ks i).bytes ++ F m (i + 1) (x.drop 16))
    (x : List Byte) (i : Nat) : F (blockCount x.length) i x = padded (keystream fun j => ks (i + j)) x := by
  generalize hm : blockCount x.length = m
  induction m generalizing x i with
  | zero =>
    have : x = [] := List.length_eq_zero_iff.1 (by unfold blockCount at hm; omega)
    subst this; rw [h0]; rfl
  | succ m ih =>
    have hx : x.length ≠ 0 := by rintro h; rw [h] at hm; simp [blockCount] at hm
    have hm' : blockCount (x.drop 16).length = m := by
      have := blockCount_pos hx; simp only [List.length_drop]; omega
    rw [h1, ih _ _ hm', xorBytes_eq_padded (by simp)]
    conv_rhs => rw [← List.take_append_drop 16 x, padded_append]
    congr 1
    · apply padded_congr
      intro j hj
      have : j < 16 := by simp at hj; omega
      simp [keystream, Nat.div_eq_of_lt this, Nat.mod_eq_of_lt this]
    · apply padded_congr
      intro j hj
      have hl : (x.take 16).length = 16 := by simp at hj ⊢; omega
      simp only [hl, keystream, Nat.add_mod_left, Nat.add_div_left _ (show 0 < 16 by decide)]
      congr 2; omega

theorem iterate_succ_comm {α : Type} (f : α → α) (n : Nat) (a : α) : f^[n + 1] a = f^[n] (f a) := rfl

theorem ctrBlocks_eq (inc e : Block → Block) (cb : Block) (x : List Byte) :
    ctrBlocks inc e (blockCount x.length) cb x = padded (keystream fun j => e (inc^[j] cb)) x := by
  have := padLoop_eq (ks := fun j => e (inc^[j] cb)) (F := fun m i x => ctrBlocks inc e m (inc^[i] cb) x)
    (fun _ _ => rfl)
    (fun m i x => by simp only [ctrBlocks, ← Function.iterate_succ_apply' inc i cb]) x 0
  simpa using this

theorem ccmCrypt_eq (e : Block → Block) (L : Nat) (n x : List Byte) :
    ccmCrypt e L n x = padded (keystream fun j => e (ccmCtr L n (j + 1))) x := by
  have := padLoop_eq (ks := fun j => e (ccmCtr L n j)) (F := ccmStream e L n) (fun _ _ => rfl) (fun _ _ _ => rfl) x 1
  rw [ccmCrypt, this]; simp only [Nat.add_comm 1]

/-! ## Counters -/

theorem counterPlus_zero (x : Block) : counterPlus x 0 = x := by simp [counterPlus]

theorem inc128_counterPlus (x : Block) (k : Nat) : inc128 (counterPlus x k) = counterPlus x (k + 1) := by
  apply Bytes.intBE_inj
  simp only [inc128, counterPlus, intBE_be]
  omega

theorem inc128_iterate (x : Block) (k : Nat) : inc128^[k] x = counterPlus x k := by
  induction k with
  | zero => exact (counterPlus_zero x).symm
  | succ k ih => rw [Function.iterate_succ_apply', ih, inc128_counterPlus]

/-! ## CTR, OFB and CFB -/

theorem streamBytes_append (step : Stream → Byte → Stream × Byte) (S : Stream) (x y : List Byte) :
    streamBytes step S (x ++ y)
      = ((streamBytes step (streamBytes step S x).1 y).1,
        (streamBytes step S x).2 ++ (streamBytes step (streamBytes step S x).1 y).2) := by
  induction x generalizing S with
  | nil => rfl
  | cons b x ih => simp only [List.cons_append, streamBytes, ih]

@[simp] theorem streamBytes_length (step : Stream → Byte → Stream × Byte) (S : Stream) (x : List Byte) :
    (streamBytes step S x).2.length = x.length := by
  induction x generalizing S with
  | nil => rfl
  | cons b x ih => simp [streamBytes, ih]

theorem cfbSeg_length (e : Block → Block) (dec : Bool) (S : Stream) (x : List Byte) (h : x.length ≤ 16) :
    (cfbSeg e dec S x).2.length = x.length := by
  simp [cfbSeg]; omega

/-- CFB over whole segments: the register is a window on `register ‖ ciphertext`. -/
theorem cfbSegs_eq (e : Block → Block) (dec : Bool) (size : Nat) (hs : size ≤ 16) (m : Nat) (S : Stream)
    (x : List Byte) (hx : x.length = size * m) :
    let r := cfbSegs e dec size m S x
    let c := if dec then x else r.2
    r.2.length = x.length
      ∧ r.1 = { S with sreg := cfbRegister S.sreg c x.length }
      ∧ ∀ j < m, segAt size r.2 j = xorBytes (segAt size x j) (e (cfbRegister S.sreg c (size * j))).bytes := by
  induction m generalizing S x with
  | zero =>
    have : x = [] := List.length_eq_zero_iff.1 (by simpa using hx)
    subst this
    refine ⟨rfl, ?_, by simp⟩
    simp [cfbSegs, cfbRegister]
  | succ m ih =>
    have hle : size ≤ x.length := by rw [hx, Nat.mul_succ]; omega
    have hd : (x.drop size).length = size * m := by simp [hx, Nat.mul_succ]
    have ht : (x.take size).length = size := by simp [hle]
    obtain ⟨h1, h2, h3⟩ := ih (cfbSeg e dec S (x.take size)).1 (x.drop size) hd
    have hseg : (cfbSeg e dec S (x.take size)).2.length = size := by
      rw [cfbSeg_length _ _ _ _ (by omega), ht]
    simp only [cfbSegs]
    -- the ciphertext segment, and the register after it
    generalize hp : cfbSeg e dec S (x.take size) = p at *
    generalize hq : cfbSegs e dec size m p.1 (x.drop size) = q at *
    have hc0 : (if dec then x else p.2 ++ q.2)
        = (if dec then x.take size else p.2) ++ (if dec then x.drop size else q.2) := by
      cases dec <;> simp
    have hcl : (if dec then x.take size else p.2).length = size := by cases dec <;> simp [ht, hseg]
    have hreg : p.1 = { S with sreg := cfbRegister S.sreg (if dec then x.take size else p.2) size } := by
      rw [← hp]
      simp only [cfbSeg, ht, cfbRegister]
      rw [List.drop_append_of_le_length (by simp; omega)]
    -- a window past the first segment is a window of the new register
    have hwin : ∀ k c, cfbRegister p.1.sreg c k
        = cfbRegister S.sreg ((if dec then x.take size else p.2) ++ c) (size + k) := by
      intro k c
      rw [hreg]
      simp only [cfbRegister]
      have h16 : (Bytes.ofList 16 ((S.sreg.bytes ++ if dec = true then x.take size else p.2).drop size)).bytes
          = (S.sreg.bytes ++ if dec = true then x.take size else p.2).drop size :=
        Bytes.ofList_bytes_of_length (by rw [List.length_drop, List.length_append, hcl, S.sreg.len]; omega)
      rw [h16, ← List.append_assoc, ← List.drop_drop,
        List.drop_append_of_le_length (l₁ := S.sreg.bytes ++ _) (by rw [List.length_append, S.sreg.len]; omega)]
    refine ⟨by simp [hseg, h1, hx, Nat.mul_succ]; omega, ?_, ?_⟩
    · rw [h2, hc0, hwin, hreg]
      congr 2
      rw [hd, hx, Nat.mul_succ]; omega
    · intro j hj
      cases j with
      | zero =>
        simp only [segAt, Nat.mul_zero, List.drop_zero]
        rw [List.take_left' hseg, ← hp]
        simp [cfbSeg, cfbRegister, Bytes.ofList, S.sreg.len]
      | succ j =>
        have e1 : segAt size (p.2 ++ q.2) (j + 1) = segAt size q.2 j := by
          simp only [segAt]
          rw [Nat.mul_succ, Nat.add_comm, ← List.drop_drop, List.drop_left' hseg]
        have e2 : segAt size x (j + 1) = segAt size (x.drop size) j := by
          simp only [segAt, List.drop_drop, Nat.mul_succ, Nat.add_comm size]
        rw [e1, e2, h3 j (by omega), hwin, hc0, Nat.mul_succ, Nat.add_comm (size * j)]

/-! ## Keystream positions -/

theorem fin17_succ {p : Fin 17} (h : p.val < 16) : (p + 1).val = p.val + 1 := by
  rw [Fin.val_add]; simp; omega

theorem ctrByte_ends (e : Block → Block) {S S' : Stream} {n : Nat} (h : CtrEnds e S n S') (b : Byte) :
    CtrEnds e S (n + 1) (ctrByte e S' b).1 ∧ (ctrByte e S' b).2 = b ^^^ ctrPad e S (S.pos.val + n) := by
  simp only [CtrEnds] at h
  split at h
  · rename_i hq
    subst h
    by_cases h16 : S.pos.val + n = 16
    · have hp : (Fin.ofNat 17 (S.pos.val + n)) = 16 := by rw [h16]; rfl
      have h1 : (S.pos.val + n) / 16 = 1 := by omega
      have h2 : (S.pos.val + n) % 16 = 0 := by omega
      have h3 : (S.pos.val + (n + 1) - 1) / 16 = 1 := by omega
      have h4 : (S.pos.val + (n + 1) - 1) % 16 = 0 := by omega
      have hn1 : ¬ S.pos.val + (n + 1) ≤ 16 := by omega
      have hn2 : ¬ S.pos.val + n < 16 := by omega
      have c1 : counterPlus S.sreg 1 = inc128 S.sreg := by rw [← inc128_counterPlus, counterPlus_zero]
      simp only [ctrByte, ctrRefill, hp, if_true, CtrEnds, ctrPad, h1, h2, h3, h4, if_neg hn1, if_neg hn2]
      cases hf : S.fresh <;> simp [counterPlus_zero, c1]
    · have hp : (Fin.ofNat 17 (S.pos.val + n)).val = S.pos.val + n := by simp; omega
      have hp' : Fin.ofNat 17 (S.pos.val + n) ≠ 16 := by
        intro h; exact h16 (by rw [← hp, h]; rfl)
      simp only [ctrByte, ctrRefill, hp', if_false, CtrEnds, ctrPad]
      rw [if_pos (by omega), if_pos (by omega), hp]
      refine ⟨?_, rfl⟩
      congr 1
      apply Fin.ext
      rw [fin17_succ (by omega), hp]
      simp; omega
  · rename_i hq
    obtain ⟨hm, hf, hpos, hs, hk⟩ := h
    have hfr : S.fresh.toNat ≤ 1 := Bool.toNat_le S.fresh
    by_cases h16 : (S.pos.val + n) % 16 = 0
    · have hp : S'.pos = 16 := by apply Fin.ext; rw [hpos]; show _ = 16; omega
      have h4 : (S.pos.val + (n + 1) - 1) % 16 = 0 := by omega
      have h3 : (S.pos.val + (n + 1) - 1) / 16 - S.fresh.toNat = (S.pos.val + n - 1) / 16 - S.fresh.toNat + 1 := by omega
      have h1 : (S.pos.val + n) / 16 - S.fresh.toNat = (S.pos.val + n - 1) / 16 - S.fresh.toNat + 1 := by omega
      have hn1 : ¬ S.pos.val + (n + 1) ≤ 16 := by omega
      have hn2 : ¬ S.pos.val + n < 16 := by omega
      simp only [ctrByte, ctrRefill, hp, if_true, CtrEnds, ctrPad, h1, h3, h4, h16, hf, if_neg hn1, if_neg hn2]
      simp [hs, inc128_counterPlus, hm]
    · have hp : S'.pos.val = (S.pos.val + n) % 16 := by omega
      have hp' : S'.pos ≠ 16 := by intro h; rw [h] at hp; exact absurd hp (by show ¬ 16 = _; omega)
      have h3 : (S.pos.val + (n + 1) - 1) / 16 = (S.pos.val + n - 1) / 16 := by omega
      have h1 : (S.pos.val + n) / 16 = (S.pos.val + n - 1) / 16 := by omega
      simp only [ctrByte, ctrRefill, hp', if_false, CtrEnds, ctrPad, h1, h3]
      rw [if_neg (by omega), if_neg (by omega), hp, hk, hs]
      refine ⟨⟨hm, hf, ?_, rfl, rfl⟩, rfl⟩
      rw [fin17_succ (by omega), hp]; omega

/-- What `n` bytes of CTR do to the stream, and byte by byte to the string (R234). -/
theorem ctrBytes_eq (e : Block → Block) (S : Stream) (x : List Byte) :
    CtrEnds e S x.length (streamBytes (ctrByte e) S x).1
      ∧ (streamBytes (ctrByte e) S x).2 = padded (fun j => ctrPad e S (S.pos.val + j)) x := by
  induction x using List.reverseRecOn with
  | nil =>
    have : S.pos.val ≤ 16 := by omega
    refine ⟨?_, rfl⟩
    simp [CtrEnds, streamBytes, this]
  | append_singleton x b ih =>
    have h := ctrByte_ends e ih.1 b
    rw [streamBytes_append, padded_append, ih.2, List.length_append]
    refine ⟨h.1, ?_⟩
    show _ ++ _ = _
    congr 1
    simp [streamBytes, h.2, padded]

theorem ofbByte_ends (e : Block → Block) {S S' : Stream} {n : Nat} (h : OfbEnds e S n S') (b : Byte) :
    OfbEnds e S (n + 1) (ofbByte e S' b).1 ∧ (ofbByte e S' b).2 = b ^^^ ofbPad e S (S.pos.val + n) := by
  obtain ⟨hm, hf, hk, h⟩ := h
  have hpos : S'.pos.val = if n = 0 then S.pos.val else (S.pos.val + n - 1) % 16 + 1 := by
    split at h <;> simp_all
  have hs : S'.sreg = if n = 0 then S.sreg else e^[(S.pos.val + n - 1) / 16] S.sreg := by
    split at h <;> simp_all
  have hlt : S.pos.val ≤ 16 := by omega
  have h0 : S.pos.val + (n + 1) - 1 = S.pos.val + n := by omega
  by_cases h16 : S'.pos = 16
  · have hv : S'.pos.val = 16 := by rw [h16]; rfl
    have h1 : (S.pos.val + n) % 16 = 0 := by split at hpos <;> omega
    have h2 : e S'.sreg = e^[(S.pos.val + n) / 16] S.sreg := by
      rw [hs]
      split
      · have : (S.pos.val + n) / 16 = 1 := by split at hpos <;> omega
        rw [this]; rfl
      · have : (S.pos.val + n) / 16 = (S.pos.val + n - 1) / 16 + 1 := by split at hpos <;> omega
        rw [this, Function.iterate_succ_apply']
    simp only [ofbByte, ofbRefill, h16, if_true, OfbEnds, ofbPad, h0, h1, h2]
    exact ⟨⟨hm, hf, hk, by rw [if_neg (by omega)]; exact ⟨rfl, trivial⟩⟩, rfl⟩
  · have hv : S'.pos.val < 16 := by
      have := S'.pos.isLt
      have : S'.pos.val ≠ 16 := fun h => h16 (Fin.ext h)
      omega
    have h1 : (S.pos.val + n) % 16 = S'.pos.val := by split at hpos <;> omega
    have h2 : S'.sreg = e^[(S.pos.val + n) / 16] S.sreg := by
      rw [hs]
      split
      · have : (S.pos.val + n) / 16 = 0 := by split at hpos <;> omega
        rw [this]; rfl
      · congr 1; split at hpos <;> omega
    simp only [ofbByte, ofbRefill, h16, if_false, OfbEnds, ofbPad, h0, h1, h2]
    refine ⟨⟨hm, hf, hk, ?_⟩, trivial⟩
    rw [if_neg (by omega)]
    exact ⟨fin17_succ hv, trivial⟩

/-- What `n` bytes of OFB do (R235). -/
theorem ofbBytes_eq (e : Block → Block) (S : Stream) (x : List Byte) :
    OfbEnds e S x.length (streamBytes (ofbByte e) S x).1
      ∧ (streamBytes (ofbByte e) S x).2 = padded (fun j => ofbPad e S (S.pos.val + j)) x := by
  induction x using List.reverseRecOn with
  | nil => exact ⟨⟨rfl, rfl, rfl, by simp [streamBytes]⟩, rfl⟩
  | append_singleton x b ih =>
    have h := ofbByte_ends e ih.1 b
    rw [streamBytes_append, padded_append, ih.2, List.length_append]
    refine ⟨h.1, ?_⟩
    show _ ++ _ = _
    congr 1
    simp [streamBytes, h.2, padded]

/-! ## Splitting a message -/

theorem streamBytes_valid {step : Stream → Byte → Stream × Byte} (h : ∀ S b, (step S b).1.valid = S.valid) (S : Stream)
    (x : List Byte) : (streamBytes step S x).1.valid = S.valid := by
  induction x generalizing S with
  | nil => rfl
  | cons b x ih => rw [streamBytes]; exact (ih _).trans (h S b)

theorem ctrByte_valid (e : Block → Block) (S : Stream) (b : Byte) : (ctrByte e S b).1.valid = S.valid := by
  unfold ctrByte ctrRefill; simp only; split <;> rfl

theorem ofbByte_valid (e : Block → Block) (S : Stream) (b : Byte) : (ofbByte e S b).1.valid = S.valid := by
  unfold ofbByte ofbRefill; simp only; split <;> rfl

theorem cfbSegs_valid (e : Block → Block) (dec : Bool) (size m : Nat) (S : Stream) (x : List Byte) :
    (cfbSegs e dec size m S x).1.valid = S.valid := by
  induction m generalizing S x with
  | zero => rfl
  | succ m ih => rw [cfbSegs]; exact ih _ _

theorem cfbSegs_append (e : Block → Block) (dec : Bool) (size m k : Nat) (S : Stream) {x y : List Byte}
    (h : x.length = size * m) :
    cfbSegs e dec size (m + k) S (x ++ y)
      = ((cfbSegs e dec size k (cfbSegs e dec size m S x).1 y).1,
        (cfbSegs e dec size m S x).2 ++ (cfbSegs e dec size k (cfbSegs e dec size m S x).1 y).2) := by
  induction m generalizing S x with
  | zero =>
    have : x = [] := List.length_eq_zero_iff.1 (by simpa using h)
    subst this
    simp [cfbSegs]
  | succ m ih =>
    have hs : size ≤ x.length := by rw [h, Nat.mul_succ]; omega
    rw [show m + 1 + k = (m + k) + 1 by omega, cfbSegs, cfbSegs]
    simp only [List.take_append_of_le_length hs, List.drop_append_of_le_length hs]
    rw [ih _ (by rw [List.length_drop, h, Nat.mul_succ]; omega)]
    simp

theorem cbcEnc_append (e : Block → Block) (y : Block) (xs zs : List Block) :
    cbcEnc e y (xs ++ zs)
      = ((cbcEnc e (cbcEnc e y xs).1 zs).1, (cbcEnc e y xs).2 ++ (cbcEnc e (cbcEnc e y xs).1 zs).2) := by
  induction xs generalizing y with
  | nil => rfl
  | cons x xs ih => simp only [List.cons_append, cbcEnc, ih]

theorem cbcDec_append (d : Block → Block) (y : Block) (xs zs : List Block) :
    cbcDec d y (xs ++ zs)
      = ((cbcDec d (cbcDec d y xs).1 zs).1, (cbcDec d y xs).2 ++ (cbcDec d (cbcDec d y xs).1 zs).2) := by
  induction xs generalizing y with
  | nil => rfl
  | cons x xs ih => simp only [List.cons_append, cbcDec, ih]

end Sys2Proof
end

