-- ==== Sys2Proof/Laws/Aead.lean ====
section
/-! SUPPORT. The MACs and the AEAD modes, block by block. -/

namespace Sys2Proof

open Sys2Proof.Machine Sys2Proof.Safety

/-! ## MACs -/

theorem cbcmacPad_eq (m : List Byte) : cbcmacPad m = isoPadded m := by
  unfold cbcmacPad isoPadded zpad16
  have : (16 - (m ++ [(0x80 : Byte)]).length % 16) % 16 = 15 - m.length % 16 := by simp; omega
  rw [this]; simp

theorem cbcmac_eq (e : Block → Block) (m : List Byte) : cbcmac e m = cbcmacOf e m := by
  rw [cbcmac, cbcmacPad_eq, toBlocks, macChain_toChunks]; rfl

theorem pad80_eq {r : List Byte} (h : r.length ≤ 15) : pad80 r = tailBlock r := by
  apply Bytes.ext_bytes
  rw [tailBlock, Bytes.ofList_bytes_of_length (by simp; omega)]
  simp only [pad80, Bytes.ofList]
  rw [List.append_assoc, List.take_append, List.take_of_length_le (by omega)]
  obtain ⟨k, hk⟩ : ∃ k, 16 - r.length = k + 1 := ⟨15 - r.length, by omega⟩
  rw [hk, List.singleton_append, List.take_succ_cons, List.take_replicate]
  congr 3; omega

theorem cmac_eq (e : Block → Block) (k1 k2 : Block) (m : List Byte) : cmac e k1 k2 m = cmacOf e k1 k2 m := by
  simp only [cmac, cmacOf, macChain_toChunks, cmacLast]
  have hl : (m.drop (16 * (max 1 ((m.length + 15) / 16) - 1))).length = 16 ↔ 0 < m.length ∧ m.length % 16 = 0 := by
    simp only [List.length_drop]; omega
  by_cases h : 0 < m.length ∧ m.length % 16 = 0
  · rw [if_pos (hl.2 h), if_pos h, blockAt, Bytes.ofList_take]
  · rw [if_neg (fun h' => h (hl.1 h')), if_neg h, pad80_eq]
    simp only [List.length_drop]; omega

theorem encK_eq (s : State) : s.encK = s.E s.kc.k := rfl

theorem decK_eq (s : State) : s.decK = s.D s.kc.k := rfl

theorem omac_eq (s : State) (d : Nat) (m : List Byte) : s.omac d m = omacOf s d m := by
  rw [State.omac, State.cmacOf, cmac_eq, omacOf, encK_eq]

/-! ## GCM, CCM, EAX -/

theorem j0_eq (s : State) : s.j0 = j0Of s.kc.h s.nonce := by
  unfold State.j0 gcmJ0 j0Of
  simp only [ghash_eq]

theorem gcmInc_iterate (s : State) (x : Block) (k : Nat) : s.cfg.gcmCtrInc.inc^[k] x = gcmCounter s x k := by
  unfold gcmCounter
  cases s.cfg.gcmCtrInc
  · rfl
  · exact inc128_iterate x k

theorem gctrSrc_eq (s : State) : s.gctrSrc = gcmCrypt s s.src := by
  simp only [State.gctrSrc, gctr, ctrBlocks_eq, gcmCrypt, ← Function.iterate_succ_apply, gcmInc_iterate, j0_eq]
  rfl

theorem gcmTag_eq (s : State) (a c : List Byte) : gcmTag s.encK s.kc.h s.j0 a c = gcmTagOf s a c := by
  simp only [gcmTag, gcmTagOf, ghash_eq, j0_eq]; rfl

theorem ccmTag_eq {s : State} {t L : Nat} (pl : List Byte) (ht : 4 ≤ t ∧ t ≤ 16) (hL : 2 ≤ L ∧ L ≤ 8)
    (hn : s.nonce.length = 15 - L) : ccmTag s.encK t L s.nonce s.aad pl = ccmTagOf s t L pl := by
  simp only [ccmTag, ccmTagOf, toBlocks, macChain_toChunks, ccmFormat_eq _ _ ht hL hn, ccmCtr_eq 0 hn hL]; rfl

theorem ccmCrypt_src_eq {s : State} {L : Nat} (x : List Byte) (hL : 2 ≤ L ∧ L ≤ 8) (hn : s.nonce.length = 15 - L) :
    ccmCrypt s.encK L s.nonce x = ccmCryptOf s L x := by
  simp only [ccmCrypt_eq, ccmCryptOf, ccmCtr_eq _ hn hL]; rfl

theorem eaxCrypt_eq (s : State) (x : List Byte) : s.eaxCrypt x = eaxCryptOf s x := by
  simp only [State.eaxCrypt, ctrBlocks_eq, eaxCryptOf, inc128_iterate, omac_eq, encK_eq]

theorem eaxTag_eq (s : State) (t : Nat) (c : List Byte) : s.eaxTag t c = eaxTagOf s t c := by
  simp only [State.eaxTag, eaxTagOf, omac_eq]

/-! ## Trailing zeros -/

theorem ntzFuel_spec (fuel i : Nat) (h0 : 0 < i) (h : i < 2 ^ fuel) :
    (∀ j < ntzFuel fuel i, i.testBit j = false) ∧ i.testBit (ntzFuel fuel i) = true ∧ ntzFuel fuel i < fuel := by
  induction fuel generalizing i with
  | zero => omega
  | succ fuel ih =>
    rw [ntzFuel]
    split
    · refine ⟨fun j hj => absurd hj (Nat.not_lt_zero j), ?_, Nat.succ_pos fuel⟩
      simp [Nat.testBit_zero, *]
    · obtain ⟨h1, h2, h3⟩ := ih (i / 2) (by omega) (by rw [Nat.pow_succ] at h; omega)
      refine ⟨fun j hj => ?_, ?_, by omega⟩
      · cases j with
        | zero => simp [Nat.testBit_zero, *]
        | succ j => rw [Nat.testBit_succ]; exact h1 j (by omega)
      · rw [Nat.testBit_succ]; exact h2

theorem ntz_spec {i : Nat} (h0 : 0 < i) :
    (∀ j < ntz i, i.testBit j = false) ∧ i.testBit (ntz i) = true := by
  have h := ntzFuel_spec i i h0 Nat.lt_two_pow_self
  rw [ntz, if_neg (by omega)]
  exact ⟨h.1, h.2.1⟩

/-- Every block index of a 32-bit length has its `L` (R354). -/
theorem ntz_lt {i n : Nat} (h0 : 0 < i) (h : i < 2 ^ n) : ntz i < n := by
  by_contra hc
  have h1 := (ntz_spec h0).2
  rw [Nat.testBit_lt_two_pow (lt_of_lt_of_le h (Nat.pow_le_pow_right (by decide) (by omega)))] at h1
  exact absurd h1 (by decide)

/-! ## OCB -/

theorem xorSum_succ' (g : Nat → Block) (m : Nat) : xorSum g (m + 1) = (g 0).xor (xorSum (fun j => g (j + 1)) m) := by
  induction m with
  | zero => simp [xorSum]
  | succ m ih => rw [xorSum, ih, xorSum, Bytes.xor_assoc]

theorem xorSum_congr {g g' : Nat → Block} {m : Nat} (h : ∀ j < m, g j = g' j) : xorSum g m = xorSum g' m := by
  induction m with
  | zero => rfl
  | succ m ih => rw [xorSum, xorSum, ih fun j hj => h j (by omega), h m (by omega)]

/-- The offset `j` blocks after `off`, the next block being number `i`. -/
def offsetFrom (L : Nat → Block) (i : Nat) (off : Block) : Nat → Block
  | 0 => off
  | j + 1 => (offsetFrom L i off j).xor (L (ntz (i + j)))

theorem offsetFrom_succ (L : Nat → Block) (i : Nat) (off : Block) (j : Nat) :
    offsetFrom L (i + 1) (off.xor (L (ntz i))) j = offsetFrom L i off (j + 1) := by
  induction j with
  | zero => rfl
  | succ j ih =>
    show (offsetFrom L (i + 1) _ j).xor _ = (offsetFrom L i off (j + 1)).xor _
    rw [ih, show i + 1 + j = i + (j + 1) by omega]

theorem ocbHashBlocks_eq (e : Block → Block) (L : Nat → Block) (i : Nat) (off sum : Block) (m : Nat) (x : List Byte) :
    ocbHashBlocks e L i off sum (toChunks 16 m x)
      = (offsetFrom L i off m,
        sum.xor (xorSum (fun j => e ((blockAt x j).xor (offsetFrom L i off (j + 1)))) m)) := by
  induction m generalizing i off sum x with
  | zero => simp [toChunks, ocbHashBlocks, offsetFrom, xorSum]
  | succ m ih =>
    have hb : ∀ k, blockAt (x.drop 16) k = blockAt x (k + 1) := by
      intro k; simp only [blockAt, List.drop_drop, Nat.mul_succ, Nat.add_comm 16]
    have h0 : Bytes.ofList 16 (x.take 16) = blockAt x 0 := by simp [blockAt]
    rw [toChunks, ocbHashBlocks, ih]
    simp only [offsetFrom_succ, hb, h0]
    rw [xorSum_succ' (fun j => e ((blockAt x j).xor (offsetFrom L i off (j + 1)))), Bytes.xor_assoc]
    rfl

theorem ocbCoreBlocks_eq (f : Block → Block) (enc : Bool) (L : Nat → Block) (i : Nat) (off chk : Block) (m : Nat)
    (x : List Byte) :
    let y := fun j => (offsetFrom L i off (j + 1)).xor (f ((blockAt x j).xor (offsetFrom L i off (j + 1))))
    ocbCoreBlocks f enc L i off chk (toChunks 16 m x)
      = (offsetFrom L i off m, chk.xor (xorSum (if enc then blockAt x else y) m), (List.range m).map y) := by
  induction m generalizing i off chk x with
  | zero => simp [toChunks, ocbCoreBlocks, offsetFrom, xorSum]
  | succ m ih =>
    have hb : ∀ k, blockAt (x.drop 16) k = blockAt x (k + 1) := by
      intro k; simp only [blockAt, List.drop_drop, Nat.mul_succ, Nat.add_comm 16]
    have h0 : Bytes.ofList 16 (x.take 16) = blockAt x 0 := by simp [blockAt]
    intro y
    rw [toChunks, ocbCoreBlocks, ih]
    simp only [offsetFrom_succ, hb, h0]
    have hy : (fun j => (offsetFrom L i off (j + 1 + 1)).xor
        (f ((blockAt x (j + 1)).xor (offsetFrom L i off (j + 1 + 1))))) = fun j => y (j + 1) := rfl
    have hy0 : (off.xor (L (ntz i))).xor (f ((blockAt x 0).xor (off.xor (L (ntz i))))) = y 0 := rfl
    rw [hy, hy0]
    refine Prod.ext rfl (Prod.ext ?_ ?_)
    · show (chk.xor _).xor _ = chk.xor _
      rw [Bytes.xor_assoc]
      congr 1
      rw [xorSum_succ']
      cases enc
      · rfl
      · simp only [if_true]
        congr 2
        funext j; exact hb j
    · show _ :: _ = _
      rw [List.range_succ_eq_map, List.map_cons, List.map_map]
      rfl

theorem offsetFrom_eq {s : State} (hl : 32 ≤ s.kc.l.length) (off : Block) {m : Nat} (hm : m < 2 ^ 32) :
    offsetFrom s.kc.lAt 1 off m = ocbOffset s off m := by
  induction m with
  | zero => rfl
  | succ m ih =>
    rw [offsetFrom, ih (by omega), ocbOffset, Nat.add_comm 1 m]
    congr 1
    have h : ntz (m + 1) < s.kc.l.length := lt_of_lt_of_le (ntz_lt (n := 32) (by omega) hm) hl
    simp [KeyContext.lAt, h]

theorem ocbHash_eq {s : State} (hl : 32 ≤ s.kc.l.length) {a : List Byte} (ha : a.length < 2 ^ 32) :
    ocbHash s.encK s.kc.h s.kc.lAt a = ocbHashOf s a := by
  have ho : ∀ j ≤ a.length / 16, offsetFrom s.kc.lAt 1 (Bytes.zero 16) j = ocbOffset s (Bytes.zero 16) j :=
    fun j hj => offsetFrom_eq hl _ (by omega)
  have hsum : xorSum (fun j => s.encK ((blockAt a j).xor (offsetFrom s.kc.lAt 1 (Bytes.zero 16) (j + 1))))
        (a.length / 16)
      = xorSum (fun j => s.E s.kc.k ((blockAt a j).xor (ocbOffset s (Bytes.zero 16) (j + 1)))) (a.length / 16) :=
    xorSum_congr fun j hj => by rw [ho (j + 1) (by omega)]; rfl
  simp only [ocbHash, toBlocks, ocbHashBlocks_eq, ocbHashOf, Bytes.zero_xor, hsum, ho _ (Nat.le_refl _)]
  by_cases h : a.length % 16 = 0
  · rw [if_neg (by simpa using h), if_pos h]
  · rw [if_pos h, if_neg h, pad80_eq (by simp; omega)]; rfl

/-- `ocbOut` for any series `L`, with no bound on its length. -/
def ocbOutL (e f : Block → Block) (lstar : Block) (L : Nat → Block) (off0 : Block) (x : List Byte) : List Byte :=
  let m := x.length / 16
  let off := offsetFrom L 1 off0
  blocks m (fun j => (off (j + 1)).xor (f ((blockAt x j).xor (off (j + 1)))))
    ++ xorBytes (x.drop (16 * m)) (e ((off m).xor lstar)).bytes

/-- `ocbTagOf` likewise. -/
def ocbTagL (e : Block → Block) (lstar ldollar : Block) (L : Nat → Block) (t : Nat) (off0 : Block) (a p : List Byte) :
    List Byte :=
  let m := p.length / 16
  let offm := offsetFrom L 1 off0 m
  let chkm := xorSum (blockAt p) m
  let off := if p.length % 16 = 0 then offm else offm.xor lstar
  let chk := if p.length % 16 = 0 then chkm else chkm.xor (tailBlock (p.drop (16 * m)))
  ((e ((chk.xor off).xor ldollar)).xor (ocbHash e lstar L a)).bytes.take t

theorem ocbOutL_length (e f : Block → Block) (lstar : Block) (L : Nat → Block) (off0 : Block) (x : List Byte) :
    (ocbOutL e f lstar L off0 x).length = x.length := by
  simp only [ocbOutL, List.length_append, blocks_length, xorBytes_length, List.length_drop, Bytes.length_bytes]
  omega

/-- The whole blocks of the output are the blocks computed one by one. -/
theorem blockAt_ocbOutL (e f : Block → Block) (lstar : Block) (L : Nat → Block) (off0 : Block) (x : List Byte) {j : Nat}
    (h : j < x.length / 16) : blockAt (ocbOutL e f lstar L off0 x) j
      = (offsetFrom L 1 off0 (j + 1)).xor (f ((blockAt x j).xor (offsetFrom L 1 off0 (j + 1)))) := by
  simp only [ocbOutL]
  rw [blockAt_append_left (by rw [blocks_length]; omega), blockAt_blocks _ h]

theorem drop_ocbOutL (e f : Block → Block) (lstar : Block) (L : Nat → Block) (off0 : Block) (x : List Byte) :
    (ocbOutL e f lstar L off0 x).drop (16 * (x.length / 16))
      = xorBytes (x.drop (16 * (x.length / 16))) (e ((offsetFrom L 1 off0 (x.length / 16)).xor lstar)).bytes := by
  simp only [ocbOutL]
  rw [List.drop_left' (blocks_length _ _)]

theorem ocbCore_eq (e d : Block → Block) (lstar ldollar : Block) (L : Nat → Block) (enc : Bool) (t : Nat)
    (nonce a x : List Byte) :
    let out := ocbOutL e (if enc then e else d) lstar L (ocbOffset0 e t nonce) x
    ocbCore e d lstar ldollar L enc t nonce a x
      = (out, ocbTagL e lstar ldollar L t (ocbOffset0 e t nonce) a (if enc then x else out)) := by
  generalize hoff : ocbOffset0 e t nonce = off0
  intro out
  have hpl : (if enc then x else out).length = x.length := by cases enc <;> simp [out, ocbOutL_length]
  have hpad : pad80 ((if enc then x else out).drop (16 * (x.length / 16)))
      = tailBlock ((if enc then x else out).drop (16 * (x.length / 16))) := pad80_eq (by simp [hpl]; omega)
  have hchk : xorSum (if enc then blockAt x else fun j => (offsetFrom L 1 off0 (j + 1)).xor
      ((if enc then e else d) ((blockAt x j).xor (offsetFrom L 1 off0 (j + 1))))) (x.length / 16)
      = xorSum (blockAt (if enc then x else out)) (x.length / 16) := by
    apply xorSum_congr
    intro j hj
    cases enc
    · simp only [Bool.false_eq_true, if_false, out]; rw [blockAt_ocbOutL _ _ _ _ _ _ hj]
    · rfl
  have htail : (if enc then x.drop (16 * (x.length / 16)) else
      xorBytes (x.drop (16 * (x.length / 16))) (e ((offsetFrom L 1 off0 (x.length / 16)).xor lstar)).bytes)
      = (if enc then x else out).drop (16 * (x.length / 16)) := by
    cases enc
    · exact (drop_ocbOutL e d lstar L off0 x).symm
    · rfl
  have hout : joinChunks ((List.range (x.length / 16)).map fun j => (offsetFrom L 1 off0 (j + 1)).xor
      ((if enc then e else d) ((blockAt x j).xor (offsetFrom L 1 off0 (j + 1)))))
      = blocks (x.length / 16) fun j => (offsetFrom L 1 off0 (j + 1)).xor
        ((if enc then e else d) ((blockAt x j).xor (offsetFrom L 1 off0 (j + 1)))) := (blocks_eq _ _).symm
  simp only [ocbCore, toBlocks, ocbCoreBlocks_eq, hoff]
  simp only [hchk, Bytes.zero_xor, hout]
  by_cases h : x.length % 16 = 0
  · rw [if_neg (by simpa using h)]
    refine Prod.ext ?_ ?_
    · simp only [out, ocbOutL, List.drop_of_length_le (show x.length ≤ 16 * (x.length / 16) by omega)]
      simp [xorBytes]
    · simp only [ocbTagL, hpl, if_pos h]
  · rw [if_pos h]
    refine Prod.ext ?_ ?_
    · rfl
    · simp only [ocbTagL, hpl, if_neg h]
      rw [htail, hpad]

/-- Decryption undoes encryption, block by block and in the tail. -/
theorem ocbOutL_inverse {e d : Block → Block} (h : ∀ b, d (e b) = b) (lstar : Block) (L : Nat → Block) (off0 : Block)
    (x : List Byte) : ocbOutL e d lstar L off0 (ocbOutL e e lstar L off0 x) = x := by
  have hl := ocbOutL_length e e lstar L off0 x
  have hb : ∀ j < x.length / 16, (offsetFrom L 1 off0 (j + 1)).xor
      (d ((blockAt (ocbOutL e e lstar L off0 x) j).xor (offsetFrom L 1 off0 (j + 1)))) = blockAt x j := by
    intro j hj
    rw [blockAt_ocbOutL _ _ _ _ _ _ hj, Bytes.xor_comm (offsetFrom L 1 off0 (j + 1)) (e _), Bytes.xor_cancel_right, h,
      Bytes.xor_comm, Bytes.xor_cancel_right]
  rw [ocbOutL]
  simp only [hl]
  rw [blocks_congr hb, blocks_blockAt (by omega), drop_ocbOutL, xorBytes_cancel (by simp; omega),
    List.take_append_drop]

theorem ocb_eq {s : State} (hl : 32 ≤ s.kc.l.length) (enc : Bool) (t : Nat) :
    let f := if enc then s.E s.kc.k else s.D s.kc.k
    let off0 := ocbOffset0 (s.E s.kc.k) t s.nonce
    let out := ocbOut s f off0 s.src
    s.ocb enc t = (out, ocbTagOf s t off0 (if enc then s.src else out)) := by
  intro f off0 out
  have hx : s.src.length < 2 ^ 32 := by simpa [State.src, State.regionBytes, State.memRead, State.srcRegion] using s.cl.srcLen.isLt
  have ha : s.aad.length < 2 ^ 32 := by simpa [State.aad, State.regionBytes, State.memRead, State.aadRegion] using s.cl.aadLen.isLt
  have ho : ∀ j ≤ s.src.length / 16, offsetFrom s.kc.lAt 1 off0 j = ocbOffset s off0 j :=
    fun j hj => offsetFrom_eq hl _ (by omega)
  have hout : ocbOutL (s.E s.kc.k) f s.kc.h s.kc.lAt off0 s.src = out := by
    simp only [ocbOutL, out, ocbOut, ho _ (Nat.le_refl _)]
    congr 1
    exact blocks_congr fun j hj => by rw [ho (j + 1) (by omega)]
  have hol : out.length = s.src.length := by rw [← hout, ocbOutL_length]
  have hpl : (if enc then s.src else out).length = s.src.length := by cases enc <;> simp [hol]
  have hh := ocbHash_eq hl ha
  rw [encK_eq] at hh
  have hc := ocbCore_eq (s.E s.kc.k) (s.D s.kc.k) s.kc.h s.kc.ldollar s.kc.lAt enc t s.nonce s.aad s.src
  simp only [State.ocb, encK_eq, decK_eq]
  rw [hc]
  refine Prod.ext hout ?_
  show ocbTagL _ _ _ _ _ off0 _ (if enc then s.src else ocbOutL _ f _ _ off0 _) = _
  rw [hout]
  simp only [ocbTagL, ocbTagOf, hpl, ho _ (Nat.le_refl _), hh]

end Sys2Proof
end

