-- ==== Sys2Proof/Laws/Aes.lean ====
section
/-! SUPPORT. Each transformation of AES has its inverse. -/

namespace Sys2Proof.Aes

theorem invSubByte_subByte : ∀ b : Byte, invSubByte (subByte b) = b := by decide

theorem subByte_invSubByte : ∀ b : Byte, subByte (invSubByte b) = b := by decide

theorem shiftRows_of_ne {y : List Byte} (hy : y.length ≠ 16) : shiftRows y = y := by
  unfold shiftRows
  split
  · simp at hy
  · rfl

theorem invShiftRows_of_ne {y : List Byte} (hy : y.length ≠ 16) : invShiftRows y = y := by
  unfold invShiftRows
  split
  · simp at hy
  · rfl

theorem invShiftRows_shiftRows (x : List Byte) : invShiftRows (shiftRows x) = x := by
  by_cases h : x.length = 16
  · match x, h with
    | [_, _, _, _, _, _, _, _, _, _, _, _, _, _, _, _], _ => rfl
  · rw [shiftRows_of_ne h, invShiftRows_of_ne h]

theorem shiftRows_invShiftRows (x : List Byte) : shiftRows (invShiftRows x) = x := by
  by_cases h : x.length = 16
  · match x, h with
    | [_, _, _, _, _, _, _, _, _, _, _, _, _, _, _, _], _ => rfl
  · rw [invShiftRows_of_ne h, shiftRows_of_ne h]

theorem invSubShift_subShift (x : Block) : invSubShift (subShift x) = x := by
  apply Bytes.ext_bytes
  simp only [invSubShift, subShift, invShiftRows_shiftRows, List.map_map]
  rw [show invSubByte ∘ subByte = id from funext invSubByte_subByte, List.map_id]

theorem subShift_invSubShift (x : Block) : subShift (invSubShift x) = x := by
  apply Bytes.ext_bytes
  simp only [invSubShift, subShift, List.map_map]
  rw [show subByte ∘ invSubByte = id from funext subByte_invSubByte, List.map_id, shiftRows_invShiftRows]

theorem xtime_xor (a b : Byte) : xtime (a ^^^ b) = xtime a ^^^ xtime b := by
  have h : ∀ p q : Bool, (if (p ^^ q) then (0x1B : Byte) else 0) = (if p then 0x1B else 0) ^^^ (if q then 0x1B else 0) := by
    decide
  simp only [xtime, BitVec.msb_xor, h, BitVec.shiftLeft_xor_distrib]
  ac_rfl

/-- Sixteen bytes summed by rows and summed by columns. -/
theorem xor_regroup (a b c d a' b' c' d' a'' b'' c'' d'' p q r s : Byte) :
    (a ^^^ b ^^^ c ^^^ d) ^^^ (a' ^^^ b' ^^^ c' ^^^ d') ^^^ (a'' ^^^ b'' ^^^ c'' ^^^ d'') ^^^ (p ^^^ q ^^^ r ^^^ s)
      = (a ^^^ a' ^^^ a'' ^^^ p) ^^^ (b ^^^ b' ^^^ b'' ^^^ q) ^^^ (c ^^^ c' ^^^ c'' ^^^ r) ^^^ (d ^^^ d' ^^^ d'' ^^^ s) := by
  ac_rfl

theorem mul3_xor (a b : Byte) : mul3 (a ^^^ b) = mul3 a ^^^ mul3 b := by simp only [mul3, xtime_xor]; ac_rfl
theorem mul9_xor (a b : Byte) : mul9 (a ^^^ b) = mul9 a ^^^ mul9 b := by simp only [mul9, xtime_xor]; ac_rfl
theorem mul11_xor (a b : Byte) : mul11 (a ^^^ b) = mul11 a ^^^ mul11 b := by simp only [mul11, xtime_xor]; ac_rfl
theorem mul13_xor (a b : Byte) : mul13 (a ^^^ b) = mul13 a ^^^ mul13 b := by simp only [mul13, xtime_xor]; ac_rfl
theorem mul14_xor (a b : Byte) : mul14 (a ^^^ b) = mul14 a ^^^ mul14 b := by simp only [mul14, xtime_xor]; ac_rfl

/-- The products of the two matrices of MixColumns, entry by entry, on one byte. -/
theorem mix_entries : ∀ x : Byte,
    (mul14 (xtime x) ^^^ mul11 x ^^^ mul13 x ^^^ mul9 (mul3 x) = x
    ∧ mul14 (mul3 x) ^^^ mul11 (xtime x) ^^^ mul13 x ^^^ mul9 x = 0
    ∧ mul14 x ^^^ mul11 (mul3 x) ^^^ mul13 (xtime x) ^^^ mul9 x = 0
    ∧ mul14 x ^^^ mul11 x ^^^ mul13 (mul3 x) ^^^ mul9 (xtime x) = 0)
    ∧ mul9 (xtime x) ^^^ mul14 x ^^^ mul11 x ^^^ mul13 (mul3 x) = 0
    ∧ mul9 (mul3 x) ^^^ mul14 (xtime x) ^^^ mul11 x ^^^ mul13 x = x
    ∧ mul9 x ^^^ mul14 (mul3 x) ^^^ mul11 (xtime x) ^^^ mul13 x = 0
    ∧ mul9 x ^^^ mul14 x ^^^ mul11 (mul3 x) ^^^ mul13 (xtime x) = 0 := by decide

theorem mix_entries' : ∀ x : Byte,
    (mul13 (xtime x) ^^^ mul9 x ^^^ mul14 x ^^^ mul11 (mul3 x) = 0
    ∧ mul13 (mul3 x) ^^^ mul9 (xtime x) ^^^ mul14 x ^^^ mul11 x = 0
    ∧ mul13 x ^^^ mul9 (mul3 x) ^^^ mul14 (xtime x) ^^^ mul11 x = x
    ∧ mul13 x ^^^ mul9 x ^^^ mul14 (mul3 x) ^^^ mul11 (xtime x) = 0)
    ∧ mul11 (xtime x) ^^^ mul13 x ^^^ mul9 x ^^^ mul14 (mul3 x) = 0
    ∧ mul11 (mul3 x) ^^^ mul13 (xtime x) ^^^ mul9 x ^^^ mul14 x = 0
    ∧ mul11 x ^^^ mul13 (mul3 x) ^^^ mul9 (xtime x) ^^^ mul14 x = 0
    ∧ mul11 x ^^^ mul13 x ^^^ mul9 (mul3 x) ^^^ mul14 (xtime x) = x := by decide

theorem invMix_entries : ∀ x : Byte,
    (xtime (mul14 x) ^^^ mul3 (mul9 x) ^^^ mul13 x ^^^ mul11 x = x
    ∧ xtime (mul11 x) ^^^ mul3 (mul14 x) ^^^ mul9 x ^^^ mul13 x = 0
    ∧ xtime (mul13 x) ^^^ mul3 (mul11 x) ^^^ mul14 x ^^^ mul9 x = 0
    ∧ xtime (mul9 x) ^^^ mul3 (mul13 x) ^^^ mul11 x ^^^ mul14 x = 0)
    ∧ mul14 x ^^^ xtime (mul9 x) ^^^ mul3 (mul13 x) ^^^ mul11 x = 0
    ∧ mul11 x ^^^ xtime (mul14 x) ^^^ mul3 (mul9 x) ^^^ mul13 x = x
    ∧ mul13 x ^^^ xtime (mul11 x) ^^^ mul3 (mul14 x) ^^^ mul9 x = 0
    ∧ mul9 x ^^^ xtime (mul13 x) ^^^ mul3 (mul11 x) ^^^ mul14 x = 0 := by decide

theorem invMix_entries' : ∀ x : Byte,
    (mul14 x ^^^ mul9 x ^^^ xtime (mul13 x) ^^^ mul3 (mul11 x) = 0
    ∧ mul11 x ^^^ mul14 x ^^^ xtime (mul9 x) ^^^ mul3 (mul13 x) = 0
    ∧ mul13 x ^^^ mul11 x ^^^ xtime (mul14 x) ^^^ mul3 (mul9 x) = x
    ∧ mul9 x ^^^ mul13 x ^^^ xtime (mul11 x) ^^^ mul3 (mul14 x) = 0)
    ∧ mul3 (mul14 x) ^^^ mul9 x ^^^ mul13 x ^^^ xtime (mul11 x) = 0
    ∧ mul3 (mul11 x) ^^^ mul14 x ^^^ mul9 x ^^^ xtime (mul13 x) = 0
    ∧ mul3 (mul13 x) ^^^ mul11 x ^^^ mul14 x ^^^ xtime (mul9 x) = 0
    ∧ mul3 (mul9 x) ^^^ mul13 x ^^^ mul11 x ^^^ xtime (mul14 x) = x := by decide

theorem invMixColumns_mixColumns (x : List Byte) : invMixColumns (mixColumns x) = x := by
  induction x using mixColumns.induct with
  | case1 a b c d rest ih =>
    simp only [mixColumns, invMixColumns, ih, mul9_xor, mul11_xor, mul13_xor, mul14_xor, List.cons.injEq, and_true]
    refine ⟨?_, ?_, ?_, ?_⟩ <;> rw [xor_regroup] <;> simp [mix_entries, mix_entries']
  | case2 x h => rw [mixColumns, invMixColumns] <;> exact h

theorem mixColumns_invMixColumns (x : List Byte) : mixColumns (invMixColumns x) = x := by
  induction x using invMixColumns.induct with
  | case1 a b c d rest ih =>
    simp only [mixColumns, invMixColumns, ih, xtime_xor, mul3_xor, List.cons.injEq, and_true]
    refine ⟨?_, ?_, ?_, ?_⟩ <;> rw [xor_regroup] <;> simp [invMix_entries, invMix_entries']
  | case2 x h => rw [invMixColumns, mixColumns] <;> exact h

theorem invMixBlock_mixBlock (x : Block) : invMixBlock (mixBlock x) = x :=
  Bytes.ext_bytes (invMixColumns_mixColumns x.bytes)

theorem mixBlock_invMixBlock (x : Block) : mixBlock (invMixBlock x) = x :=
  Bytes.ext_bytes (mixColumns_invMixColumns x.bytes)

theorem decRounds_encRounds (rks : List Block) (x : Block) : decRounds rks (encRounds rks x) = x := by
  induction rks generalizing x with
  | nil => rfl
  | cons rk rks ih =>
    cases rks with
    | nil => simp [encRounds, decRounds, invSubShift_subShift]
    | cons r rs => rw [encRounds, decRounds, ih, Bytes.xor_cancel_right, invMixBlock_mixBlock, invSubShift_subShift] <;> simp

theorem encRounds_decRounds (rks : List Block) (x : Block) : encRounds rks (decRounds rks x) = x := by
  induction rks with
  | nil => rfl
  | cons rk rks ih =>
    cases rks with
    | nil => simp [encRounds, decRounds, subShift_invSubShift]
    | cons r rs => rw [decRounds, encRounds, subShift_invSubShift, mixBlock_invMixBlock, Bytes.xor_cancel_right, ih] <;> simp

end Sys2Proof.Aes
end

