-- ==== Sys2Proof/Laws/Checks.lean ====
section
/-! SUPPORT. The machine's checks are the checks of the spec's tables, and what a command that passes them may rely
on. -/

namespace Sys2Proof.Machine

open Sys2Proof.Safety

theorem outlen_eq (i : Instr) (s : State) : outlen i s = outLength i s := by
  cases i <;> rfl

theorem usesNonce_eq (i : Instr) : usesNonce i = usesNonceRegion i := by
  cases i <;> rfl

theorem profile_src_eq (i : Instr) : (profile i).src = usesSource i := by cases i <;> rfl

theorem profile_aad_eq (i : Instr) : (profile i).aad = isAead i := by cases i <;> rfl

theorem profile_tagOut_eq (i : Instr) : (profile i).tagOut = makesTag i := by cases i <;> rfl

theorem profile_gfrOut_eq (i : Instr) : (profile i).gfrOut = isGf i := by cases i <;> rfl

theorem streamFamily_eq (i : Instr) : streamFamily i = if isStream i then some (familyOf i) else none := by
  cases i <;> first | rfl | (simp only [streamFamily, cfbFamily, isStream, familyOf]; split <;> grind)

theorem nokeyFails_eq (i : Instr) (s : State) : nokeyFails i s = failsNokey i s := by cases i <;> rfl

theorem keylenOf_isNone (n : Nat) : (KeyLen.ofNat? n).isNone = !([16, 24, 32, 64].contains n) := by
  unfold KeyLen.ofNat?
  grind

theorem keylenFails_eq (i : Instr) (s : State) : keylenFails i s = failsKeylen i s := by
  cases i <;>
    first
    | exact keylenOf_isNone _
    | rfl
    | (simp only [keylenFails, failsKeylen, profile, Profile.cipher, Profile.aead, Profile.mac, Profile.nothing, keyed]
       cases s.kc.klen <;> rfl)

theorem tagLen_ccm (t : Nat) :
    (decide (4 ≤ t) && decide (t ≤ 16) && t % 2 == 0) = [4, 6, 8, 10, 12, 14, 16].contains t := by
  by_cases h : t ≤ 16
  · revert h; revert t; decide
  · grind

theorem paramFails_eq (i : Instr) : paramFails i = failsParam i := by
  cases i <;>
    simp only [paramFails, failsParam, profile, Profile.cipher, Profile.aead, Profile.mac, Profile.nothing, Instr.fields,
      gt_iff_lt, Bool.decide_and, if_true, if_false, Bool.false_eq_true, ← tagLen_ccm] <;> grind

theorem stateFails_eq (i : Instr) (s : State) : stateFails i s = failsState i s := by
  unfold stateFails failsState
  rw [streamFamily_eq]
  cases h : isStream i <;> simp

theorem nonceFails_eq (i : Instr) (s : State) : nonceFails i s = failsNonce i s := by
  cases i <;>
    simp only [nonceFails, failsNonce, profile, Profile.cipher, Profile.aead, Profile.mac, Profile.nothing, Instr.fields,
      isStream, Bool.decide_and, Bool.true_and, Bool.false_and, ge_iff_le] <;> grind

theorem segmentSize_eq (p : Nat) : segmentSize p = segmentBytes p := by
  unfold segmentSize segmentBytes; split <;> grind

theorem lenFails_eq (i : Instr) (s : State) : lenFails i s = failsLen i s := by
  cases i <;>
    simp only [lenFails, failsLen, profile, Profile.cipher, Profile.aead, Profile.mac, Profile.nothing, Instr.fields,
      segmentSize_eq] <;> grind

theorem inRange_eq (s : State) (p n : Nat) : Region.inRange ⟨p, n⟩ s.msgSize = fits s p n := by
  simp only [Region.inRange, fits]; grind

theorem rangeFails_eq (i : Instr) (s : State) : rangeFails i s = failsRange i s := by
  simp only [rangeFails, failsRange, State.srcRegion, State.aadRegion, State.nonceRegion, dstRegion, inRange_eq,
    profile_src_eq, profile_aad_eq, usesNonce_eq, outlen_eq]

theorem overlaps_eq (p n q m : Nat) : Region.overlaps ⟨p, n⟩ ⟨q, m⟩ = meets p n q m := by
  simp [Region.overlaps, meets, Bool.and_assoc]

theorem overlapFails_eq (i : Instr) (s : State) : overlapFails i s = failsOverlap i s := by
  simp only [overlapFails, failsOverlap, State.srcRegion, State.aadRegion, State.nonceRegion, dstRegion, overlaps_eq,
    profile_src_eq, profile_aad_eq, usesNonce_eq, outlen_eq]
  congr 2
  grind

/-- The machine's checks report the first failing check of the spec's tables (R502). -/
theorem check_eq (i : Instr) (s : State) : check i s = firstFailure i s := by
  simp only [check, firstFailure, checksInOrder, nokeyFails_eq, keylenFails_eq, paramFails_eq, stateFails_eq,
    nonceFails_eq, lenFails_eq, rangeFails_eq, overlapFails_eq, List.find?_cons, List.find?_nil]
  cases failsNokey i s <;> cases failsKeylen i s <;> cases failsParam i <;> cases failsState i s <;>
    cases failsNonce i s <;> cases failsLen i s <;> cases failsRange i s <;> cases failsOverlap i s <;> rfl

/-- A command passes exactly when none of the eight checks fails. -/
theorem passes_iff {i : Instr} {s : State} : Passes i s ↔
    failsNokey i s = false ∧ failsKeylen i s = false ∧ failsParam i = false ∧ failsState i s = false ∧
      failsNonce i s = false ∧ failsLen i s = false ∧ failsRange i s = false ∧ failsOverlap i s = false := by
  simp [Passes, firstFailure, checksInOrder]

theorem firstFailure_ne (i : Instr) (s : State) (c : ErrCode) (h : firstFailure i s = some c) :
    c ≠ .none ∧ c ≠ .abort := by
  rw [← check_eq] at h
  unfold check at h
  grind

/-- The error end of a command (R503). -/
theorem runChecked_error {i : Instr} {s : State} {c : ErrCode} (h : firstFailure i s = some c) (ok : State) :
    runChecked i s ok = .next (errored s c) := by
  simp only [runChecked, check_eq, h]; rfl

theorem runChecked_pass {i : Instr} {s : State} (h : Passes i s) (ok : State) : runChecked i s ok = .next ok := by
  simp only [runChecked, check_eq, (h : firstFailure i s = none)]

/-- What the checks read: the latched pointers, lengths and KEYLEN, and the visible part of `KC` and `ST`. -/
theorem firstFailure_congr {i : Instr} {s s' : State} (h1 : s'.cl.keylen = s.cl.keylen)
    (h2 : s'.cl.srcPtr = s.cl.srcPtr) (h3 : s'.cl.srcLen = s.cl.srcLen) (h4 : s'.cl.dstPtr = s.cl.dstPtr)
    (h5 : s'.cl.aadPtr = s.cl.aadPtr) (h6 : s'.cl.aadLen = s.cl.aadLen) (h7 : s'.cl.noncePtr = s.cl.noncePtr)
    (h8 : s'.cl.nonceLen = s.cl.nonceLen) (h9 : s'.kc.valid = s.kc.valid) (h10 : s'.kc.klen = s.kc.klen)
    (h11 : s'.st.valid = s.st.valid) (h12 : s'.st.smode = s.st.smode) (h13 : s'.msgSize = s.msgSize) :
    firstFailure i s' = firstFailure i s := by
  have ho : outLength i s' = outLength i s := by simp only [outLength, h3]
  have hk : failsKeylen i s' = failsKeylen i s := by simp only [failsKeylen, h1, h10]
  have hn : failsNonce i s' = failsNonce i s := by simp only [failsNonce, h8]
  have hl : failsLen i s' = failsLen i s := by simp only [failsLen, h3]
  simp only [firstFailure, checksInOrder, hk, hn, hl, failsNokey, failsState, failsRange, failsOverlap, fits, ho,
    h2, h3, h4, h5, h6, h7, h8, h9, h11, h12, h13]

end Sys2Proof.Machine
end

