-- ==== Sys2Proof/Laws/Encoding.lean ====
section
/-! SUPPORT. The command word: its mask, its fields, and what the decoder and the encoder make of them. -/

namespace Sys2Proof

/-- The mask of R150 keeps bits 7:0, 15:13 and 31:21. -/
theorem and_mask (n : Nat) (h : n < 2 ^ 32) :
    n &&& 0xFFE0E0FF = n % 2 ^ 8 + 2 ^ 13 * (n / 2 ^ 13 % 2 ^ 3) + 2 ^ 21 * (n / 2 ^ 21 % 2 ^ 11) := by
  have h1 : n % 2 ^ 8 + 2 ^ 13 * (n / 2 ^ 13 % 2 ^ 3) = 2 ^ 13 * (n / 2 ^ 13 % 2 ^ 3) ||| n % 2 ^ 8 := by
    rw [Nat.add_comm, Nat.two_pow_add_eq_or_of_lt]; omega
  rw [Nat.add_comm, Nat.two_pow_add_eq_or_of_lt (by omega), h1]
  apply Nat.eq_of_testBit_eq
  intro j
  rw [Nat.testBit_and, Nat.testBit_or, Nat.testBit_or, Nat.testBit_two_pow_mul, Nat.testBit_two_pow_mul,
    Nat.testBit_mod_two_pow, Nat.testBit_mod_two_pow, Nat.testBit_mod_two_pow, Nat.testBit_div_two_pow,
    Nat.testBit_div_two_pow]
  by_cases hj : j < 32
  · have hm : ∀ j < 32, Nat.testBit 0xFFE0E0FF j = (decide (j < 8) || decide (13 ≤ j ∧ j < 16) || decide (21 ≤ j)) := by
      decide
    rw [hm j hj]
    by_cases h8 : j < 8
    · simp [h8, show ¬ 13 ≤ j by omega, show ¬ 21 ≤ j by omega]
    · by_cases h13 : 13 ≤ j
      · by_cases h16 : j < 16
        · simp [h8, h13, h16, show ¬ 21 ≤ j by omega, show j - 13 < 3 by omega, show j - 13 + 13 = j by omega]
        · by_cases h21 : 21 ≤ j
          · simp [h8, h13, h16, h21, show j - 21 < 11 by omega, show ¬ j - 13 < 3 by omega, show j - 21 + 21 = j by omega]
          · simp [h8, h13, h16, h21, show ¬ j - 13 < 3 by omega]
      · simp [h8, h13, show ¬ 21 ≤ j by omega]
  · rw [Nat.testBit_lt_two_pow (lt_of_lt_of_le h (Nat.pow_le_pow_right (by decide) (by omega)))]
    simp [show ¬ j < 8 by omega, show ¬ j - 13 < 3 by omega, show ¬ j - 21 < 11 by omega]

/-- A word selects the row of an opcode below 0x40 exactly when it has no reserved bit set and holds it in OP. -/
theorem mask_eq_iff (w : Word) {op : Nat} (h : op < 64) :
    w &&& 0xFFE0E0FF#32 = BitVec.ofNat 32 op ↔ reservedSet w = false ∧ bitField w 0 6 = op := by
  have hn := w.isLt
  rw [← BitVec.toNat_inj]
  simp only [BitVec.toNat_and, BitVec.toNat_ofNat, reservedSet, bitField, Bool.or_eq_false_iff, bne_eq_false_iff_eq]
  rw [show 4292927743 % 2 ^ 32 = 0xFFE0E0FF from rfl, and_mask _ hn]
  omega

theorem reservedSet_iff (w : Word) : reservedSet w = true ↔ w &&& 0xFFE0E0C0#32 ≠ 0 := by
  have hn := w.isLt
  have : w &&& 0xFFE0E0C0#32 = 0 ↔ reservedSet w = false := by
    rw [← BitVec.toNat_inj]
    have h1 : (w &&& 0xFFE0E0C0#32).toNat = (w.toNat - w.toNat % 2 ^ 6) &&& 0xFFE0E0FF := by
      apply Nat.eq_of_testBit_eq
      intro j
      have : w.toNat - w.toNat % 2 ^ 6 = 2 ^ 6 * (w.toNat / 2 ^ 6) := by omega
      rw [this, BitVec.toNat_and, Nat.testBit_and, Nat.testBit_and, Nat.testBit_two_pow_mul, Nat.testBit_div_two_pow]
      by_cases h6 : 6 ≤ j
      · by_cases hj : j < 32
        · have hm : ∀ j < 32, 6 ≤ j → Nat.testBit 0xFFE0E0FF j = Nat.testBit (0xFFE0E0C0#32).toNat j := by decide
          simp [h6, hm j hj h6, show j - 6 + 6 = j by omega]
        · rw [Nat.testBit_lt_two_pow (lt_of_lt_of_le hn (Nat.pow_le_pow_right (by decide) (by omega)))]
          simp [h6, show j - 6 + 6 = j by omega]
          intro hc
          rw [Nat.testBit_lt_two_pow (lt_of_lt_of_le hn (Nat.pow_le_pow_right (by decide) (by omega)))] at hc
          cases hc
      · have hm : ∀ j < 6, Nat.testBit (0xFFE0E0C0#32).toNat j = false := by decide
        simp [h6]
        intro _
        exact hm j (by omega)
    rw [h1, and_mask _ (by omega)]
    simp only [reservedSet, bitField, Bool.or_eq_false_iff, bne_eq_false_iff_eq]
    rw [show BitVec.toNat (0 : Word) = 0 from rfl]
    omega
  rw [Ne, this, Bool.not_eq_false]

theorem op_toNat (w : Word) : (w &&& 0x3F#32).toNat = bitField w 0 6 := by
  simp only [bitField, BitVec.toNat_and, BitVec.toNat_ofNat]
  rw [show 63 % 2 ^ 32 = 2 ^ 6 - 1 from rfl, Nat.and_two_pow_sub_one_eq_mod, pow_zero, Nat.div_one]

theorem instrOfOp_opcode {op : Nat} {f : Fields} {i : Instr} (h : instrOfOp op f = some i) :
    i.opcode = op ∧ i.fields = f := by
  unfold instrOfOp at h
  split at h <;> first | (cases h; exact ⟨rfl, rfl⟩) | cases h

theorem instrOfOp_of_opcode (i : Instr) : instrOfOp i.opcode i.fields = some i := by cases i <;> rfl

theorem opcode_lt (i : Instr) : i.opcode < 32 := by cases i <;> simp [Instr.opcode]

/-- The three parts of an encoded word. -/
theorem encode_fields {i : Instr} (h : i.wf = true) :
    reservedSet (encode i) = false ∧ bitField (encode i) 0 6 = i.opcode ∧ wordFields (encode i) = i.fields := by
  have h1 := opcode_lt i
  simp only [Instr.wf, Fields.wf, Bool.and_eq_true, decide_eq_true_eq] at h
  generalize hop : i.opcode = op at h1
  generalize hf : i.fields = f at h
  obtain ⟨t, p, ct⟩ := f
  have hn : (encode i).toNat = op + 2 ^ 8 * t + 2 ^ 16 * p + 2 ^ 20 * (if ct then 1 else 0) := by
    rw [encode, BitVec.toNat_ofNat, hop, hf, Nat.mod_eq_of_lt]
    simp only at h ⊢
    split <;> omega
  simp only [reservedSet, wordFields, bitField, hn, Bool.or_eq_false_iff, bne_eq_false_iff_eq, Fields.mk.injEq]
  simp only at h
  cases ct <;> simp only [Bool.false_eq_true, if_false, if_true] <;>
    refine ⟨⟨⟨by omega, by omega⟩, by omega⟩, by omega, by omega, by omega, ?_⟩ <;> simp <;> omega

theorem decodeWord_ok {w : Word} {i : Instr} (h : decodeWord w = .ok i) :
    reservedSet w = false ∧ i.opcode = bitField w 0 6 ∧ i.fields = wordFields w := by
  unfold decodeWord at h
  split at h
  · cases h
  · rename_i hr
    split at h
    · rename_i j hj
      cases h
      exact ⟨by simpa using hr, instrOfOp_opcode hj⟩
    · cases h

end Sys2Proof
end

