-- ==== Sys2Proof/Laws/State.lean ====
section
/-! SUPPORT. One lemma per field per update of the state, so that no later proof unfolds a record update. -/

namespace Sys2Proof.Machine

/-! ## memWrite -/

@[simp] theorem memWrite_cfg (s : State) (a : Nat) (v : List Byte) : (s.memWrite a v).cfg = s.cfg := rfl
@[simp] theorem memWrite_irqEn (s : State) (a : Nat) (v : List Byte) : (s.memWrite a v).irqEn = s.irqEn := rfl
@[simp] theorem memWrite_seq (s : State) (a : Nat) (v : List Byte) : (s.memWrite a v).seq = s.seq := rfl
@[simp] theorem memWrite_done (s : State) (a : Nat) (v : List Byte) : (s.memWrite a v).done = s.done := rfl
@[simp] theorem memWrite_err (s : State) (a : Nat) (v : List Byte) : (s.memWrite a v).err = s.err := rfl
@[simp] theorem memWrite_authfail (s : State) (a : Nat) (v : List Byte) : (s.memWrite a v).authfail = s.authfail := rfl
@[simp] theorem memWrite_busyerr (s : State) (a : Nat) (v : List Byte) : (s.memWrite a v).busyerr = s.busyerr := rfl
@[simp] theorem memWrite_errcode (s : State) (a : Nat) (v : List Byte) : (s.memWrite a v).errcode = s.errcode := rfl
@[simp] theorem memWrite_cmd (s : State) (a : Nat) (v : List Byte) : (s.memWrite a v).cmd = s.cmd := rfl
@[simp] theorem memWrite_keylen (s : State) (a : Nat) (v : List Byte) : (s.memWrite a v).keylen = s.keylen := rfl
@[simp] theorem memWrite_srcPtr (s : State) (a : Nat) (v : List Byte) : (s.memWrite a v).srcPtr = s.srcPtr := rfl
@[simp] theorem memWrite_srcLen (s : State) (a : Nat) (v : List Byte) : (s.memWrite a v).srcLen = s.srcLen := rfl
@[simp] theorem memWrite_dstPtr (s : State) (a : Nat) (v : List Byte) : (s.memWrite a v).dstPtr = s.dstPtr := rfl
@[simp] theorem memWrite_aadPtr (s : State) (a : Nat) (v : List Byte) : (s.memWrite a v).aadPtr = s.aadPtr := rfl
@[simp] theorem memWrite_aadLen (s : State) (a : Nat) (v : List Byte) : (s.memWrite a v).aadLen = s.aadLen := rfl
@[simp] theorem memWrite_noncePtr (s : State) (a : Nat) (v : List Byte) : (s.memWrite a v).noncePtr = s.noncePtr := rfl
@[simp] theorem memWrite_nonceLen (s : State) (a : Nat) (v : List Byte) : (s.memWrite a v).nonceLen = s.nonceLen := rfl
@[simp] theorem memWrite_rxtlen (s : State) (a : Nat) (v : List Byte) : (s.memWrite a v).rxtlen = s.rxtlen := rfl
@[simp] theorem memWrite_outLen (s : State) (a : Nat) (v : List Byte) : (s.memWrite a v).outLen = s.outLen := rfl
@[simp] theorem memWrite_key (s : State) (a : Nat) (v : List Byte) : (s.memWrite a v).key = s.key := rfl
@[simp] theorem memWrite_tag (s : State) (a : Nat) (v : List Byte) : (s.memWrite a v).tag = s.tag := rfl
@[simp] theorem memWrite_gfa (s : State) (a : Nat) (v : List Byte) : (s.memWrite a v).gfa = s.gfa := rfl
@[simp] theorem memWrite_gfb (s : State) (a : Nat) (v : List Byte) : (s.memWrite a v).gfb = s.gfb := rfl
@[simp] theorem memWrite_gfr (s : State) (a : Nat) (v : List Byte) : (s.memWrite a v).gfr = s.gfr := rfl
@[simp] theorem memWrite_kc (s : State) (a : Nat) (v : List Byte) : (s.memWrite a v).kc = s.kc := rfl
@[simp] theorem memWrite_st (s : State) (a : Nat) (v : List Byte) : (s.memWrite a v).st = s.st := rfl
@[simp] theorem memWrite_cl (s : State) (a : Nat) (v : List Byte) : (s.memWrite a v).cl = s.cl := rfl
@[simp] theorem memWrite_msg (s : State) (a : Nat) (v : List Byte) :
    (s.memWrite a v).msg = Memory.writeBytes s.msg a v := rfl
@[simp] theorem memWrite_msgDraw (s : State) (a : Nat) (v : List Byte) : (s.memWrite a v).msgDraw = s.msgDraw := rfl
@[simp] theorem memWrite_draws (s : State) (a : Nat) (v : List Byte) : (s.memWrite a v).draws = s.draws := rfl
@[simp] theorem memWrite_inputs (s : State) (a : Nat) (v : List Byte) : (s.memWrite a v).inputs = s.inputs := rfl
@[simp] theorem memWrite_response (s : State) (a : Nat) (v : List Byte) : (s.memWrite a v).response = s.response := rfl

/-! ## raiseError -/

@[simp] theorem raiseError_cfg (c : ErrCode) (s : State) : (raiseError c s).cfg = s.cfg := rfl
@[simp] theorem raiseError_irqEn (c : ErrCode) (s : State) : (raiseError c s).irqEn = s.irqEn := rfl
@[simp] theorem raiseError_seq (c : ErrCode) (s : State) : (raiseError c s).seq = .idle := rfl
@[simp] theorem raiseError_done (c : ErrCode) (s : State) : (raiseError c s).done = true := rfl
@[simp] theorem raiseError_err (c : ErrCode) (s : State) : (raiseError c s).err = true := rfl
@[simp] theorem raiseError_authfail (c : ErrCode) (s : State) : (raiseError c s).authfail = false := rfl
@[simp] theorem raiseError_busyerr (c : ErrCode) (s : State) : (raiseError c s).busyerr = s.busyerr := rfl
@[simp] theorem raiseError_errcode (c : ErrCode) (s : State) : (raiseError c s).errcode = c := rfl
@[simp] theorem raiseError_cmd (c : ErrCode) (s : State) : (raiseError c s).cmd = s.cmd := rfl
@[simp] theorem raiseError_keylen (c : ErrCode) (s : State) : (raiseError c s).keylen = s.keylen := rfl
@[simp] theorem raiseError_srcPtr (c : ErrCode) (s : State) : (raiseError c s).srcPtr = s.srcPtr := rfl
@[simp] theorem raiseError_srcLen (c : ErrCode) (s : State) : (raiseError c s).srcLen = s.srcLen := rfl
@[simp] theorem raiseError_dstPtr (c : ErrCode) (s : State) : (raiseError c s).dstPtr = s.dstPtr := rfl
@[simp] theorem raiseError_aadPtr (c : ErrCode) (s : State) : (raiseError c s).aadPtr = s.aadPtr := rfl
@[simp] theorem raiseError_aadLen (c : ErrCode) (s : State) : (raiseError c s).aadLen = s.aadLen := rfl
@[simp] theorem raiseError_noncePtr (c : ErrCode) (s : State) : (raiseError c s).noncePtr = s.noncePtr := rfl
@[simp] theorem raiseError_nonceLen (c : ErrCode) (s : State) : (raiseError c s).nonceLen = s.nonceLen := rfl
@[simp] theorem raiseError_rxtlen (c : ErrCode) (s : State) : (raiseError c s).rxtlen = s.rxtlen := rfl
@[simp] theorem raiseError_outLen (c : ErrCode) (s : State) : (raiseError c s).outLen = s.outLen := rfl
@[simp] theorem raiseError_key (c : ErrCode) (s : State) : (raiseError c s).key = s.key := rfl
@[simp] theorem raiseError_tag (c : ErrCode) (s : State) : (raiseError c s).tag = s.tag := rfl
@[simp] theorem raiseError_gfa (c : ErrCode) (s : State) : (raiseError c s).gfa = s.gfa := rfl
@[simp] theorem raiseError_gfb (c : ErrCode) (s : State) : (raiseError c s).gfb = s.gfb := rfl
@[simp] theorem raiseError_gfr (c : ErrCode) (s : State) : (raiseError c s).gfr = s.gfr := rfl
@[simp] theorem raiseError_kc (c : ErrCode) (s : State) : (raiseError c s).kc = s.kc := rfl
@[simp] theorem raiseError_st (c : ErrCode) (s : State) : (raiseError c s).st = s.st := rfl
@[simp] theorem raiseError_cl (c : ErrCode) (s : State) : (raiseError c s).cl = s.cl := rfl
@[simp] theorem raiseError_msg (c : ErrCode) (s : State) : (raiseError c s).msg = s.msg := rfl
@[simp] theorem raiseError_msgDraw (c : ErrCode) (s : State) : (raiseError c s).msgDraw = s.msgDraw := rfl
@[simp] theorem raiseError_draws (c : ErrCode) (s : State) : (raiseError c s).draws = s.draws := rfl
@[simp] theorem raiseError_inputs (c : ErrCode) (s : State) : (raiseError c s).inputs = s.inputs := rfl
@[simp] theorem raiseError_response (c : ErrCode) (s : State) : (raiseError c s).response = s.response := rfl

/-! ## statusWrite -/

@[simp] theorem statusWrite_cfg (v : Word) (s : State) : (statusWrite v s).cfg = s.cfg := rfl
@[simp] theorem statusWrite_irqEn (v : Word) (s : State) : (statusWrite v s).irqEn = s.irqEn := rfl
@[simp] theorem statusWrite_seq (v : Word) (s : State) : (statusWrite v s).seq = s.seq := rfl
@[simp] theorem statusWrite_done (v : Word) (s : State) :
    (statusWrite v s).done = (s.done && !(bitField v 1 1 == 1)) := rfl
@[simp] theorem statusWrite_err (v : Word) (s : State) : (statusWrite v s).err = s.err := rfl
@[simp] theorem statusWrite_authfail (v : Word) (s : State) : (statusWrite v s).authfail = s.authfail := rfl
@[simp] theorem statusWrite_busyerr (v : Word) (s : State) :
    (statusWrite v s).busyerr = (s.busyerr && !(bitField v 4 1 == 1)) := rfl
@[simp] theorem statusWrite_errcode (v : Word) (s : State) : (statusWrite v s).errcode = s.errcode := rfl
@[simp] theorem statusWrite_cmd (v : Word) (s : State) : (statusWrite v s).cmd = s.cmd := rfl
@[simp] theorem statusWrite_keylen (v : Word) (s : State) : (statusWrite v s).keylen = s.keylen := rfl
@[simp] theorem statusWrite_srcPtr (v : Word) (s : State) : (statusWrite v s).srcPtr = s.srcPtr := rfl
@[simp] theorem statusWrite_srcLen (v : Word) (s : State) : (statusWrite v s).srcLen = s.srcLen := rfl
@[simp] theorem statusWrite_dstPtr (v : Word) (s : State) : (statusWrite v s).dstPtr = s.dstPtr := rfl
@[simp] theorem statusWrite_aadPtr (v : Word) (s : State) : (statusWrite v s).aadPtr = s.aadPtr := rfl
@[simp] theorem statusWrite_aadLen (v : Word) (s : State) : (statusWrite v s).aadLen = s.aadLen := rfl
@[simp] theorem statusWrite_noncePtr (v : Word) (s : State) : (statusWrite v s).noncePtr = s.noncePtr := rfl
@[simp] theorem statusWrite_nonceLen (v : Word) (s : State) : (statusWrite v s).nonceLen = s.nonceLen := rfl
@[simp] theorem statusWrite_rxtlen (v : Word) (s : State) : (statusWrite v s).rxtlen = s.rxtlen := rfl
@[simp] theorem statusWrite_outLen (v : Word) (s : State) : (statusWrite v s).outLen = s.outLen := rfl
@[simp] theorem statusWrite_key (v : Word) (s : State) : (statusWrite v s).key = s.key := rfl
@[simp] theorem statusWrite_tag (v : Word) (s : State) : (statusWrite v s).tag = s.tag := rfl
@[simp] theorem statusWrite_gfa (v : Word) (s : State) : (statusWrite v s).gfa = s.gfa := rfl
@[simp] theorem statusWrite_gfb (v : Word) (s : State) : (statusWrite v s).gfb = s.gfb := rfl
@[simp] theorem statusWrite_gfr (v : Word) (s : State) : (statusWrite v s).gfr = s.gfr := rfl
@[simp] theorem statusWrite_kc (v : Word) (s : State) : (statusWrite v s).kc = s.kc := rfl
@[simp] theorem statusWrite_st (v : Word) (s : State) : (statusWrite v s).st = s.st := rfl
@[simp] theorem statusWrite_cl (v : Word) (s : State) : (statusWrite v s).cl = s.cl := rfl
@[simp] theorem statusWrite_msg (v : Word) (s : State) : (statusWrite v s).msg = s.msg := rfl
@[simp] theorem statusWrite_msgDraw (v : Word) (s : State) : (statusWrite v s).msgDraw = s.msgDraw := rfl
@[simp] theorem statusWrite_draws (v : Word) (s : State) : (statusWrite v s).draws = s.draws := rfl
@[simp] theorem statusWrite_inputs (v : Word) (s : State) : (statusWrite v s).inputs = s.inputs := rfl
@[simp] theorem statusWrite_response (v : Word) (s : State) : (statusWrite v s).response = s.response := rfl

/-! ## start -/

@[simp] theorem start_cfg (s : State) : (start s).cfg = s.cfg := rfl
@[simp] theorem start_irqEn (s : State) : (start s).irqEn = s.irqEn := rfl
@[simp] theorem start_seq (s : State) : (start s).seq = .busy := rfl
@[simp] theorem start_done (s : State) : (start s).done = false := rfl
@[simp] theorem start_err (s : State) : (start s).err = false := rfl
@[simp] theorem start_authfail (s : State) : (start s).authfail = false := rfl
@[simp] theorem start_busyerr (s : State) : (start s).busyerr = s.busyerr := rfl
@[simp] theorem start_errcode (s : State) : (start s).errcode = .none := rfl
@[simp] theorem start_cmd (s : State) : (start s).cmd = s.cmd := rfl
@[simp] theorem start_keylen (s : State) : (start s).keylen = s.keylen := rfl
@[simp] theorem start_srcPtr (s : State) : (start s).srcPtr = s.srcPtr := rfl
@[simp] theorem start_srcLen (s : State) : (start s).srcLen = s.srcLen := rfl
@[simp] theorem start_dstPtr (s : State) : (start s).dstPtr = s.dstPtr := rfl
@[simp] theorem start_aadPtr (s : State) : (start s).aadPtr = s.aadPtr := rfl
@[simp] theorem start_aadLen (s : State) : (start s).aadLen = s.aadLen := rfl
@[simp] theorem start_noncePtr (s : State) : (start s).noncePtr = s.noncePtr := rfl
@[simp] theorem start_nonceLen (s : State) : (start s).nonceLen = s.nonceLen := rfl
@[simp] theorem start_rxtlen (s : State) : (start s).rxtlen = s.rxtlen := rfl
@[simp] theorem start_outLen (s : State) : (start s).outLen = 0 := rfl
@[simp] theorem start_key (s : State) : (start s).key = s.key := rfl
@[simp] theorem start_tag (s : State) : (start s).tag = s.tag := rfl
@[simp] theorem start_gfa (s : State) : (start s).gfa = s.gfa := rfl
@[simp] theorem start_gfb (s : State) : (start s).gfb = s.gfb := rfl
@[simp] theorem start_gfr (s : State) : (start s).gfr = s.gfr := rfl
@[simp] theorem start_kc (s : State) : (start s).kc = s.kc := rfl
@[simp] theorem start_st (s : State) : (start s).st = s.st := rfl
@[simp] theorem start_cl (s : State) : (start s).cl = latchOf s := rfl
@[simp] theorem start_msg (s : State) : (start s).msg = s.msg := rfl
@[simp] theorem start_msgDraw (s : State) : (start s).msgDraw = s.msgDraw := rfl
@[simp] theorem start_draws (s : State) : (start s).draws = s.draws := rfl
@[simp] theorem start_inputs (s : State) : (start s).inputs = s.inputs := rfl
@[simp] theorem start_response (s : State) : (start s).response = s.response := rfl

/-! ## commit -/

@[simp] theorem commit_cfg (i : Instr) (out : List Byte) (tag : Option (List Byte)) (gfr : Option Block) (s : State) :
    (commit i out tag gfr s).cfg = s.cfg := rfl
@[simp] theorem commit_irqEn (i : Instr) (out : List Byte) (tag : Option (List Byte)) (gfr : Option Block) (s : State) :
    (commit i out tag gfr s).irqEn = s.irqEn := rfl
@[simp] theorem commit_seq (i : Instr) (out : List Byte) (tag : Option (List Byte)) (gfr : Option Block) (s : State) :
    (commit i out tag gfr s).seq = .idle := rfl
@[simp] theorem commit_done (i : Instr) (out : List Byte) (tag : Option (List Byte)) (gfr : Option Block) (s : State) :
    (commit i out tag gfr s).done = true := rfl
@[simp] theorem commit_err (i : Instr) (out : List Byte) (tag : Option (List Byte)) (gfr : Option Block) (s : State) :
    (commit i out tag gfr s).err = false := rfl
@[simp] theorem commit_authfail (i : Instr) (out : List Byte) (tag : Option (List Byte)) (gfr : Option Block) (s : State) :
    (commit i out tag gfr s).authfail = false := rfl
@[simp] theorem commit_busyerr (i : Instr) (out : List Byte) (tag : Option (List Byte)) (gfr : Option Block) (s : State) :
    (commit i out tag gfr s).busyerr = s.busyerr := rfl
@[simp] theorem commit_errcode (i : Instr) (out : List Byte) (tag : Option (List Byte)) (gfr : Option Block) (s : State) :
    (commit i out tag gfr s).errcode = .none := rfl
@[simp] theorem commit_cmd (i : Instr) (out : List Byte) (tag : Option (List Byte)) (gfr : Option Block) (s : State) :
    (commit i out tag gfr s).cmd = s.cmd := rfl
@[simp] theorem commit_keylen (i : Instr) (out : List Byte) (tag : Option (List Byte)) (gfr : Option Block) (s : State) :
    (commit i out tag gfr s).keylen = s.keylen := rfl
@[simp] theorem commit_srcPtr (i : Instr) (out : List Byte) (tag : Option (List Byte)) (gfr : Option Block) (s : State) :
    (commit i out tag gfr s).srcPtr = s.srcPtr := rfl
@[simp] theorem commit_srcLen (i : Instr) (out : List Byte) (tag : Option (List Byte)) (gfr : Option Block) (s : State) :
    (commit i out tag gfr s).srcLen = s.srcLen := rfl
@[simp] theorem commit_dstPtr (i : Instr) (out : List Byte) (tag : Option (List Byte)) (gfr : Option Block) (s : State) :
    (commit i out tag gfr s).dstPtr = s.dstPtr := rfl
@[simp] theorem commit_aadPtr (i : Instr) (out : List Byte) (tag : Option (List Byte)) (gfr : Option Block) (s : State) :
    (commit i out tag gfr s).aadPtr = s.aadPtr := rfl
@[simp] theorem commit_aadLen (i : Instr) (out : List Byte) (tag : Option (List Byte)) (gfr : Option Block) (s : State) :
    (commit i out tag gfr s).aadLen = s.aadLen := rfl
@[simp] theorem commit_noncePtr (i : Instr) (out : List Byte) (tag : Option (List Byte)) (gfr : Option Block) (s : State) :
    (commit i out tag gfr s).noncePtr = s.noncePtr := rfl
@[simp] theorem commit_nonceLen (i : Instr) (out : List Byte) (tag : Option (List Byte)) (gfr : Option Block) (s : State) :
    (commit i out tag gfr s).nonceLen = s.nonceLen := rfl
@[simp] theorem commit_rxtlen (i : Instr) (out : List Byte) (tag : Option (List Byte)) (gfr : Option Block) (s : State) :
    (commit i out tag gfr s).rxtlen = s.rxtlen := rfl
@[simp] theorem commit_outLen (i : Instr) (out : List Byte) (tag : Option (List Byte)) (gfr : Option Block) (s : State) :
    (commit i out tag gfr s).outLen = BitVec.ofNat 32 (outlen i s) := rfl
@[simp] theorem commit_key (i : Instr) (out : List Byte) (tag : Option (List Byte)) (gfr : Option Block) (s : State) :
    (commit i out tag gfr s).key = s.key := rfl
@[simp] theorem commit_tag (i : Instr) (out : List Byte) (tag : Option (List Byte)) (gfr : Option Block) (s : State) :
    (commit i out tag gfr s).tag = match tag with | some t => tagWindow t | none => s.tag := rfl
@[simp] theorem commit_gfa (i : Instr) (out : List Byte) (tag : Option (List Byte)) (gfr : Option Block) (s : State) :
    (commit i out tag gfr s).gfa = s.gfa := rfl
@[simp] theorem commit_gfb (i : Instr) (out : List Byte) (tag : Option (List Byte)) (gfr : Option Block) (s : State) :
    (commit i out tag gfr s).gfb = s.gfb := rfl
@[simp] theorem commit_gfr (i : Instr) (out : List Byte) (tag : Option (List Byte)) (gfr : Option Block) (s : State) :
    (commit i out tag gfr s).gfr = match gfr with | some r => r | none => s.gfr := rfl
@[simp] theorem commit_kc (i : Instr) (out : List Byte) (tag : Option (List Byte)) (gfr : Option Block) (s : State) :
    (commit i out tag gfr s).kc = s.kc := rfl
@[simp] theorem commit_st (i : Instr) (out : List Byte) (tag : Option (List Byte)) (gfr : Option Block) (s : State) :
    (commit i out tag gfr s).st = s.st := rfl
@[simp] theorem commit_cl (i : Instr) (out : List Byte) (tag : Option (List Byte)) (gfr : Option Block) (s : State) :
    (commit i out tag gfr s).cl = s.cl := rfl
@[simp] theorem commit_msg (i : Instr) (out : List Byte) (tag : Option (List Byte)) (gfr : Option Block) (s : State) :
    (commit i out tag gfr s).msg = if 0 < outlen i s then Memory.writeBytes s.msg s.cl.dstPtr.toNat out else s.msg := rfl
@[simp] theorem commit_msgDraw (i : Instr) (out : List Byte) (tag : Option (List Byte)) (gfr : Option Block) (s : State) :
    (commit i out tag gfr s).msgDraw = s.msgDraw := rfl
@[simp] theorem commit_draws (i : Instr) (out : List Byte) (tag : Option (List Byte)) (gfr : Option Block) (s : State) :
    (commit i out tag gfr s).draws = s.draws := rfl
@[simp] theorem commit_inputs (i : Instr) (out : List Byte) (tag : Option (List Byte)) (gfr : Option Block) (s : State) :
    (commit i out tag gfr s).inputs = s.inputs := rfl
@[simp] theorem commit_response (i : Instr) (out : List Byte) (tag : Option (List Byte)) (gfr : Option Block) (s : State) :
    (commit i out tag gfr s).response = s.response := rfl

/-! ## authFail -/

@[simp] theorem authFail_cfg (i : Instr) (s : State) : (authFail i s).cfg = s.cfg := rfl
@[simp] theorem authFail_irqEn (i : Instr) (s : State) : (authFail i s).irqEn = s.irqEn := rfl
@[simp] theorem authFail_seq (i : Instr) (s : State) : (authFail i s).seq = .idle := rfl
@[simp] theorem authFail_done (i : Instr) (s : State) : (authFail i s).done = true := rfl
@[simp] theorem authFail_err (i : Instr) (s : State) : (authFail i s).err = false := rfl
@[simp] theorem authFail_authfail (i : Instr) (s : State) : (authFail i s).authfail = true := rfl
@[simp] theorem authFail_busyerr (i : Instr) (s : State) : (authFail i s).busyerr = s.busyerr := rfl
@[simp] theorem authFail_errcode (i : Instr) (s : State) : (authFail i s).errcode = .none := rfl
@[simp] theorem authFail_cmd (i : Instr) (s : State) : (authFail i s).cmd = s.cmd := rfl
@[simp] theorem authFail_keylen (i : Instr) (s : State) : (authFail i s).keylen = s.keylen := rfl
@[simp] theorem authFail_srcPtr (i : Instr) (s : State) : (authFail i s).srcPtr = s.srcPtr := rfl
@[simp] theorem authFail_srcLen (i : Instr) (s : State) : (authFail i s).srcLen = s.srcLen := rfl
@[simp] theorem authFail_dstPtr (i : Instr) (s : State) : (authFail i s).dstPtr = s.dstPtr := rfl
@[simp] theorem authFail_aadPtr (i : Instr) (s : State) : (authFail i s).aadPtr = s.aadPtr := rfl
@[simp] theorem authFail_aadLen (i : Instr) (s : State) : (authFail i s).aadLen = s.aadLen := rfl
@[simp] theorem authFail_noncePtr (i : Instr) (s : State) : (authFail i s).noncePtr = s.noncePtr := rfl
@[simp] theorem authFail_nonceLen (i : Instr) (s : State) : (authFail i s).nonceLen = s.nonceLen := rfl
@[simp] theorem authFail_rxtlen (i : Instr) (s : State) : (authFail i s).rxtlen = s.rxtlen := rfl
@[simp] theorem authFail_outLen (i : Instr) (s : State) : (authFail i s).outLen = 0 := rfl
@[simp] theorem authFail_key (i : Instr) (s : State) : (authFail i s).key = s.key := rfl
@[simp] theorem authFail_tag (i : Instr) (s : State) : (authFail i s).tag = s.tag := rfl
@[simp] theorem authFail_gfa (i : Instr) (s : State) : (authFail i s).gfa = s.gfa := rfl
@[simp] theorem authFail_gfb (i : Instr) (s : State) : (authFail i s).gfb = s.gfb := rfl
@[simp] theorem authFail_gfr (i : Instr) (s : State) : (authFail i s).gfr = s.gfr := rfl
@[simp] theorem authFail_kc (i : Instr) (s : State) : (authFail i s).kc = s.kc := rfl
@[simp] theorem authFail_st (i : Instr) (s : State) : (authFail i s).st = s.st := rfl
@[simp] theorem authFail_cl (i : Instr) (s : State) : (authFail i s).cl = s.cl := rfl
@[simp] theorem authFail_msg (i : Instr) (s : State) : (authFail i s).msg = msgZeroed i s := rfl
@[simp] theorem authFail_msgDraw (i : Instr) (s : State) : (authFail i s).msgDraw = s.msgDraw := rfl
@[simp] theorem authFail_draws (i : Instr) (s : State) : (authFail i s).draws = s.draws := rfl
@[simp] theorem authFail_inputs (i : Instr) (s : State) : (authFail i s).inputs = s.inputs := rfl
@[simp] theorem authFail_response (i : Instr) (s : State) : (authFail i s).response = s.response := rfl

/-! ## invalidateKey -/

@[simp] theorem invalidateKey_cfg (s : State) : (invalidateKey s).cfg = s.cfg := rfl
@[simp] theorem invalidateKey_irqEn (s : State) : (invalidateKey s).irqEn = s.irqEn := rfl
@[simp] theorem invalidateKey_seq (s : State) : (invalidateKey s).seq = s.seq := rfl
@[simp] theorem invalidateKey_done (s : State) : (invalidateKey s).done = s.done := rfl
@[simp] theorem invalidateKey_err (s : State) : (invalidateKey s).err = s.err := rfl
@[simp] theorem invalidateKey_authfail (s : State) : (invalidateKey s).authfail = s.authfail := rfl
@[simp] theorem invalidateKey_busyerr (s : State) : (invalidateKey s).busyerr = s.busyerr := rfl
@[simp] theorem invalidateKey_errcode (s : State) : (invalidateKey s).errcode = s.errcode := rfl
@[simp] theorem invalidateKey_cmd (s : State) : (invalidateKey s).cmd = s.cmd := rfl
@[simp] theorem invalidateKey_keylen (s : State) : (invalidateKey s).keylen = s.keylen := rfl
@[simp] theorem invalidateKey_srcPtr (s : State) : (invalidateKey s).srcPtr = s.srcPtr := rfl
@[simp] theorem invalidateKey_srcLen (s : State) : (invalidateKey s).srcLen = s.srcLen := rfl
@[simp] theorem invalidateKey_dstPtr (s : State) : (invalidateKey s).dstPtr = s.dstPtr := rfl
@[simp] theorem invalidateKey_aadPtr (s : State) : (invalidateKey s).aadPtr = s.aadPtr := rfl
@[simp] theorem invalidateKey_aadLen (s : State) : (invalidateKey s).aadLen = s.aadLen := rfl
@[simp] theorem invalidateKey_noncePtr (s : State) : (invalidateKey s).noncePtr = s.noncePtr := rfl
@[simp] theorem invalidateKey_nonceLen (s : State) : (invalidateKey s).nonceLen = s.nonceLen := rfl
@[simp] theorem invalidateKey_rxtlen (s : State) : (invalidateKey s).rxtlen = s.rxtlen := rfl
@[simp] theorem invalidateKey_outLen (s : State) : (invalidateKey s).outLen = s.outLen := rfl
@[simp] theorem invalidateKey_key (s : State) : (invalidateKey s).key = s.key := rfl
@[simp] theorem invalidateKey_tag (s : State) : (invalidateKey s).tag = s.tag := rfl
@[simp] theorem invalidateKey_gfa (s : State) : (invalidateKey s).gfa = s.gfa := rfl
@[simp] theorem invalidateKey_gfb (s : State) : (invalidateKey s).gfb = s.gfb := rfl
@[simp] theorem invalidateKey_gfr (s : State) : (invalidateKey s).gfr = s.gfr := rfl
@[simp] theorem invalidateKey_kc (s : State) : (invalidateKey s).kc = { s.kc with valid := false } := rfl
@[simp] theorem invalidateKey_st (s : State) : (invalidateKey s).st = { s.st with valid := false } := rfl
@[simp] theorem invalidateKey_cl (s : State) : (invalidateKey s).cl = s.cl := rfl
@[simp] theorem invalidateKey_msg (s : State) : (invalidateKey s).msg = s.msg := rfl
@[simp] theorem invalidateKey_msgDraw (s : State) : (invalidateKey s).msgDraw = s.msgDraw := rfl
@[simp] theorem invalidateKey_draws (s : State) : (invalidateKey s).draws = s.draws := rfl
@[simp] theorem invalidateKey_inputs (s : State) : (invalidateKey s).inputs = s.inputs := rfl
@[simp] theorem invalidateKey_response (s : State) : (invalidateKey s).response = s.response := rfl

/-! ## abortRun -/

@[simp] theorem abortRun_cfg (i : Instr) (s : State) : (abortRun i s).cfg = s.cfg := rfl
@[simp] theorem abortRun_irqEn (i : Instr) (s : State) : (abortRun i s).irqEn = s.irqEn := rfl
@[simp] theorem abortRun_seq (i : Instr) (s : State) : (abortRun i s).seq = .idle := rfl
@[simp] theorem abortRun_done (i : Instr) (s : State) : (abortRun i s).done = true := rfl
@[simp] theorem abortRun_err (i : Instr) (s : State) : (abortRun i s).err = true := rfl
@[simp] theorem abortRun_authfail (i : Instr) (s : State) : (abortRun i s).authfail = false := rfl
@[simp] theorem abortRun_busyerr (i : Instr) (s : State) : (abortRun i s).busyerr = s.busyerr := rfl
@[simp] theorem abortRun_errcode (i : Instr) (s : State) : (abortRun i s).errcode = .abort := rfl
@[simp] theorem abortRun_cmd (i : Instr) (s : State) : (abortRun i s).cmd = s.cmd := rfl
@[simp] theorem abortRun_keylen (i : Instr) (s : State) : (abortRun i s).keylen = s.keylen := rfl
@[simp] theorem abortRun_srcPtr (i : Instr) (s : State) : (abortRun i s).srcPtr = s.srcPtr := rfl
@[simp] theorem abortRun_srcLen (i : Instr) (s : State) : (abortRun i s).srcLen = s.srcLen := rfl
@[simp] theorem abortRun_dstPtr (i : Instr) (s : State) : (abortRun i s).dstPtr = s.dstPtr := rfl
@[simp] theorem abortRun_aadPtr (i : Instr) (s : State) : (abortRun i s).aadPtr = s.aadPtr := rfl
@[simp] theorem abortRun_aadLen (i : Instr) (s : State) : (abortRun i s).aadLen = s.aadLen := rfl
@[simp] theorem abortRun_noncePtr (i : Instr) (s : State) : (abortRun i s).noncePtr = s.noncePtr := rfl
@[simp] theorem abortRun_nonceLen (i : Instr) (s : State) : (abortRun i s).nonceLen = s.nonceLen := rfl
@[simp] theorem abortRun_rxtlen (i : Instr) (s : State) : (abortRun i s).rxtlen = s.rxtlen := rfl
@[simp] theorem abortRun_outLen (i : Instr) (s : State) : (abortRun i s).outLen = 0 := rfl
@[simp] theorem abortRun_key (i : Instr) (s : State) : (abortRun i s).key = s.key := rfl
@[simp] theorem abortRun_tag (i : Instr) (s : State) :
    (abortRun i s).tag = if (profile i).tagOut then Bytes.zero 16 else s.tag := rfl
@[simp] theorem abortRun_gfa (i : Instr) (s : State) : (abortRun i s).gfa = s.gfa := rfl
@[simp] theorem abortRun_gfb (i : Instr) (s : State) : (abortRun i s).gfb = s.gfb := rfl
@[simp] theorem abortRun_gfr (i : Instr) (s : State) :
    (abortRun i s).gfr = if (profile i).gfrOut then Bytes.zero 16 else s.gfr := rfl
@[simp] theorem abortRun_kc (i : Instr) (s : State) :
    (abortRun i s).kc = if ((profile i).key == .keyinit) then { s.kc with valid := false } else s.kc := rfl
@[simp] theorem abortRun_st (i : Instr) (s : State) :
    (abortRun i s).st = if (streamFamily i).isSome || (profile i).key == .keyinit then { s.st with valid := false } else s.st := rfl
@[simp] theorem abortRun_cl (i : Instr) (s : State) : (abortRun i s).cl = s.cl := rfl
@[simp] theorem abortRun_msg (i : Instr) (s : State) : (abortRun i s).msg = msgZeroed i s := rfl
@[simp] theorem abortRun_msgDraw (i : Instr) (s : State) : (abortRun i s).msgDraw = s.msgDraw := rfl
@[simp] theorem abortRun_draws (i : Instr) (s : State) : (abortRun i s).draws = s.draws := rfl
@[simp] theorem abortRun_inputs (i : Instr) (s : State) : (abortRun i s).inputs = s.inputs := rfl
@[simp] theorem abortRun_response (i : Instr) (s : State) : (abortRun i s).response = s.response := rfl

/-! ## keyinitState -/

@[simp] theorem keyinitState_cfg (kl : KeyLen) (s : State) : (keyinitState kl s).cfg = s.cfg := rfl
@[simp] theorem keyinitState_irqEn (kl : KeyLen) (s : State) : (keyinitState kl s).irqEn = s.irqEn := rfl
@[simp] theorem keyinitState_seq (kl : KeyLen) (s : State) : (keyinitState kl s).seq = s.seq := rfl
@[simp] theorem keyinitState_done (kl : KeyLen) (s : State) : (keyinitState kl s).done = s.done := rfl
@[simp] theorem keyinitState_err (kl : KeyLen) (s : State) : (keyinitState kl s).err = s.err := rfl
@[simp] theorem keyinitState_authfail (kl : KeyLen) (s : State) : (keyinitState kl s).authfail = s.authfail := rfl
@[simp] theorem keyinitState_busyerr (kl : KeyLen) (s : State) : (keyinitState kl s).busyerr = s.busyerr := rfl
@[simp] theorem keyinitState_errcode (kl : KeyLen) (s : State) : (keyinitState kl s).errcode = s.errcode := rfl
@[simp] theorem keyinitState_cmd (kl : KeyLen) (s : State) : (keyinitState kl s).cmd = s.cmd := rfl
@[simp] theorem keyinitState_keylen (kl : KeyLen) (s : State) : (keyinitState kl s).keylen = s.keylen := rfl
@[simp] theorem keyinitState_srcPtr (kl : KeyLen) (s : State) : (keyinitState kl s).srcPtr = s.srcPtr := rfl
@[simp] theorem keyinitState_srcLen (kl : KeyLen) (s : State) : (keyinitState kl s).srcLen = s.srcLen := rfl
@[simp] theorem keyinitState_dstPtr (kl : KeyLen) (s : State) : (keyinitState kl s).dstPtr = s.dstPtr := rfl
@[simp] theorem keyinitState_aadPtr (kl : KeyLen) (s : State) : (keyinitState kl s).aadPtr = s.aadPtr := rfl
@[simp] theorem keyinitState_aadLen (kl : KeyLen) (s : State) : (keyinitState kl s).aadLen = s.aadLen := rfl
@[simp] theorem keyinitState_noncePtr (kl : KeyLen) (s : State) : (keyinitState kl s).noncePtr = s.noncePtr := rfl
@[simp] theorem keyinitState_nonceLen (kl : KeyLen) (s : State) : (keyinitState kl s).nonceLen = s.nonceLen := rfl
@[simp] theorem keyinitState_rxtlen (kl : KeyLen) (s : State) : (keyinitState kl s).rxtlen = s.rxtlen := rfl
@[simp] theorem keyinitState_outLen (kl : KeyLen) (s : State) : (keyinitState kl s).outLen = s.outLen := rfl
@[simp] theorem keyinitState_key (kl : KeyLen) (s : State) : (keyinitState kl s).key = s.key := rfl
@[simp] theorem keyinitState_tag (kl : KeyLen) (s : State) : (keyinitState kl s).tag = s.tag := rfl
@[simp] theorem keyinitState_gfa (kl : KeyLen) (s : State) : (keyinitState kl s).gfa = s.gfa := rfl
@[simp] theorem keyinitState_gfb (kl : KeyLen) (s : State) : (keyinitState kl s).gfb = s.gfb := rfl
@[simp] theorem keyinitState_gfr (kl : KeyLen) (s : State) : (keyinitState kl s).gfr = s.gfr := rfl
@[simp] theorem keyinitState_kc (kl : KeyLen) (s : State) :
    (keyinitState kl s).kc = keyContextOf s.E s.draws kl (s.key.bytes.take kl.bytes) := rfl
@[simp] theorem keyinitState_st (kl : KeyLen) (s : State) :
    (keyinitState kl s).st = { s.st with valid := false } := rfl
@[simp] theorem keyinitState_cl (kl : KeyLen) (s : State) : (keyinitState kl s).cl = s.cl := rfl
@[simp] theorem keyinitState_msg (kl : KeyLen) (s : State) : (keyinitState kl s).msg = s.msg := rfl
@[simp] theorem keyinitState_msgDraw (kl : KeyLen) (s : State) : (keyinitState kl s).msgDraw = s.msgDraw := rfl
@[simp] theorem keyinitState_draws (kl : KeyLen) (s : State) : (keyinitState kl s).draws = s.draws + 1 := rfl
@[simp] theorem keyinitState_inputs (kl : KeyLen) (s : State) : (keyinitState kl s).inputs = s.inputs := rfl
@[simp] theorem keyinitState_response (kl : KeyLen) (s : State) : (keyinitState kl s).response = s.response := rfl

/-! ## softReset -/

@[simp] theorem softReset_cfg (s : State) : (softReset s).cfg = s.cfg := rfl
@[simp] theorem softReset_irqEn (s : State) : (softReset s).irqEn = false := rfl
@[simp] theorem softReset_seq (s : State) : (softReset s).seq = .idle := rfl
@[simp] theorem softReset_done (s : State) : (softReset s).done = false := rfl
@[simp] theorem softReset_err (s : State) : (softReset s).err = false := rfl
@[simp] theorem softReset_authfail (s : State) : (softReset s).authfail = false := rfl
@[simp] theorem softReset_busyerr (s : State) : (softReset s).busyerr = false := rfl
@[simp] theorem softReset_errcode (s : State) : (softReset s).errcode = .none := rfl
@[simp] theorem softReset_cmd (s : State) : (softReset s).cmd = 0 := rfl
@[simp] theorem softReset_keylen (s : State) : (softReset s).keylen = 0 := rfl
@[simp] theorem softReset_srcPtr (s : State) : (softReset s).srcPtr = 0 := rfl
@[simp] theorem softReset_srcLen (s : State) : (softReset s).srcLen = 0 := rfl
@[simp] theorem softReset_dstPtr (s : State) : (softReset s).dstPtr = 0 := rfl
@[simp] theorem softReset_aadPtr (s : State) : (softReset s).aadPtr = 0 := rfl
@[simp] theorem softReset_aadLen (s : State) : (softReset s).aadLen = 0 := rfl
@[simp] theorem softReset_noncePtr (s : State) : (softReset s).noncePtr = 0 := rfl
@[simp] theorem softReset_nonceLen (s : State) : (softReset s).nonceLen = 0 := rfl
@[simp] theorem softReset_rxtlen (s : State) : (softReset s).rxtlen = 0 := rfl
@[simp] theorem softReset_outLen (s : State) : (softReset s).outLen = 0 := rfl
@[simp] theorem softReset_key (s : State) : (softReset s).key = Bytes.zero 64 := rfl
@[simp] theorem softReset_tag (s : State) : (softReset s).tag = Bytes.zero 16 := rfl
@[simp] theorem softReset_gfa (s : State) : (softReset s).gfa = Bytes.zero 16 := rfl
@[simp] theorem softReset_gfb (s : State) : (softReset s).gfb = Bytes.zero 16 := rfl
@[simp] theorem softReset_gfr (s : State) : (softReset s).gfr = Bytes.zero 16 := rfl
@[simp] theorem softReset_kc (s : State) : (softReset s).kc = KeyContext.reset := rfl
@[simp] theorem softReset_st (s : State) : (softReset s).st = Stream.reset := rfl
@[simp] theorem softReset_cl (s : State) : (softReset s).cl = Latch.reset := rfl
@[simp] theorem softReset_msg (s : State) : (softReset s).msg = msgAfterSoftReset s := rfl
@[simp] theorem softReset_msgDraw (s : State) : (softReset s).msgDraw = s.msgDraw := rfl
@[simp] theorem softReset_draws (s : State) : (softReset s).draws = s.draws + 1 := rfl
@[simp] theorem softReset_inputs (s : State) : (softReset s).inputs = s.inputs := rfl
@[simp] theorem softReset_response (s : State) : (softReset s).response = s.response := rfl

/-! ## hardReset -/

@[simp] theorem hardReset_cfg (s : State) : (hardReset s).cfg = s.cfg := rfl
@[simp] theorem hardReset_irqEn (s : State) : (hardReset s).irqEn = false := rfl
@[simp] theorem hardReset_seq (s : State) : (hardReset s).seq = .idle := rfl
@[simp] theorem hardReset_done (s : State) : (hardReset s).done = false := rfl
@[simp] theorem hardReset_err (s : State) : (hardReset s).err = false := rfl
@[simp] theorem hardReset_authfail (s : State) : (hardReset s).authfail = false := rfl
@[simp] theorem hardReset_busyerr (s : State) : (hardReset s).busyerr = false := rfl
@[simp] theorem hardReset_errcode (s : State) : (hardReset s).errcode = .none := rfl
@[simp] theorem hardReset_cmd (s : State) : (hardReset s).cmd = 0 := rfl
@[simp] theorem hardReset_keylen (s : State) : (hardReset s).keylen = 0 := rfl
@[simp] theorem hardReset_srcPtr (s : State) : (hardReset s).srcPtr = 0 := rfl
@[simp] theorem hardReset_srcLen (s : State) : (hardReset s).srcLen = 0 := rfl
@[simp] theorem hardReset_dstPtr (s : State) : (hardReset s).dstPtr = 0 := rfl
@[simp] theorem hardReset_aadPtr (s : State) : (hardReset s).aadPtr = 0 := rfl
@[simp] theorem hardReset_aadLen (s : State) : (hardReset s).aadLen = 0 := rfl
@[simp] theorem hardReset_noncePtr (s : State) : (hardReset s).noncePtr = 0 := rfl
@[simp] theorem hardReset_nonceLen (s : State) : (hardReset s).nonceLen = 0 := rfl
@[simp] theorem hardReset_rxtlen (s : State) : (hardReset s).rxtlen = 0 := rfl
@[simp] theorem hardReset_outLen (s : State) : (hardReset s).outLen = 0 := rfl
@[simp] theorem hardReset_key (s : State) : (hardReset s).key = Bytes.zero 64 := rfl
@[simp] theorem hardReset_tag (s : State) : (hardReset s).tag = Bytes.zero 16 := rfl
@[simp] theorem hardReset_gfa (s : State) : (hardReset s).gfa = Bytes.zero 16 := rfl
@[simp] theorem hardReset_gfb (s : State) : (hardReset s).gfb = Bytes.zero 16 := rfl
@[simp] theorem hardReset_gfr (s : State) : (hardReset s).gfr = Bytes.zero 16 := rfl
@[simp] theorem hardReset_kc (s : State) : (hardReset s).kc = KeyContext.reset := rfl
@[simp] theorem hardReset_st (s : State) : (hardReset s).st = Stream.reset := rfl
@[simp] theorem hardReset_cl (s : State) : (hardReset s).cl = Latch.reset := rfl
@[simp] theorem hardReset_msg (s : State) : (hardReset s).msg = [] := rfl
@[simp] theorem hardReset_msgDraw (s : State) : (hardReset s).msgDraw = s.draws := rfl
@[simp] theorem hardReset_draws (s : State) : (hardReset s).draws = s.draws + 1 := rfl
@[simp] theorem hardReset_inputs (s : State) : (hardReset s).inputs = s.inputs := rfl
@[simp] theorem hardReset_response (s : State) : (hardReset s).response = none := rfl

end Sys2Proof.Machine
end

