-- ==== Sys2Proof/Laws/Memory.lean ====
section
/-! SUPPORT. What reading and writing MSG do, once for all: read after write, the canonical form, and the addresses
that are written. -/

namespace Sys2Proof.Machine

namespace Memory

theorem read_write (m : Memory) (a b : Nat) (v : Byte) :
    Memory.read (Memory.write m a v) b = if b = a then some v else Memory.read m b := by
  induction m with
  | nil => simp only [Memory.write, Memory.read]; grind
  | cons c m ih =>
    obtain ⟨d, w⟩ := c
    simp only [Memory.write]
    grind [Memory.read]

/-- Every address of a written memory is the one written or was there before. -/
theorem mem_write {m : Memory} {a : Nat} {v : Byte} {c : Host.Cell} (h : c ∈ Memory.write m a v) :
    c.1 = a ∨ c ∈ m := by
  induction m with
  | nil => simp only [Memory.write] at h; grind
  | cons d m ih =>
    obtain ⟨d, w⟩ := d
    simp only [Memory.write] at h
    grind

theorem write_wf {m : Memory} (h : Memory.wf m) (a : Nat) (v : Byte) : Memory.wf (Memory.write m a v) := by
  induction m with
  | nil => simp [Memory.write, Memory.wf]
  | cons d m ih =>
    obtain ⟨d, w⟩ := d
    have h' := List.pairwise_cons.1 h
    simp only [Memory.write]
    split
    · exact List.pairwise_cons.2 ⟨fun c hc => by
        rcases List.mem_cons.1 hc with rfl | hc
        · assumption
        · exact Nat.lt_trans ‹_› (h'.1 c hc), h⟩
    · split
      · subst_vars; exact List.pairwise_cons.2 ⟨h'.1, h'.2⟩
      · refine List.pairwise_cons.2 ⟨fun c hc => ?_, ih h'.2⟩
        rcases mem_write hc with h1 | h1
        · simp only [h1]; omega
        · exact h'.1 c h1

theorem writeBytes_wf {m : Memory} (h : Memory.wf m) (a : Nat) (v : List Byte) :
    Memory.wf (Memory.writeBytes m a v) := by
  induction v generalizing m a with
  | nil => exact h
  | cons b v ih => exact ih (write_wf h a b) (a + 1)

theorem mem_writeBytes {m : Memory} {a : Nat} {v : List Byte} {c : Host.Cell}
    (h : c ∈ Memory.writeBytes m a v) : (a ≤ c.1 ∧ c.1 < a + v.length) ∨ c ∈ m := by
  induction v generalizing m a with
  | nil => exact .inr h
  | cons b v ih =>
    rcases ih h with h | h
    · left; simp only [List.length_cons]; omega
    · rcases mem_write h with h | h
      · left; simp only [List.length_cons]; omega
      · exact .inr h

theorem read_writeBytes (m : Memory) (a b : Nat) (v : List Byte) :
    Memory.read (Memory.writeBytes m a v) b
      = if a ≤ b ∧ b < a + v.length then some (v.getD (b - a) 0) else Memory.read m b := by
  induction v generalizing m a with
  | nil => simp only [Memory.writeBytes, List.length_nil]; rw [if_neg (by omega)]
  | cons c v ih =>
    simp only [Memory.writeBytes, ih, read_write, List.length_cons]
    by_cases h1 : b = a
    · subst h1; rw [if_neg (by omega), if_pos rfl, if_pos (by omega)]; simp
    · by_cases h2 : a ≤ b ∧ b < a + (v.length + 1)
      · rw [if_pos (by omega), if_pos h2]
        have : b - a = (b - (a + 1)) + 1 := by omega
        rw [this]; rfl
      · rw [if_neg (by omega), if_neg h1, if_neg h2]

end Memory

theorem State.reset_msg_wf : Memory.wf State.reset.msg := List.Pairwise.nil

/-- `MSG[b]` after a write of `v` from `a` up; the state may differ in anything but MSG and its free draw. -/
theorem msgByte_of_msg {s t : State} {a : Nat} {v : List Byte} (h : t.msg = Memory.writeBytes s.msg a v)
    (hd : t.msgDraw = s.msgDraw) : Safety.Stores s t a v := by
  intro b
  simp only [State.msgByte, h, hd, Memory.read_writeBytes]
  by_cases c : a ≤ b ∧ b < a + v.length
  · simp only [if_pos c]
  · simp only [if_neg c]

theorem stores_nil {s t : State} (h : t.msg = s.msg) (hd : t.msgDraw = s.msgDraw) (a : Nat) :
    Safety.Stores s t a [] := msgByte_of_msg (by simpa [Memory.writeBytes] using h) hd

theorem State.msgByte_congr {s t : State} (h : t.msg = s.msg) (hd : t.msgDraw = s.msgDraw) (a : Nat) :
    t.msgByte a = s.msgByte a := by simp only [State.msgByte, h, hd]

@[simp] theorem State.memRead_length (s : State) (a n : Nat) : (s.memRead a n).length = n := by
  simp [State.memRead]

theorem State.memRead_congr {s t : State} (h : t.msg = s.msg) (hd : t.msgDraw = s.msgDraw) (a n : Nat) :
    t.memRead a n = s.memRead a n := by simp only [State.memRead, State.msgByte_congr h hd]

/-- Reading back what was stored. -/
theorem memRead_of_stores {s t : State} {a : Nat} {v : List Byte} (h : Safety.Stores s t a v) :
    t.memRead a v.length = v := by
  apply List.ext_getElem
  · simp
  · intro j h1 h2
    simp only [State.memRead, List.getElem_map, List.getElem_range]
    rw [h (a + j), if_pos (by omega)]
    simp [h2]

@[simp] theorem State.src_length (s : State) : s.src.length = s.cl.srcLen.toNat := State.memRead_length ..
@[simp] theorem State.aad_length (s : State) : s.aad.length = s.cl.aadLen.toNat := State.memRead_length ..
@[simp] theorem State.nonce_length (s : State) : s.nonce.length = s.cl.nonceLen.toNat := State.memRead_length ..

end Sys2Proof.Machine
end

