-- ==== Sys2Proof/Laws/Bus.lean ====
section
/-! SUPPORT. The host side, operation by operation: the words of a window, what an address addresses, and what a
write to a register leaves alone. -/

namespace Sys2Proof

/-- A one-bit field is its bit. -/
theorem bitField_one (v : Word) (k : Nat) : (bitField v k 1 == 1) = v.getLsbD k := by
  rw [BitVec.getLsbD, Nat.testBit_eq_decide_div_mod_eq, bitField, pow_one]; rfl

theorem bitField_one_iff (v : Word) (k : Nat) : bitField v k 1 = 1 ↔ v.getLsbD k = true := by
  rw [← bitField_one, beq_iff_eq]

@[simp] theorem Bytes.zero_byte (n i : Nat) : (Bytes.zero n).byte i = 0 := by
  simp only [Bytes.byte, Bytes.zero, List.getD_eq_getElem?_getD, List.getElem?_replicate]
  split <;> rfl

@[simp] theorem Bytes.zero_word (n i : Nat) : (Bytes.zero n).word i = 0 := by
  simp only [Bytes.word, Bytes.zero_byte]; rfl

/-- A byte of a window with a word replaced (R56, R102). -/
theorem Bytes.byte_setWord {n : Nat} (x : Bytes n) {i : Nat} (v : Word) (h : 4 * i + 4 ≤ n) (j : Nat) :
    (x.setWord i v).byte j = if 4 * i ≤ j ∧ j < 4 * i + 4 then lane v (j - 4 * i) else x.byte j := by
  obtain ⟨x, rfl⟩ := x
  simp only [Bytes.byte, Bytes.setWord, List.getD_eq_getElem?_getD, List.getElem?_set, List.length_set]
  have h0 : 4 * i < x.length := by omega
  have h1 : 4 * i + 1 < x.length := by omega
  have h2 : 4 * i + 2 < x.length := by omega
  have h3 : 4 * i + 3 < x.length := by omega
  by_cases hj : 4 * i ≤ j ∧ j < 4 * i + 4
  · rw [if_pos hj]
    obtain ⟨k, hk, rfl⟩ : ∃ k, k < 4 ∧ j = 4 * i + k := ⟨j - 4 * i, by omega, by omega⟩
    have : k = 0 ∨ k = 1 ∨ k = 2 ∨ k = 3 := by omega
    rcases this with rfl | rfl | rfl | rfl <;> simp [h0, h1, h2, h3]
  · rw [if_neg hj, if_neg (by omega), if_neg (by omega), if_neg (by omega), if_neg (by omega)]

theorem lane_eq (v : Word) (j : Nat) : lane v j = v.extractLsb' (8 * j) 8 := by
  apply BitVec.eq_of_toNat_eq
  simp only [lane, BitVec.toNat_ofNat, BitVec.extractLsb'_toNat, Nat.shiftRight_eq_div_pow]

theorem wordOfLanes_lane (v : Word) : wordOfLanes (lane v 0) (lane v 1) (lane v 2) (lane v 3) = v := by
  apply BitVec.eq_of_toNat_eq
  have := v.isLt
  simp only [wordOfLanes, lane, BitVec.toNat_ofNat]
  omega

/-- Reading a word of a window back (R56). -/
theorem Bytes.word_setWord {n : Nat} (x : Bytes n) {i j : Nat} (v : Word) (h : 4 * i + 4 ≤ n) :
    (x.setWord i v).word j = if j = i then v else x.word j := by
  simp only [Bytes.word, Bytes.byte_setWord x v h]
  by_cases hj : j = i
  · subst hj
    rw [if_pos (by omega), if_pos (by omega), if_pos (by omega), if_pos (by omega), if_pos rfl]
    simp only [Nat.sub_self, Nat.add_sub_cancel_left]
    exact wordOfLanes_lane v
  · rw [if_neg (by omega), if_neg (by omega), if_neg (by omega), if_neg (by omega), if_neg hj]

namespace Machine

/-- An access inside the aperture (R100). -/
theorem hostAccess_in {a : Access} {s : State} {o : Nat} (ha : a.addr = s.cfg.devBase + o) (ho : o < apertureSize) :
    hostAccess a s = { (accessAt a o s).1 with response := some (accessAt a o s).2 } := by
  unfold hostAccess
  rw [if_pos (by omega), ha, Nat.add_sub_cancel_left]

/-- The offsets R40 maps. -/
theorem regAt_isSome (w : Nat) : (regAt w).isSome = decide (w < 0x0F ∨ 0x10 ≤ w ∧ w < 0x30) := by
  by_cases h : w < 0x30
  · revert h; revert w; decide
  · rw [decide_eq_false (by omega)]
    unfold regAt
    split <;> first | omega | skip
    repeat rw [if_neg (by omega)]
    rfl

theorem target_reg {s : State} {o : Nat} {r : Reg} (ho : o < msgWindow) (h4 : o % 4 = 0) (hr : regAt (o / 4) = some r) :
    target s .w4 o = .reg r := by
  unfold target; rw [if_pos ho, if_pos ⟨rfl, h4⟩, hr]

/-- The illegal accesses of the register space (R103). -/
theorem target_illegal {s : State} {w : Width} {o : Nat} (ho : o < msgWindow)
    (h : ¬ (w = .w4 ∧ o % 4 = 0 ∧ (regAt (o / 4)).isSome)) : target s w o = .illegal := by
  unfold target; rw [if_pos ho]
  split
  · rename_i hc
    cases hr : regAt (o / 4) with
    | none => rfl
    | some r => exact absurd ⟨hc.1, hc.2, by simp [hr]⟩ h
  · rfl

/-- The MSG window (R104). -/
theorem target_msg {s : State} {w : Width} {a : Nat} :
    target s w (msgWindow + a) = if a % w.bytes = 0 ∧ a < s.msgSize then .msg a else .illegal := by
  unfold target; rw [if_neg (by omega), Nat.add_sub_cancel_left]

/-- A write that is dropped because a command runs (R58). -/
theorem writeReg_busy {s : State} (h : s.seq = .busy) {r : Reg} (v : Word) (h1 : r ≠ .ctrl) (h2 : r ≠ .status) :
    writeReg r v s = { s with busyerr := true } := by
  cases r <;> first | exact absurd rfl h1 | exact absurd rfl h2 | exact if_pos h

/-- A write that is accepted. -/
theorem writeReg_idle {s : State} (h : s.seq = .idle) {r : Reg} (v : Word) (h1 : r ≠ .ctrl) (h2 : r ≠ .status) :
    writeReg r v s = storeReg r v s := by
  have hb : ¬ s.seq = .busy := by rw [h]; decide
  cases r <;> first | exact absurd rfl h1 | exact absurd rfl h2 | exact if_neg hb

/-- The host's accesses leave the parameters and what is pending alone. -/
theorem ctrlWrite_inputs (v : Word) (s : State) : (ctrlWrite v s).inputs = s.inputs ∧ (ctrlWrite v s).cfg = s.cfg := by
  unfold ctrlWrite
  split
  · exact ⟨rfl, rfl⟩
  · simp only
    split
    · unfold abort; split <;> exact ⟨rfl, rfl⟩
    · split
      · split <;> exact ⟨rfl, rfl⟩
      · exact ⟨rfl, rfl⟩

theorem writeReg_inputs (r : Reg) (v : Word) (s : State) :
    (writeReg r v s).inputs = s.inputs ∧ (writeReg r v s).cfg = s.cfg := by
  unfold writeReg
  split
  · exact ctrlWrite_inputs v s
  · exact ⟨rfl, rfl⟩
  · split
    · exact ⟨rfl, rfl⟩
    · cases r <;> exact ⟨rfl, rfl⟩

theorem hostAccess_inputs (a : Access) (s : State) :
    (hostAccess a s).inputs = s.inputs ∧ (hostAccess a s).cfg = s.cfg := by
  unfold hostAccess
  split
  · show (accessAt a _ s).1.inputs = _ ∧ (accessAt a _ s).1.cfg = _
    unfold accessAt
    split <;> split
    · exact ⟨rfl, rfl⟩
    · split <;> exact ⟨rfl, rfl⟩
    · exact ⟨rfl, rfl⟩
    · exact writeReg_inputs _ _ s
    · split <;> exact ⟨rfl, rfl⟩
    · exact ⟨rfl, rfl⟩
  · exact ⟨rfl, rfl⟩

/-- Byte `j` of a word read from MSG (R102). -/
theorem msgWord_lane (s : State) (a n j : Nat) (hn : n ≤ 4) (hj : j < n) :
    (s.msgWord a n).extractLsb' (8 * j) 8 = s.msgByte (a + j) := by
  rw [← lane_eq]
  have hlt : intLE (s.memRead a n) < 2 ^ 32 := by
    refine lt_of_lt_of_le (intLE_lt _) (Nat.pow_le_pow_right (by decide) ?_)
    rw [State.memRead_length]; omega
  have h := getD_leBytes (n := n) (intLE (s.memRead a n)) hj
  have hb := leBytes_intLE (s.memRead a n)
  rw [State.memRead_length] at hb
  rw [hb] at h
  rw [lane, State.msgWord, BitVec.toNat_ofNat, Nat.mod_eq_of_lt hlt, ← h]
  simp [State.memRead, hj]

/-- The bytes written to MSG (R102). -/
theorem laneBytes_getD (v : Word) {n j : Nat} (hj : j < n) : (laneBytes v n).getD j 0 = v.extractLsb' (8 * j) 8 := by
  rw [laneBytes, getD_leBytes _ hj, ← lane_eq]; rfl

end Machine

end Sys2Proof
end

