-- ==== Sys2Proof/Laws/XtsKw.lean ====
section
/-! SUPPORT. XTS and KW: the loops by index, and that decryption undoes encryption. -/

namespace Sys2Proof

open Sys2Proof.Machine Sys2Proof.Safety

/-! ## XTS -/

theorem xtsTweak_eq (alpha : Block → Block) (t0 : Block) (j : Nat) : xtsTweak alpha t0 j = alpha^[j] t0 := by
  induction j with
  | zero => rfl
  | succ j ih => rw [xtsTweak, ih, Function.iterate_succ_apply']

theorem xexBlocks_eq (alpha f : Block → Block) (t0 : Block) (m : Nat) (x : List Byte) :
    xexBlocks alpha f t0 (toChunks 16 m x) = (List.range m).map fun j => xex f (blockAt x j) (alpha^[j] t0) := by
  induction m generalizing t0 x with
  | zero => rfl
  | succ m ih =>
    have hb : ∀ k, blockAt (x.drop 16) k = blockAt x (k + 1) := by
      intro k; simp only [blockAt, List.drop_drop, Nat.mul_succ, Nat.add_comm 16]
    have h0 : Bytes.ofList 16 (x.take 16) = blockAt x 0 := by simp [blockAt]
    rw [toChunks, xexBlocks, ih, List.range_succ_eq_map, List.map_cons, List.map_map, h0]
    simp only [hb]
    rfl

theorem xtsCrypt_eq (alpha f : Block → Block) (dec : Bool) (t0 : Block) (x : List Byte) :
    xtsCrypt alpha f dec t0 x = xtsOut f dec (fun j => alpha^[j] t0) x := by
  simp only [xtsCrypt, xtsOut, toBlocks, xexBlocks_eq, blocks_eq, xtsSteal, xtsTweak_eq]
  by_cases h : x.length % 16 = 0
  · rw [if_pos h, if_pos h]
  · rw [if_neg h, if_neg h]
    have hl : (x.drop (16 * (x.length / 16))).length = x.length % 16 := by simp; omega
    rw [hl, List.append_assoc]
    cases dec <;> rfl

theorem xtsOut_length (f : Block → Block) (dec : Bool) (T : Nat → Block) {x : List Byte} (h : 16 ≤ x.length) :
    (xtsOut f dec T x).length = x.length := by
  simp only [xtsOut]
  split
  · rw [blocks_length]; omega
  · simp only [List.length_append, blocks_length, Bytes.length_bytes, List.length_take]; omega

theorem xex_xex {e d : Block → Block} (h : ∀ b, d (e b) = b) (x t : Block) : xex d (xex e x t) t = x := by
  simp [xex, h]

/-- `xts_dec(xts_enc(P)) = P` (R384). -/
theorem xtsOut_inverse {e d : Block → Block} (hde : ∀ b, d (e b) = b) (T : Nat → Block) {x : List Byte}
    (h : 16 ≤ x.length) : xtsOut d true T (xtsOut e false T x) = x := by
  have hl := xtsOut_length e false T h
  by_cases hb : x.length % 16 = 0
  · have he : xtsOut e false T x = blocks (x.length / 16) fun j => xex e (blockAt x j) (T j) := by
      simp only [xtsOut, if_pos hb]
    rw [xtsOut, hl]
    simp only [if_pos hb]
    rw [← List.take_of_length_le (show x.length ≤ 16 * (x.length / 16) by omega), ← blocks_blockAt (by omega)]
    have hl2 : (blocks (x.length / 16) (blockAt x)).length = x.length := by rw [blocks_length]; omega
    rw [hl2]
    apply blocks_congr
    intro j hj
    rw [blocks_blockAt (by omega), List.take_of_length_le (by omega), he, blockAt_blocks _ hj, xex_xex hde]
  · generalize hm : x.length / 16 = m
    generalize hr : x.length % 16 = b at hb
    have hlen : x.length = 16 * m + b := by omega
    have hm0 : 0 < m := by omega
    have hb16 : b < 16 := by omega
    -- the four pieces of the encryption
    generalize hfirst : xex e (blockAt x (m - 1)) (T (m - 1)) = first
    generalize hfill : Bytes.ofList 16 (x.drop (16 * m) ++ first.bytes.drop b) = filled
    have hpre : (blocks (m - 1) fun j => xex e (blockAt x j) (T j)).length = 16 * (m - 1) := blocks_length _ _
    have he : xtsOut e false T x = (blocks (m - 1) fun j => xex e (blockAt x j) (T j))
        ++ ((xex e filled (T m)).bytes ++ first.bytes.take b) := by
      simp only [xtsOut, hm, hr, if_neg hb, Bool.false_eq_true, if_false, hfirst, hfill, List.append_assoc]
    have htl : (x.drop (16 * m)).length = b := by simp; omega
    have hfb : filled.bytes = x.drop (16 * m) ++ first.bytes.drop b := by
      rw [← hfill]; exact Bytes.ofList_bytes_of_length (by rw [List.length_append, htl, List.length_drop, first.len]; omega)
    have h1 : blockAt (xtsOut e false T x) (m - 1) = xex e filled (T m) := by
      have h0 := blockAt_append_right hpre (y := (xex e filled (T m)).bytes ++ first.bytes.take b) 0
      rw [he, Nat.add_zero] at *
      rw [h0]
      apply Bytes.ext_bytes
      rw [blockAt_bytes (by simp)]
      rw [Nat.mul_zero, List.drop_zero, List.take_left' (Bytes.len _)]
    have h2 : (xtsOut e false T x).drop (16 * m) = first.bytes.take b := by
      rw [he, show 16 * m = 16 * (m - 1) + 16 by omega, ← List.drop_drop, List.drop_left' hpre,
        List.drop_left' (Bytes.len _)]
    have h3 : xex d (xex e filled (T m)) (T m) = filled := xex_xex hde _ _
    have h4 : Bytes.ofList 16 (first.bytes.take b ++ filled.bytes.drop b) = first := by
      rw [hfb, List.drop_left' htl, List.take_append_drop, Bytes.ofList_self]
    have h5 : filled.bytes.take b = x.drop (16 * m) := by rw [hfb, List.take_left' htl]
    have h6 : xex d first (T (m - 1)) = blockAt x (m - 1) := by rw [← hfirst, xex_xex hde]
    rw [xtsOut, hl, hm, hr]
    simp only [if_neg hb, if_true, h1, h2, h3, h4, h5, h6]
    have h7 : (blocks (m - 1) fun j => xex d (blockAt (xtsOut e false T x) j) (T j)) = x.take (16 * (m - 1)) := by
      rw [← blocks_blockAt (by omega)]
      apply blocks_congr
      intro j hj
      rw [he, blockAt_append_left (by rw [hpre]; omega), blockAt_blocks _ hj, xex_xex hde]
    rw [h7, blockAt_bytes (by omega), List.append_assoc]
    have h8 : (x.drop (16 * (m - 1))).take 16 ++ x.drop (16 * m) = x.drop (16 * (m - 1)) := by
      rw [show 16 * m = 16 * (m - 1) + 16 by omega, ← List.drop_drop, List.take_append_drop]
    rw [h8, List.take_append_drop]

/-! ## KW -/

@[simp] theorem join_msb8_lsb8 (b : Block) : Bytes.join b.msb8 b.lsb8 = b :=
  Bytes.ext_bytes (List.take_append_drop 8 b.bytes)

@[simp] theorem msb8_join (a r : Bytes 8) : (Bytes.join a r).msb8 = a :=
  Bytes.ext_bytes (List.take_left' a.len)

@[simp] theorem lsb8_join (a r : Bytes 8) : (Bytes.join a r).lsb8 = r :=
  Bytes.ext_bytes (List.drop_left' a.len)

@[simp] theorem kwWrapRound_length (e : Block → Block) (t : Nat) (a : Bytes 8) (rs : List (Bytes 8)) :
    (kwWrapRound e t a rs).2.length = rs.length := by
  induction rs generalizing t a with
  | nil => rfl
  | cons r rs ih => simp [kwWrapRound, ih]

@[simp] theorem kwWrapRounds_length (e : Block → Block) (nh fuel j : Nat) (a : Bytes 8) (rs : List (Bytes 8)) :
    (kwWrapRounds e nh fuel j a rs).2.length = rs.length := by
  induction fuel generalizing j a rs with
  | zero => rfl
  | succ fuel ih => simp [kwWrapRounds, ih]

@[simp] theorem kwUnwrapRound_length (d : Block → Block) (t : Nat) (a : Bytes 8) (rs : List (Bytes 8)) :
    (kwUnwrapRound d t a rs).2.length = rs.length := by
  induction rs generalizing t with
  | nil => rfl
  | cons r rs ih => simp [kwUnwrapRound, ih]

@[simp] theorem kwUnwrapRounds_length (d : Block → Block) (nh fuel : Nat) (a : Bytes 8) (rs : List (Bytes 8)) :
    (kwUnwrapRounds d nh fuel a rs).2.length = rs.length := by
  induction fuel generalizing a rs with
  | zero => rfl
  | succ fuel ih => simp [kwUnwrapRounds, ih]

theorem kwUnwrapRound_wrapRound {e d : Block → Block} (h : ∀ b, d (e b) = b) (t : Nat) (a : Bytes 8)
    (rs : List (Bytes 8)) :
    kwUnwrapRound d t (kwWrapRound e t a rs).1 (kwWrapRound e t a rs).2 = (a, rs) := by
  induction rs generalizing t a with
  | nil => rfl
  | cons r rs ih => simp [kwWrapRound, kwUnwrapRound, ih, h]

theorem kwWrapRound_unwrapRound {e d : Block → Block} (h : ∀ b, e (d b) = b) (t : Nat) (a : Bytes 8)
    (rs : List (Bytes 8)) :
    kwWrapRound e t (kwUnwrapRound d t a rs).1 (kwUnwrapRound d t a rs).2 = (a, rs) := by
  induction rs generalizing t with
  | nil => rfl
  | cons r rs ih => simp [kwWrapRound, kwUnwrapRound, ih, h]

/-- The last round stands last. -/
theorem kwWrapRounds_succ (e : Block → Block) (nh fuel j : Nat) (a : Bytes 8) (rs : List (Bytes 8)) :
    kwWrapRounds e nh (fuel + 1) j a rs
      = kwWrapRound e (nh * (j + fuel) + 1) (kwWrapRounds e nh fuel j a rs).1 (kwWrapRounds e nh fuel j a rs).2 := by
  induction fuel generalizing j a rs with
  | zero => rfl
  | succ fuel ih => rw [kwWrapRounds, ih, kwWrapRounds, show j + 1 + fuel = j + (fuel + 1) by omega]

theorem kwUnwrapRounds_wrapRounds {e d : Block → Block} (h : ∀ b, d (e b) = b) (nh fuel : Nat) (a : Bytes 8)
    (rs : List (Bytes 8)) :
    kwUnwrapRounds d nh fuel (kwWrapRounds e nh fuel 0 a rs).1 (kwWrapRounds e nh fuel 0 a rs).2 = (a, rs) := by
  induction fuel with
  | zero => rfl
  | succ fuel ih => rw [kwWrapRounds_succ, kwUnwrapRounds, Nat.zero_add, kwUnwrapRound_wrapRound h, ih]

theorem kwWrapRounds_unwrapRounds {e d : Block → Block} (h : ∀ b, e (d b) = b) (nh fuel : Nat) (a : Bytes 8)
    (rs : List (Bytes 8)) :
    kwWrapRounds e nh fuel 0 (kwUnwrapRounds d nh fuel a rs).1 (kwUnwrapRounds d nh fuel a rs).2 = (a, rs) := by
  induction fuel generalizing a rs with
  | zero => rfl
  | succ fuel ih => rw [kwWrapRounds_succ, kwUnwrapRounds, ih, Nat.zero_add, kwWrapRound_unwrapRound h]

theorem kwWrap_length (e : Block → Block) {p : List Byte} (h : p.length % 8 = 0) :
    (kwWrap e p).length = p.length + 8 := by
  simp [kwWrap, joinChunks_length]; omega

theorem kwUnwrap_length (d : Block → Block) {w : List Byte} (h : w.length % 8 = 0) :
    (kwUnwrap d w).1.length = w.length - 8 := by
  simp [kwUnwrap, joinChunks_length]; omega

/-- Steps `t0, t0+1, …, t0+n-1` of the running counter, on `nh` half-blocks. -/
def kwRun (e : Block → Block) (nh : Nat) : (n t0 : Nat) → Bytes 8 × List (Bytes 8) → Bytes 8 × List (Bytes 8)
  | 0, _, q => q
  | n + 1, t0, q =>
    let i := t0 % nh
    let b := e (Bytes.join q.1 (q.2.getD i (Bytes.zero 8)))
    kwRun e nh n (t0 + 1) (b.msb8.xor (Bytes.be 8 (t0 + 1)), q.2.set i b.lsb8)

theorem kwRun_add (e : Block → Block) (nh n m t0 : Nat) (q : Bytes 8 × List (Bytes 8)) :
    kwRun e nh (n + m) t0 q = kwRun e nh m (t0 + n) (kwRun e nh n t0 q) := by
  induction n generalizing t0 q with
  | zero => simp [kwRun]
  | succ n ih => rw [Nat.succ_add, kwRun, ih, kwRun, show t0 + 1 + n = t0 + (n + 1) by omega]

theorem kwSteps_eq (e : Block → Block) (a0 : Bytes 8) (r0 : List (Bytes 8)) (t : Nat) :
    kwSteps e a0 r0 t = kwRun e r0.length t 0 (a0, r0) := by
  induction t with
  | zero => rfl
  | succ t ih => rw [kwSteps, ih, kwRun_add]; simp [kwRun]

/-- A round over the half-blocks that are left is that many steps. -/
theorem kwRun_round (e : Block → Block) (nh j : Nat) (pre rest : List (Bytes 8)) (a : Bytes 8)
    (h : pre.length + rest.length = nh) :
    kwRun e nh rest.length (nh * j + pre.length) (a, pre ++ rest)
      = ((kwWrapRound e (nh * j + pre.length + 1) a rest).1,
        pre ++ (kwWrapRound e (nh * j + pre.length + 1) a rest).2) := by
  induction rest generalizing pre a with
  | nil => rfl
  | cons r rest ih =>
    have hlt : pre.length < nh := by simp at h; omega
    have hi : (nh * j + pre.length) % nh = pre.length := by rw [Nat.mul_add_mod, Nat.mod_eq_of_lt hlt]
    have := ih (pre ++ [(e (Bytes.join a r)).lsb8]) ((e (Bytes.join a r)).msb8.xor (Bytes.be 8 (nh * j + pre.length + 1)))
      (by simp at h ⊢; omega)
    simp only [List.length_append, List.length_singleton, List.append_assoc, List.singleton_append,
      ← Nat.add_assoc] at this
    simp only [List.length_cons, kwRun, hi, kwWrapRound]
    simp only [List.getD_append_right _ _ _ _ (Nat.le_refl _), Nat.sub_self, List.getD_cons_zero,
      List.set_append_right _ _ (Nat.le_refl _), List.set_cons_zero, this]

theorem kwRun_rounds (e : Block → Block) (nh fuel j : Nat) (a : Bytes 8) (rs : List (Bytes 8)) (h : rs.length = nh) :
    kwRun e nh (nh * fuel) (nh * j) (a, rs) = kwWrapRounds e nh fuel j a rs := by
  induction fuel generalizing j a rs with
  | zero => rfl
  | succ fuel ih =>
    have hr := kwRun_round e nh j [] rs a (by simpa using h)
    simp only [List.length_nil, Nat.add_zero, List.nil_append, h] at hr
    rw [Nat.mul_succ, Nat.add_comm, kwRun_add, hr, kwWrapRounds, ← Nat.mul_succ, ih _ _ _ (by simpa using h)]

theorem kwFrom_eq (e : Block → Block) (a : Bytes 8) (p : List Byte) :
    kwFrom e a p
      = (kwWrapRounds e (p.length / 8) 6 0 a (toChunks 8 (p.length / 8) p)).1.bytes
        ++ joinChunks (kwWrapRounds e (p.length / 8) 6 0 a (toChunks 8 (p.length / 8) p)).2 := by
  have hc : (List.range (p.length / 8)).map (halfAt p) = toChunks 8 (p.length / 8) p := (toChunks_eq 8 _ p).symm
  have := kwRun_rounds e (p.length / 8) 6 0 a (toChunks 8 (p.length / 8) p) (by simp)
  rw [Nat.mul_zero, Nat.mul_comm] at this
  simp only [kwFrom, kwSteps_eq, hc, toChunks_length, this]

theorem kwWrap_eq (e : Block → Block) (p : List Byte) : kwWrap e p = kwFrom e kwIv p := (kwFrom_eq e kwIv p).symm

/-- Unwrapping undoes the steps: from its registers the steps give the source back (R391). -/
theorem kwUnwrap_spec {e d : Block → Block} (h : ∀ b, e (d b) = b) {w : List Byte} (hw : w.length % 8 = 0)
    (h8 : 8 ≤ w.length) :
    ∃ a : Bytes 8, kwFrom e a (kwUnwrap d w).1 = w ∧ ((kwUnwrap d w).2 = true ↔ a = kwIv) := by
  generalize hq : kwUnwrapRounds d (w.length / 8 - 1) 6 (Bytes.ofList 8 (w.take 8))
    (toChunks 8 (w.length / 8 - 1) (w.drop 8)) = q
  have hql : q.2.length = w.length / 8 - 1 := by rw [← hq]; simp
  have hu : kwUnwrap d w = (joinChunks q.2, ctEq q.1.bytes kwIv.bytes 8) := by simp only [kwUnwrap, hq]
  refine ⟨q.1, ?_, ?_⟩
  · have hl : (joinChunks q.2).length / 8 = w.length / 8 - 1 := by
      rw [joinChunks_length, hql, Nat.mul_div_cancel_left _ (by decide)]
    have hc : toChunks 8 (w.length / 8 - 1) (joinChunks q.2) = q.2 := by
      rw [← hql]; exact toChunks_joinChunks q.2
    have hr := kwWrapRounds_unwrapRounds h (w.length / 8 - 1) 6 (Bytes.ofList 8 (w.take 8))
      (toChunks 8 (w.length / 8 - 1) (w.drop 8))
    rw [hq] at hr
    rw [hu, kwFrom_eq]
    simp only [hl, hc, hr]
    rw [Bytes.ofList_bytes_of_length (x := w.take 8) (by simp; omega), joinChunks_toChunks (by simp; omega),
      List.take_of_length_le (l := w.drop 8) (by simp; omega), List.take_append_drop]
  · rw [hu]
    have : ctEq q.1.bytes kwIv.bytes 8 = true ↔ q.1.bytes.take 8 = kwIv.bytes.take 8 := ctEq_iff (by simp) (by simp)
    rw [show ((joinChunks q.2, ctEq q.1.bytes kwIv.bytes 8).2 = true) = (ctEq q.1.bytes kwIv.bytes 8 = true) from rfl, this,
      List.take_of_length_le (by simp), List.take_of_length_le (by simp)]
    exact ⟨Bytes.ext_bytes, fun h => by rw [h]⟩

/-- Unwrapping what was wrapped gives the key data and passes (R390, R391). -/
theorem kwUnwrap_kwWrap {e d : Block → Block} (h : ∀ b, d (e b) = b) {p : List Byte} (hp : p.length % 8 = 0) :
    kwUnwrap d (kwWrap e p) = (p, true) := by
  generalize hq : kwWrapRounds e (p.length / 8) 6 0 kwIv (toChunks 8 (p.length / 8) p) = q
  have hql : q.2.length = p.length / 8 := by rw [← hq]; simp
  have hw : kwWrap e p = q.1.bytes ++ joinChunks q.2 := by simp only [kwWrap, hq]
  have hn : (q.1.bytes ++ joinChunks q.2).length / 8 - 1 = p.length / 8 := by
    rw [← hw, kwWrap_length e hp]; omega
  have hu := kwUnwrapRounds_wrapRounds h (p.length / 8) 6 kwIv (toChunks 8 (p.length / 8) p)
  rw [hq] at hu
  have hc : toChunks 8 (p.length / 8) (joinChunks q.2) = q.2 := by rw [← hql]; exact toChunks_joinChunks q.2
  simp only [kwUnwrap, hw, hn, List.take_left' q.1.len, List.drop_left' q.1.len, Bytes.ofList_self, hc, hu]
  refine Prod.ext ?_ ((ctEq_iff (by simp) (by simp)).2 rfl)
  show joinChunks (toChunks 8 (p.length / 8) p) = p
  rw [joinChunks_toChunks (by omega), List.take_of_length_le (by omega)]

end Sys2Proof
end

