-- ==== Sys2Proof/Laws/Exec.lean ====
section
/-! SUPPORT. What a command can do, once for all: its ends, and the one lemma that says what every command's
answer is. -/

namespace Sys2Proof.Machine

open Sys2Proof.Safety

/-- A commit stores its output at the destination (R183). `w` is the state with what the command writes beside MSG. -/
theorem commit_stores {i : Instr} {s u w : State} {out : List Byte} {tag : Option (List Byte)} {gfr : Option Block}
    (h : exec i s = .next (commit i out tag gfr u)) (hm : u.msg = s.msg) (hd : u.msgDraw = s.msgDraw)
    (hc : u.cl = s.cl) (ho : out.length = outLength i u)
    (hw : w = { u with tag := (commit i out tag gfr u).tag, gfr := (commit i out tag gfr u).gfr }) :
    CommitsStoring i s w out := by
  subst hw
  refine ⟨(commit i out tag gfr u).msg, ?_, ?_⟩
  · rw [h, ho, ← outlen_eq]; rfl
  · rw [← outlen_eq] at ho
    refine msgByte_of_msg ?_ hd
    show (commit i out tag gfr u).msg = _
    rw [commit_msg, hm, hc]
    split
    · rfl
    · have : out = [] := List.length_eq_zero_iff.1 (by omega)
      subst this; rfl

/-- An authentication failure zero-fills the destination (R184). -/
theorem authFail_stores {i : Instr} {s : State} {n : Nat} (h : exec i s = .next (authFail i s))
    (hn : outLength i s = n) : FailsStoringZeros i s n := by
  refine ⟨msgZeroed i s, by rw [h]; rfl, ?_⟩
  refine msgByte_of_msg (s := s) ?_ rfl
  show msgZeroed i s = _
  rw [msgZeroed, outlen_eq, hn]
  split
  · rfl
  · have : n = 0 := by omega
    subst this; rfl

/-- A commit that stores nothing (R183). -/
theorem commit_eq_committed {i : Instr} {s : State} (h0 : outLength i s = 0) (gfr : Option Block)
    (tag : Option (List Byte)) :
    commit i [] tag gfr s = committed { s with
      tag := (commit i [] tag gfr s).tag, gfr := (commit i [] tag gfr s).gfr } 0 := by
  simp [commit, committed, outlen_eq, h0]

/-- An authentication failure of a command without a destination (R184). -/
theorem authFail_eq_failedAuth {i : Instr} {s : State} (h0 : outLength i s = 0) : authFail i s = failedAuth s := by
  simp [authFail, failedAuth, msgZeroed, outlen_eq, h0]

theorem tagWindow_eq {t : List Byte} (h : t.length ≤ 16) :
    tagWindow t = Bytes.ofList 16 (t ++ List.replicate (16 - t.length) 0) := by
  apply Bytes.ext_bytes
  rw [Bytes.ofList_bytes_of_length (by simp; omega)]
  simp only [tagWindow, Bytes.ofList]
  rw [List.take_append, List.take_of_length_le h, List.take_replicate]
  congr 2; omega

/-! ## What passing the checks gives -/

theorem passes_range {i : Instr} {s : State} (h : Passes i s) :
    (usesSource i = true → s.cl.srcLen.toNat = 0 ∨ s.cl.srcPtr.toNat + s.cl.srcLen.toNat ≤ s.msgSize)
    ∧ (outLength i s = 0 ∨ s.cl.dstPtr.toNat + outLength i s ≤ s.msgSize) := by
  obtain ⟨-, -, -, -, -, -, hr, -⟩ := passes_iff.1 h
  simp only [failsRange, Bool.or_eq_false_iff, Bool.and_eq_false_iff, fits, Bool.not_eq_false',
    decide_eq_true_eq] at hr
  exact ⟨fun hs => (hr.1.1.1).resolve_left (by simp [hs]), hr.2⟩

theorem passes_state {i : Instr} {s : State} (h : Passes i s) (hi : isStream i = true) (hc : i.fields.cont = true) :
    s.st.valid = true ∧ s.st.smode = familyOf i := by
  obtain ⟨-, -, -, hs, -⟩ := passes_iff.1 h
  simp only [failsState, hi, hc, Bool.true_and, Bool.or_eq_false_iff, bne_eq_false_iff_eq, Bool.not_eq_false'] at hs
  exact hs

theorem passes_nonce16 {i : Instr} {s : State} (h : Passes i s) (hi : isStream i = true)
    (hc : i.fields.cont = false) : s.nonce.length = 16 := by
  obtain ⟨-, -, -, -, hn, -⟩ := passes_iff.1 h
  rw [State.nonce_length]
  cases i <;> simp_all [isStream, failsNonce, Instr.fields]

theorem passes_keyed {i : Instr} {s : State} (h : Passes i s) (hi : keyed i = true) :
    s.kc.valid = true ∧ (isXts i = false → s.kc.klen ≠ .k64) := by
  obtain ⟨h1, h2, -⟩ := passes_iff.1 h
  simp only [failsNokey, hi, Bool.true_and, Bool.not_eq_false'] at h1
  refine ⟨h1, fun hx hk => ?_⟩
  cases i <;> simp_all [Safety.keyed, failsKeylen, KeyLen.bytes, isXts]

/-! ## Streams -/

/-- The stream a command begins with (R230). -/
theorem streamStart_begins {i : Instr} {s : State} (h : Passes i s) (hi : isStream i = true) :
    Begins (familyOf i) i.fields s (streamStart (familyOf i) i.fields s)
      ∧ (streamStart (familyOf i) i.fields s).valid = true
      ∧ (streamStart (familyOf i) i.fields s).smode = familyOf i := by
  unfold Begins streamStart
  cases hc : i.fields.cont
  · refine ⟨⟨rfl, ?_, rfl, rfl⟩, rfl, rfl⟩
    exact Bytes.ofList_bytes_of_length (passes_nonce16 h hi hc)
  · exact ⟨rfl, (passes_state h hi hc)⟩

theorem commitStream_stores {i : Instr} {s : State} {S : Stream} {out : List Byte}
    (h : exec i s = .next (commitStream i S out s)) (ho : out.length = outLength i s) : CommitsStream i s S out :=
  ⟨if i.fields.cont then s.draws else s.draws + 1, commit_stores h rfl rfl rfl (by cases i <;> exact ho) rfl⟩

theorem cfbFamily_eq (f : Fields) : cfbFamily f.param = familyOf (.cfbEnc f) := by
  simp only [cfbFamily, familyOf]; split <;> grind

theorem segmentSize_le (p : Nat) : segmentSize p ≤ 16 := by unfold segmentSize; grind

/-- A CFB command's source is whole segments. -/
theorem passes_segments {i : Instr} {s : State} (h : Passes i s) (hi : (∃ f, i = .cfbEnc f) ∨ ∃ f, i = .cfbDec f) :
    s.src.length = segmentSize i.fields.param * (s.src.length / segmentSize i.fields.param) := by
  have hl := lenFails_eq i s
  rw [(passes_iff.1 h).2.2.2.2.2.1] at hl
  have := Nat.div_add_mod s.cl.srcLen.toNat (segmentSize i.fields.param)
  rw [State.src_length]
  rcases hi with ⟨f, rfl⟩ | ⟨f, rfl⟩ <;>
    simp only [lenFails, profile, Profile.cipher, Instr.fields, bne_eq_false_iff_eq] at hl this ⊢ <;> omega

/-! ## The ends of a verification -/

theorem macVerified_iff (T : Block) (s : State) : macVerified T s = true ↔
    1 ≤ s.cl.rxtlen.toNat ∧ s.cl.rxtlen.toNat ≤ 16
      ∧ T.bytes.take s.cl.rxtlen.toNat = s.cl.tag.bytes.take s.cl.rxtlen.toNat := by
  simp only [macVerified, Bool.and_eq_true, decide_eq_true_eq, and_assoc]
  refine and_congr_right fun _ => and_congr_right fun h => ?_
  exact ctEq_iff (by simp; omega) (by simp; omega)

/-- The two ends of a MAC verification (R282). -/
theorem endsVerify_of {i : Instr} {s : State} {T : Block} (h0 : outLength i s = 0)
    (hx : exec i s = .next (endVerify i T s)) : EndsVerify i s T := by
  rw [endVerify] at hx
  constructor
  · intro h
    rw [hx, if_pos ((macVerified_iff T s).2 h), commit_eq_committed h0]; rfl
  · intro h
    rw [hx, if_neg fun hc => h ((macVerified_iff T s).1 hc), authFail_eq_failedAuth h0]

/-- The two ends of an AEAD decrypt (R301). -/
theorem endsAead_of {i : Instr} {s : State} {P T : List Byte} {t : Nat} (ht : i.fields.tlen = t) (hl : T.length = t)
    (h16 : t ≤ 16) (hP : P.length = outLength i s) (hx : exec i s = .next (endDecrypt i P T s)) : EndsAead i s P T t := by
  subst ht
  have hc : (ctEq T s.cl.tag.bytes i.fields.tlen = true) ↔ T.take i.fields.tlen = s.cl.tag.bytes.take i.fields.tlen :=
    ctEq_iff (by omega) (by simp; omega)
  simp only [EndsAead, ← hc]
  constructor
  · intro hv
    rw [endDecrypt, if_pos hv] at hx
    exact commit_stores hx rfl rfl rfl hP rfl
  · intro hv
    rw [endDecrypt, if_neg hv] at hx
    exact authFail_stores hx hP.symm

/-! ## What a command can answer -/

theorem ocbOut_length (s : State) (f : Block → Block) (off0 : Block) (x : List Byte) :
    (ocbOut s f off0 x).length = x.length := by
  simp only [ocbOut, List.length_append, blocks_length, xorBytes_length, List.length_drop, Bytes.length_bytes]
  omega

theorem ocb_length (s : State) (enc : Bool) (t : Nat) : (s.ocb enc t).1.length = s.src.length := by
  simp only [State.ocb, ocbCore, toBlocks, ocbCoreBlocks_eq]
  have := State.src_length s
  split <;> simp [joinChunks_length] at * <;> omega

/-- Every command's answer (R185, R501): the error of its first failing check; or, when all checks pass, a commit that
stores `outLength` bytes; or an authentication failure of one of the seven commands that verify. `u` is the state with
the key context and the stream the command leaves. -/
inductive Answers (i : Instr) (s : State) : Prop
  | error (c : ErrCode) (h : firstFailure i s = some c) (hx : exec i s = .next (errored s c))
  | commits (h : Passes i s) (out : List Byte) (tag : Option (List Byte)) (gfr : Option Block) (u : State)
      (hx : exec i s = .next (commit i out tag gfr u)) (ho : out.length = outLength i s)
      (ht : makesTag i = false → tag = none) (hg : isGf i = false → gfr = none)
      (hu : (u = s ∧ isStream i = false ∧ ∀ f, i ≠ .keyinit f)
        ∨ (isStream i = true ∧ ∃ (S : Stream) (d : Nat), S.smode = familyOf i ∧ (familyOf i = .ctr → S.fresh = true →
            (i.fields.cont = true → s.st.fresh = true → s.st.pos = 16) → S.pos = 16)
            ∧ u = { s with st := { S with valid := true }, draws := d })
        ∨ (∃ f kl, i = .keyinit f ∧ s.cl.keylen.toNat = kl.bytes ∧ u = keyinitState kl s))
  | fails (h : Passes i s) (hi : comparesTag i = true ∨ ∃ f, i = .kwUnwrap f) (hx : exec i s = .next (authFail i s))

theorem keylenOf_bytes (n : Nat) (kl : KeyLen) : KeyLen.ofNat? n = some kl ↔ n = kl.bytes := by
  unfold KeyLen.ofNat?
  cases kl <;> grind [KeyLen.bytes]

/-- A CTR stream whose counter is still fresh has made no block. -/
theorem ctrEnds_fresh {e : Block → Block} {S S' : Stream} {n : Nat} (h : CtrEnds e S n S') (h0 : S'.fresh = true)
    (hp : S.pos = 16) : S'.pos = 16 := by
  simp only [CtrEnds] at h
  split at h
  · rename_i hq
    have : n = 0 := by rw [hp] at hq; simpa using hq
    subst this
    rw [h, hp]; rfl
  · rw [h.2.1] at h0; cases h0

theorem streamStart_pos {fam : Family} {f : Fields} {s : State} (h0 : (streamStart fam f s).fresh = true)
    (h : f.cont = true → s.st.fresh = true → s.st.pos = 16) : (streamStart fam f s).pos = 16 := by
  unfold streamStart at h0 ⊢
  split
  · rename_i hc; rw [if_pos hc] at h0; exact h hc h0
  · rfl

theorem answers_stream {i : Instr} {s : State} {S : Stream} {out : List Byte} (hp : Passes i s)
    (hi : isStream i = true) (hx : exec i s = .next (commitStream i S out s)) (ho : out.length = outLength i s)
    (hm : S.smode = familyOf i) (hf : familyOf i = .ctr → S.fresh = true →
      (i.fields.cont = true → s.st.fresh = true → s.st.pos = 16) → S.pos = 16) : Answers i s :=
  .commits hp out none none _ hx ho (fun _ => rfl) (fun _ => rfl) (.inr (.inl ⟨hi, S, _, hm, hf, rfl⟩))

theorem exec_answers (i : Instr) (s : State) : Answers i s := by
  cases hf : firstFailure i s with
  | some c => exact .error c hf (by cases i <;> exact runChecked_error hf _)
  | none =>
    have hp : Passes i s := hf
    have hl := (passes_iff.1 hp).2.2.2.2.2.1
    cases i
    case keyinit f =>
      have hk := (passes_iff.1 hp).2.1
      have hx : exec (.keyinit f) s = .next _ := runChecked_pass hp _
      cases hn : KeyLen.ofNat? s.cl.keylen.toNat with
      | none => rw [← keylenFails_eq] at hk; simp [keylenFails, profile, hn] at hk
      | some kl =>
        simp only [hn] at hx
        exact .commits hp _ _ _ _ hx rfl (fun _ => rfl) (fun _ => rfl)
          (.inr (.inr ⟨f, kl, rfl, (keylenOf_bytes _ _).1 hn, rfl⟩))
    case cbcEnc f =>
      obtain ⟨-, -, hm⟩ := streamStart_begins hp rfl
      refine answers_stream hp rfl (runChecked_pass hp _) ?_ hm (fun h => by cases h)
      simp [cbcEnc_eq, joinChunks_length, failsLen, outLength] at hl ⊢; omega
    case cbcDec f =>
      obtain ⟨-, -, hm⟩ := streamStart_begins hp rfl
      refine answers_stream hp rfl (runChecked_pass hp _) ?_ hm (fun h => by cases h)
      simp [cbcDec_eq, joinChunks_length, failsLen, outLength] at hl ⊢; omega
    case ctr f =>
      have hx : exec (.ctr f) s = .next _ := runChecked_pass hp _
      obtain ⟨-, -, hm⟩ := streamStart_begins hp rfl
      have he := (ctrBytes_eq s.encK (streamStart .ctr f s) s.src).1
      have hs : (streamBytes (ctrByte s.encK) (streamStart .ctr f s) s.src).1.smode = (streamStart .ctr f s).smode := by
        simp only [CtrEnds] at he; split at he
        · rw [he]
        · exact he.1
      refine answers_stream hp rfl hx (by simp [outLength]) (hs.trans hm) fun _ h0 h =>
        ctrEnds_fresh he h0 (streamStart_pos ?_ h)
      simp only [CtrEnds] at he
      split at he
      · rw [he] at h0; exact h0
      · rw [he.2.1] at h0; cases h0
    case ofb f =>
      have hx : exec (.ofb f) s = .next _ := runChecked_pass hp _
      obtain ⟨-, -, hm⟩ := streamStart_begins hp rfl
      have he := (ofbBytes_eq s.encK (streamStart .ofb f s) s.src).1
      exact answers_stream hp rfl hx (by simp [outLength]) (he.1.trans hm) (fun h => by cases h)
    case cfbEnc f =>
      have hx : exec (.cfbEnc f) s = .next _ := runChecked_pass hp _
      obtain ⟨-, -, hm⟩ := streamStart_begins hp rfl
      have he := cfbSegs_eq s.encK false _ (segmentSize_le f.param) (s.src.length / segmentSize f.param)
        (streamStart (cfbFamily f.param) f s) s.src (passes_segments hp (.inl ⟨f, rfl⟩))
      simp only [cfbRun] at hx
      refine answers_stream hp rfl hx (by simpa [outLength] using he.1) (by rw [he.2.1, cfbFamily_eq]; exact hm)
        fun h => ?_
      simp only [familyOf] at h; split at h <;> cases h
    case cfbDec f =>
      have hx : exec (.cfbDec f) s = .next _ := runChecked_pass hp _
      obtain ⟨-, -, hm⟩ := streamStart_begins hp rfl
      have he := cfbSegs_eq s.encK true _ (segmentSize_le f.param) (s.src.length / segmentSize f.param)
        (streamStart (cfbFamily f.param) f s) s.src (passes_segments hp (.inr ⟨f, rfl⟩))
      simp only [cfbRun] at hx
      refine answers_stream hp rfl hx (by simpa [outLength] using he.1) (by rw [he.2.1, cfbFamily_eq]; exact hm)
        fun h => ?_
      simp only [familyOf] at h; split at h <;> cases h
    case cbcmacVer f =>
      have hx : exec (.cbcmacVer f) s = .next _ := runChecked_pass hp _
      rw [endVerify] at hx
      split at hx
      · exact .commits hp _ _ _ _ hx rfl (fun _ => rfl) (fun _ => rfl) (.inl ⟨rfl, rfl, fun _ h => by cases h⟩)
      · exact .fails hp (.inl rfl) hx
    case cmacVer f =>
      have hx : exec (.cmacVer f) s = .next _ := runChecked_pass hp _
      rw [endVerify] at hx
      split at hx
      · exact .commits hp _ _ _ _ hx rfl (fun _ => rfl) (fun _ => rfl) (.inl ⟨rfl, rfl, fun _ h => by cases h⟩)
      · exact .fails hp (.inl rfl) hx
    case gcmDec f =>
      have hx : exec (.gcmDec f) s = .next _ := runChecked_pass hp _
      rw [endDecrypt] at hx
      split at hx
      · exact .commits hp _ _ _ _ hx (by simp [gctrSrc_eq, gcmCrypt, outLength]) (fun _ => rfl) (fun _ => rfl)
          (.inl ⟨rfl, rfl, fun _ h => by cases h⟩)
      · exact .fails hp (.inl rfl) hx
    case ccmDec f =>
      have hx : exec (.ccmDec f) s = .next _ := runChecked_pass hp _
      rw [endDecrypt] at hx
      split at hx
      · exact .commits hp _ _ _ _ hx (by simp [ccmCrypt_eq, outLength]) (fun _ => rfl) (fun _ => rfl)
          (.inl ⟨rfl, rfl, fun _ h => by cases h⟩)
      · exact .fails hp (.inl rfl) hx
    case eaxDec f =>
      have hx : exec (.eaxDec f) s = .next _ := runChecked_pass hp _
      rw [endDecrypt] at hx
      split at hx
      · exact .commits hp _ _ _ _ hx (by simp [eaxCrypt_eq, eaxCryptOf, outLength]) (fun _ => rfl) (fun _ => rfl)
          (.inl ⟨rfl, rfl, fun _ h => by cases h⟩)
      · exact .fails hp (.inl rfl) hx
    case ocbDec f =>
      have hx : exec (.ocbDec f) s = .next _ := runChecked_pass hp _
      rw [endDecrypt] at hx
      split at hx
      · exact .commits hp _ _ _ _ hx (by simp [ocb_length, outLength]) (fun _ => rfl) (fun _ => rfl)
          (.inl ⟨rfl, rfl, fun _ h => by cases h⟩)
      · exact .fails hp (.inl rfl) hx
    case kwUnwrap f =>
      have hx : exec (.kwUnwrap f) s = .next _ := runChecked_pass hp _
      simp [failsLen] at hl
      split at hx
      · exact .commits hp _ _ _ _ hx (by rw [kwUnwrap_length _ (by simp; omega)]; simp [outLength]) (fun _ => rfl)
          (fun _ => rfl) (.inl ⟨rfl, rfl, fun _ h => by cases h⟩)
      · exact .fails hp (.inr ⟨f, rfl⟩) hx
    case kwWrap f =>
      simp [failsLen] at hl
      exact .commits hp _ _ _ _ (runChecked_pass hp _) (by rw [kwWrap_length _ (by simp; omega)]; simp [outLength])
        (fun _ => rfl) (fun _ => rfl) (.inl ⟨rfl, rfl, fun _ h => by cases h⟩)
    case ecbEnc f =>
      refine .commits hp _ _ _ _ (runChecked_pass hp _) ?_ (fun _ => rfl) (fun _ => rfl)
        (.inl ⟨rfl, rfl, fun _ h => by cases h⟩)
      simp [ecbBlocks_eq, blocks_length, failsLen, outLength] at hl ⊢; omega
    case ecbDec f =>
      refine .commits hp _ _ _ _ (runChecked_pass hp _) ?_ (fun _ => rfl) (fun _ => rfl)
        (.inl ⟨rfl, rfl, fun _ h => by cases h⟩)
      simp [ecbBlocks_eq, blocks_length, failsLen, outLength] at hl ⊢; omega
    case xtsEnc f =>
      simp [failsLen] at hl
      exact .commits hp _ _ _ _ (runChecked_pass hp _)
        (by rw [xtsCrypt_eq, xtsOut_length _ _ _ (by simpa using hl)]; simp [outLength]) (fun _ => rfl) (fun _ => rfl)
        (.inl ⟨rfl, rfl, fun _ h => by cases h⟩)
    case xtsDec f =>
      simp [failsLen] at hl
      exact .commits hp _ _ _ _ (runChecked_pass hp _)
        (by rw [xtsCrypt_eq, xtsOut_length _ _ _ (by simpa using hl)]; simp [outLength]) (fun _ => rfl) (fun _ => rfl)
        (.inl ⟨rfl, rfl, fun _ h => by cases h⟩)
    case nop f =>
      exact .commits hp _ _ _ _ (runChecked_pass hp _) rfl (fun _ => rfl) (fun _ => rfl)
        (.inl ⟨rfl, rfl, fun _ h => by cases h⟩)
    case cbcmacGen f =>
      exact .commits hp _ _ _ _ (runChecked_pass hp _) rfl (fun h => by cases h) (fun _ => rfl)
        (.inl ⟨rfl, rfl, fun _ h => by cases h⟩)
    case cmacGen f =>
      exact .commits hp _ _ _ _ (runChecked_pass hp _) rfl (fun h => by cases h) (fun _ => rfl)
        (.inl ⟨rfl, rfl, fun _ h => by cases h⟩)
    case gcmEnc f =>
      exact .commits hp _ _ _ _ (runChecked_pass hp _) (by simp [gctrSrc_eq, gcmCrypt, outLength])
        (fun h => by cases h) (fun _ => rfl) (.inl ⟨rfl, rfl, fun _ h => by cases h⟩)
    case ccmEnc f =>
      exact .commits hp _ _ _ _ (runChecked_pass hp _) (by simp [ccmCrypt_eq, outLength])
        (fun h => by cases h) (fun _ => rfl) (.inl ⟨rfl, rfl, fun _ h => by cases h⟩)
    case eaxEnc f =>
      exact .commits hp _ _ _ _ (runChecked_pass hp _) (by simp [eaxCrypt_eq, eaxCryptOf, outLength])
        (fun h => by cases h) (fun _ => rfl) (.inl ⟨rfl, rfl, fun _ h => by cases h⟩)
    case ocbEnc f =>
      exact .commits hp _ _ _ _ (runChecked_pass hp _) (by simp [ocb_length, outLength])
        (fun h => by cases h) (fun _ => rfl) (.inl ⟨rfl, rfl, fun _ h => by cases h⟩)
    all_goals
      exact .commits hp _ _ _ _ (runChecked_pass hp _) rfl (fun _ => rfl) (fun h => by cases h)
        (.inl ⟨rfl, rfl, fun _ h => by cases h⟩)

/-- A command run in a changed state: where the checks answer alike, and both ends are changed alike, so is the outcome. -/
theorem runChecked_mapNext {i : Instr} {s s' ok ok' : State} (g : State → State) (hc : check i s' = check i s)
    (hr : ∀ c, raiseError c s' = g (raiseError c s)) (ho : ok' = g ok) :
    runChecked i s' ok' = mapNext g (runChecked i s ok) := by
  unfold runChecked
  rw [hc]
  cases check i s <;> simp [mapNext, hr, ho]

end Sys2Proof.Machine
end

