-- ==== Sys2Proof/Laws/Gf.lean ====
section
/-! SUPPORT. GF(2^128): the two multiplies are linear in both operands, and what they do to one bit. -/

namespace Sys2Proof

/-- What holds of 0 and of each power of two below `2^n`, and is kept by xor, holds of every number below `2^n`. -/
theorem xor_induction {P : Nat → Prop} {n : Nat} (h0 : P 0) (hx : ∀ a b, P a → P b → P (a ^^^ b))
    (hp : ∀ i < n, P (2 ^ i)) {v : Nat} (hv : v < 2 ^ n) : P v := by
  induction n generalizing v with
  | zero => rw [show v = 0 by simpa using hv]; exact h0
  | succ n ih =>
    have ih' := fun {w : Nat} => ih (v := w) (fun i hi => hp i (by omega))
    by_cases hb : 2 ^ n ≤ v
    · have hlt : v - 2 ^ n < 2 ^ n := by rw [Nat.pow_succ] at hv; omega
      have he : v = 2 ^ n ^^^ (v - 2 ^ n) := by
        apply Nat.eq_of_testBit_eq
        intro j
        have hv' : v = 2 ^ n * 1 + (v - 2 ^ n) := by omega
        rw [hv', Nat.testBit_two_pow_mul_add 1 hlt, Nat.testBit_xor, Nat.testBit_two_pow]
        have hs : 2 ^ n * 1 + (v - 2 ^ n) - 2 ^ n = v - 2 ^ n := by omega
        rw [hs]
        rcases Nat.lt_trichotomy j n with h | h | h
        · simp [h, show ¬ n = j by omega]
        · subst h; simp [Nat.testBit_lt_two_pow hlt]
        · rw [Nat.testBit_lt_two_pow (lt_trans hlt (Nat.pow_lt_pow_right (by decide) h))]
          have h1 : Nat.testBit 1 (j - n) = false := Nat.testBit_lt_two_pow (Nat.one_lt_two_pow (by omega))
          simp [show ¬ j < n by omega, show ¬ n = j by omega, h1]
      rw [he]
      exact hx _ _ (hp n (by omega)) (ih' hlt)
    · exact ih' (by omega)

/-! ## GHASH convention -/

/-- The step of `V` in R204: a shift toward the last string bit, with the bit shifted out folded in. -/
def gStep (v : Nat) : Nat := if v.testBit 0 then (v >>> 1) ^^^ (0xE1 <<< 120) else v >>> 1

theorem gmulLoop_succ (x n v z : Nat) :
    gmulLoop x (n + 1) v z = gmulLoop x n (gStep v) (if x.testBit n then z ^^^ v else z) := rfl

theorem gStep_xor (a b : Nat) : gStep (a ^^^ b) = gStep a ^^^ gStep b := by
  simp only [gStep, Nat.testBit_xor, Nat.shiftRight_xor_distrib]
  generalize (0xE1 : Nat) <<< 120 = r
  cases a.testBit 0 <;> cases b.testBit 0 <;> simp <;>
    (apply Nat.eq_of_testBit_eq; intro j; simp only [Nat.testBit_xor]
     cases (a >>> 1).testBit j <;> cases (b >>> 1).testBit j <;> cases r.testBit j <;> rfl)

theorem gStep_iterate_xor (k a b : Nat) : gStep^[k] (a ^^^ b) = gStep^[k] a ^^^ gStep^[k] b := by
  induction k generalizing a b with
  | zero => rfl
  | succ k ih => rw [Function.iterate_succ_apply, gStep_xor, ih]; rfl

theorem gStep_iterate_zero (k : Nat) : gStep^[k] 0 = 0 := by
  induction k with
  | zero => rfl
  | succ k ih => rw [Function.iterate_succ_apply, show gStep 0 = 0 by decide, ih]

theorem gStep_two_pow (i : Nat) : gStep (2 ^ (i + 1)) = 2 ^ i := by
  have : (2 ^ (i + 1)).testBit 0 = false := by simp
  rw [gStep, this, Nat.shiftRight_eq_div_pow, Nat.pow_succ]; simp

theorem gStep_iterate_two_pow (k i : Nat) : gStep^[k] (2 ^ (i + k)) = 2 ^ i := by
  induction k with
  | zero => rfl
  | succ k ih => rw [Function.iterate_succ_apply, ← Nat.add_assoc, gStep_two_pow, ih]

theorem xor_regroup4 (a b c d : Nat) : (a ^^^ b) ^^^ (c ^^^ d) = (a ^^^ c) ^^^ (b ^^^ d) := by
  apply Nat.eq_of_testBit_eq; intro j; simp only [Nat.testBit_xor]
  cases a.testBit j <;> cases b.testBit j <;> cases c.testBit j <;> cases d.testBit j <;> rfl

theorem gmulLoop_xor_left (x x' n v z z' : Nat) :
    gmulLoop (x ^^^ x') n v (z ^^^ z') = gmulLoop x n v z ^^^ gmulLoop x' n v z' := by
  induction n generalizing v z z' with
  | zero => rfl
  | succ n ih =>
    rw [gmulLoop_succ, gmulLoop_succ, gmulLoop_succ, ← ih, Nat.testBit_xor]
    congr 1
    cases x.testBit n <;> cases x'.testBit n <;> simp <;>
      (apply Nat.eq_of_testBit_eq; intro j; simp only [Nat.testBit_xor]
       cases z.testBit j <;> cases z'.testBit j <;> cases v.testBit j <;> rfl)

theorem gmulLoop_xor_right (x n v v' z z' : Nat) :
    gmulLoop x n (v ^^^ v') (z ^^^ z') = gmulLoop x n v z ^^^ gmulLoop x n v' z' := by
  induction n generalizing v v' z z' with
  | zero => rfl
  | succ n ih =>
    rw [gmulLoop_succ, gmulLoop_succ, gmulLoop_succ, ← ih, gStep_xor]
    congr 1
    cases x.testBit n
    · rfl
    · simp only [if_true]; exact xor_regroup4 ..

theorem gmulLoop_zero_left (n v z : Nat) : gmulLoop 0 n v z = z := by
  induction n generalizing v z with
  | zero => rfl
  | succ n ih => rw [gmulLoop_succ, Nat.zero_testBit, ih]; rfl

theorem gmulLoop_zero_right (x n z : Nat) : gmulLoop x n 0 z = z := by
  induction n generalizing z with
  | zero => rfl
  | succ n ih => rw [gmulLoop_succ, show gStep 0 = 0 by decide, ih]; simp

/-- One bit of X picks one step of V. -/
theorem gmulLoop_two_pow {i n : Nat} (h : i < n) (v z : Nat) : gmulLoop (2 ^ i) n v z = z ^^^ gStep^[n - 1 - i] v := by
  induction n generalizing v z with
  | zero => omega
  | succ n ih =>
    rw [gmulLoop_succ, Nat.testBit_two_pow]
    by_cases he : i = n
    · subst he
      have hz : ∀ m v z, m ≤ i → gmulLoop (2 ^ i) m v z = z := by
        intro m
        induction m with
        | zero => intro v z _; rfl
        | succ m ihm =>
          intro v z hm
          rw [gmulLoop_succ, Nat.testBit_two_pow, ihm _ _ (by omega)]
          simp [show ¬ i = m by omega]
      rw [hz i _ _ (Nat.le_refl i)]; simp
    · rw [ih (by omega)]
      rw [show n + 1 - 1 - i = (n - 1 - i) + 1 by omega, Function.iterate_succ_apply]; simp [he]

/-! ## POLYVAL convention -/

/-- The halving of R205. -/
def pStep (z : Nat) : Nat := (if z.testBit 0 then z ^^^ polyvalP else z) >>> 1

theorem pmulLoop_succ (a b n z : Nat) :
    pmulLoop a b (n + 1) z = pmulLoop a b n (pStep (if b.testBit (127 - n) then z ^^^ a else z)) := rfl

theorem pStep_xor (a b : Nat) : pStep (a ^^^ b) = pStep a ^^^ pStep b := by
  simp only [pStep, ← Nat.shiftRight_xor_distrib, Nat.testBit_xor]
  congr 1
  generalize polyvalP = r
  cases a.testBit 0 <;> cases b.testBit 0 <;> simp <;>
    (apply Nat.eq_of_testBit_eq; intro j; simp only [Nat.testBit_xor]
     cases a.testBit j <;> cases b.testBit j <;> cases r.testBit j <;> rfl)

theorem pStep_iterate_xor (k a b : Nat) : pStep^[k] (a ^^^ b) = pStep^[k] a ^^^ pStep^[k] b := by
  induction k generalizing a b with
  | zero => rfl
  | succ k ih => rw [Function.iterate_succ_apply, pStep_xor, ih]; rfl

theorem pStep_two_pow (i : Nat) : pStep (2 ^ (i + 1)) = 2 ^ i := by
  have : (2 ^ (i + 1)).testBit 0 = false := by simp
  rw [pStep, this, Nat.shiftRight_eq_div_pow, Nat.pow_succ]; simp

theorem pStep_iterate_two_pow (k i : Nat) : pStep^[k] (2 ^ (i + k)) = 2 ^ i := by
  induction k with
  | zero => rfl
  | succ k ih => rw [Function.iterate_succ_apply, ← Nat.add_assoc, pStep_two_pow, ih]

theorem pStep_iterate_zero (k : Nat) : pStep^[k] 0 = 0 := by
  induction k with
  | zero => rfl
  | succ k ih => rw [Function.iterate_succ_apply, show pStep 0 = 0 by decide, ih]

theorem pmulLoop_xor_left (a a' b n z z' : Nat) :
    pmulLoop (a ^^^ a') b n (z ^^^ z') = pmulLoop a b n z ^^^ pmulLoop a' b n z' := by
  induction n generalizing z z' with
  | zero => rfl
  | succ n ih =>
    rw [pmulLoop_succ, pmulLoop_succ, pmulLoop_succ, ← ih, ← pStep_xor]
    congr 2
    cases b.testBit (127 - n)
    · rfl
    · simp only [if_true]; exact xor_regroup4 ..

theorem pmulLoop_xor_right (a b b' n z z' : Nat) :
    pmulLoop a (b ^^^ b') n (z ^^^ z') = pmulLoop a b n z ^^^ pmulLoop a b' n z' := by
  induction n generalizing z z' with
  | zero => rfl
  | succ n ih =>
    rw [pmulLoop_succ, pmulLoop_succ, pmulLoop_succ, ← ih, ← pStep_xor, Nat.testBit_xor]
    congr 2
    cases b.testBit (127 - n) <;> cases b'.testBit (127 - n) <;> simp <;>
      (apply Nat.eq_of_testBit_eq; intro j; simp only [Nat.testBit_xor]
       cases z.testBit j <;> cases z'.testBit j <;> cases a.testBit j <;> rfl)

theorem pmulLoop_zero_left (b n : Nat) : pmulLoop 0 b n 0 = 0 := by
  induction n with
  | zero => rfl
  | succ n ih => rw [pmulLoop_succ]; simpa [show pStep 0 = 0 by decide] using ih

theorem pmulLoop_zero_right (a n z : Nat) : pmulLoop a 0 n z = pStep^[n] z := by
  induction n generalizing z with
  | zero => rfl
  | succ n ih => rw [pmulLoop_succ, Nat.zero_testBit, ih]; rfl

/-- One bit of `b` adds `a` once, and what follows halves it. -/
theorem pmulLoop_two_pow {j n : Nat} (hn : n ≤ 128) (hj : j < 128) (h : 128 - n ≤ j) (a z : Nat) :
    pmulLoop a (2 ^ j) n z = pStep^[n] z ^^^ pStep^[128 - j] a := by
  induction n generalizing z with
  | zero => omega
  | succ n ih =>
    rw [pmulLoop_succ, Nat.testBit_two_pow]
    by_cases he : j = 127 - n
    · have hz : ∀ m z, m ≤ n → pmulLoop a (2 ^ j) m z = pStep^[m] z := by
        intro m
        induction m with
        | zero => intro z _; rfl
        | succ m ihm =>
          intro z hm
          rw [pmulLoop_succ, Nat.testBit_two_pow, ihm _ (by omega)]
          simp [show ¬ j = 127 - m by omega]
      rw [hz n _ (Nat.le_refl n), show 128 - j = n + 1 by omega, Function.iterate_succ_apply, Function.iterate_succ_apply,
        ← pStep_iterate_xor, ← pStep_xor]
      simp [he]
    · rw [ih (by omega) (by omega)]
      simp [he, Function.iterate_succ_apply]

/-- Byte `i` of a block, from its little-endian integer. -/
theorem Bytes.byte_eq_intLE (x : Block) (i : Nat) (h : i < 16) :
    x.byte i = BitVec.ofNat 8 (intLE x.bytes / 2 ^ (8 * i)) := by
  have := getD_leBytes (n := 16) (intLE x.bytes) h
  rw [← this]; conv_lhs => rw [← Bytes.le_intLE x]
  rfl

/-- Bit `j` of byte `i` is bit `8i+j` of the little-endian integer. -/
theorem Bytes.byte_testBit (x : Block) (i j : Nat) (h : i < 16) (hj : j < 8) :
    (x.byte i).getLsbD j = (intLE x.bytes).testBit (8*i+j) := by
  rw [Bytes.byte_eq_intLE x i h, BitVec.getLsbD_ofNat, Nat.testBit_div_two_pow]; simp [hj, Nat.add_comm]

/-- The same of a block built from an integer. -/
theorem Bytes.le_byte_bit (v : Nat) (i j : Nat) (h : i < 16) (hj : j < 8) :
    ((Bytes.le 16 v).byte i).getLsbD j = v.testBit (8*i+j) := by
  rw [Bytes.byte_testBit _ _ _ h hj, intLE_le, Nat.testBit_mod_two_pow]; simp; omega

/-- Bit `k` of a doubled integer: bit `k-1`, and the reduction if bit 127 was set. -/
theorem dblInt_bit (v k : Nat) : (dblInt v).testBit k =
    ((decide (k < 128) && (decide (1 ≤ k) && v.testBit (k - 1))) ^^ (v.testBit 127 && (0x87 : Nat).testBit k)) := by
  have h1 : ((v <<< 1) % 2 ^ 128).testBit k = (decide (k < 128) && (decide (1 ≤ k) && v.testBit (k - 1))) := by
    rw [Nat.testBit_mod_two_pow, Nat.testBit_shiftLeft]
  unfold dblInt
  simp only
  split <;> rename_i h
  · rw [Nat.testBit_xor, h1, h]; simp
  · rw [h1]; simp at h; simp [h]

/-- dbl_be is dbl_le of the reversed bytes. -/
theorem dblBe_bytes (x : Block) : (dblBe x).bytes = (dblLe ⟨x.bytes.reverse, by simp⟩).bytes.reverse := by
  simp only [dblBe, dblLe, Bytes.be_bytes, Bytes.le_bytes, beBytes_eq, intBE_eq]

end Sys2Proof
end

