-- ==== Sys2Proof/Laws/Invariant.lean ====
section
/-! SUPPORT. Which operations keep the invariant `Safety.Inv`, one by one. -/

namespace Sys2Proof.Machine

open Sys2Proof.Safety

/-- What the invariant says of `KC`, KEY, KEYLEN, `ST` and the parameters alone. -/
theorem keyContextOk_of_eq {s t : State} (h : KeyContextOk s) (h1 : t.kc = s.kc) (h2 : t.key = s.key)
    (h3 : t.keylen = s.keylen) (h4 : t.cfg = s.cfg) : KeyContextOk t := by
  have hE : ∀ k b, t.E k b = s.E k b := fun k b => by simp only [State.E, h4]
  obtain ⟨a1, a2, a3, a4, a5, a6, a7, a8, a9⟩ := h
  exact ⟨by rw [h1, h2]; exact a1, by rw [h1, h3]; exact a2, by rw [h1]; exact a3, by rw [h1, hE]; exact a4,
    by rw [h1]; exact a5, by rw [h1]; exact a6, by rw [h1]; exact a7, by rw [h1]; exact a8, by rw [h1]; exact a9⟩

theorem dblChain_get (n : Nat) (b : Block) {j : Nat} (h : j < n) : (dblChain n b)[j]? = some (dblBe^[j] b) := by
  induction n generalizing b j with
  | zero => omega
  | succ n ih =>
    cases j with
    | zero => rfl
    | succ j => exact ih (dblBe b) (by omega)

theorem ocbSeries_eq (b : Block) (j : Nat) : ocbSeries b j = dblBe^[j] (dblBe b) := by
  induction j with
  | zero => rfl
  | succ j ih => rw [ocbSeries, ih, Function.iterate_succ_apply']

/-- KEYINIT builds a context that is right for KEY and KEYLEN (R190, R191). -/
theorem keyinit_contextOk {s t : State} {kl : KeyLen} (hk : t.kc = (keyinitState kl s).kc) (h1 : t.key = s.key)
    (h2 : t.keylen.toNat = kl.bytes) (h3 : t.cfg = s.cfg) : KeyContextOk t := by
  have hE : ∀ k b, t.E k b = s.E k b := fun k b => by simp only [State.E, h3]
  have hl : ∀ b : Block, ∀ j, j < 32 → (dblChain Config.lmax (dblBe b))[j]? = some (ocbSeries b j) := fun b j hj => by
    have := dblChain_get Config.lmax (dblBe b) (j := j) hj
    rw [this, ocbSeries_eq]
  constructor <;> rw [hk] <;> simp only [keyinitState, keyContextOf, h1, h2, hE] <;> cases kl <;>
    simp [KeyContext.withSubkeys, KeyContext.undefinedBut, KeyLen.bytes] <;> exact hl _

theorem hardReset_inv {s : State} (h : s.cfg.wf) : Inv (hardReset s) := by
  constructor <;> first | exact h | exact List.Pairwise.nil | simp [hardReset, State.reset, KeyContext.reset, Stream.reset]

/-- The bytes a passing command may write lie inside MSG. -/
theorem writeBytes_in {m : Memory} {n a : Nat} {v : List Byte} (h : ∀ c ∈ m, c.1 < n) (hv : v = [] ∨ a + v.length ≤ n) :
    ∀ c ∈ Memory.writeBytes m a v, c.1 < n := by
  intro c hc
  rcases Memory.mem_writeBytes hc with h' | h'
  · rcases hv with rfl | hv
    · simp at h'; omega
    · omega
  · exact h c h'

theorem softReset_inv {s : State} (h : Inv s) : Inv (softReset s) := by
  have hm : Memory.wf (msgAfterSoftReset s) ∧ ∀ c ∈ msgAfterSoftReset s, c.1 < s.msgSize := by
    unfold msgAfterSoftReset
    split
    · rename_i i _ hc
      refine ⟨Memory.writeBytes_wf h.msg_wf _ _, writeBytes_in h.msg_in ?_⟩
      have hp : Passes i s := by
        rw [Passes, ← check_eq]
        unfold checkLatched at hc
        split at hc
        · cases hc
        · split at hc <;> cases hc; assumption
      rcases (passes_range hp).2 with h0 | h0
      · left; rw [outlen_eq, h0]; rfl
      · right; simpa [freeBytes, outlen_eq] using h0
    · exact ⟨h.msg_wf, h.msg_in⟩
  constructor <;>
    first | exact h.cfg_wf | exact hm.1 | exact hm.2 | simp [softReset, State.reset, KeyContext.reset, Stream.reset]

theorem raiseError_inv {s : State} {c : ErrCode} (h : Inv s) (hb : s.seq = .busy) (hc : c ≠ .none) :
    Inv (raiseError c s) :=
  ⟨h.cfg_wf, h.msg_wf, h.msg_in, fun hv => keyContextOk_of_eq (h.kc_ok hv) rfl rfl rfl rfl, h.st_key, h.st_fresh,
    fun h' => by simp at h', fun h' => by simp at h', by simp [hc], by simp, fun _ => (h.busy_status hb).2.2.2.2,
    h.out_le⟩

theorem statusWrite_inv {s : State} {v : Word} (h : Inv s) : Inv (statusWrite v s) :=
  ⟨h.cfg_wf, h.msg_wf, h.msg_in, fun hv => keyContextOk_of_eq (h.kc_ok hv) rfl rfl rfl rfl, h.st_key, h.st_fresh, h.frozen,
    fun hb => by
      obtain ⟨h1, h2⟩ := h.busy_status hb
      exact ⟨by simp [statusWrite, h1], h2⟩,
    h.err_code, h.one_outcome, h.out_zero, h.out_le⟩

theorem start_inv {s : State} (h : Inv s) : Inv (start s) :=
  ⟨h.cfg_wf, h.msg_wf, h.msg_in, fun hv => keyContextOk_of_eq (h.kc_ok hv) rfl rfl rfl rfl, h.st_key, h.st_fresh, fun _ => rfl,
    fun _ => ⟨rfl, rfl, rfl, rfl, rfl⟩, by simp, by simp, by simp, by simp⟩

theorem outLength_congr {i : Instr} {s t : State} (h : t.cl = s.cl) : outLength i t = outLength i s := by
  simp only [outLength, h]

theorem msgSize_pos (s : State) : s.msgSize ≤ 65536 := by
  unfold State.msgSize MsgSize.bytes; split <;> decide

theorem out_ofNat {n : Nat} {s : State} (h : n ≤ s.msgSize) : (BitVec.ofNat 32 n).toNat ≤ s.msgSize := by
  rw [BitVec.toNat_ofNat]; exact Nat.le_trans (Nat.mod_le _ _) h

theorem passes_outLength {i : Instr} {s : State} (h : Passes i s) : outLength i s ≤ s.msgSize := by
  rcases (passes_range h).2 with h0 | h0 <;> omega

theorem abort_inv {s : State} (h : Inv s) (hb : s.seq = .busy) : Inv (abort s) := by
  unfold abort
  split
  · rename_i c hc
    refine raiseError_inv h hb ?_
    unfold checkLatched at hc
    split at hc
    · cases hc; decide
    · split at hc
      · rename_i c' hc'
        cases hc
        rw [check_eq] at hc'
        exact (firstFailure_ne _ _ _ hc').1
      · cases hc
  · rename_i i hc
    have hp : Passes i s := by
      rw [Passes, ← check_eq]
      unfold checkLatched at hc
      split at hc
      · cases hc
      · split at hc <;> cases hc; assumption
    have hm : Memory.wf (msgZeroed i s) ∧ ∀ c ∈ msgZeroed i s, c.1 < s.msgSize := by
      unfold msgZeroed
      split
      · refine ⟨Memory.writeBytes_wf h.msg_wf _ _, writeBytes_in h.msg_in ?_⟩
        rcases (passes_range hp).2 with h0 | h0
        · left; rw [outlen_eq, h0]; rfl
        · right; simpa [outlen_eq] using h0
      · exact ⟨h.msg_wf, h.msg_in⟩
    refine ⟨h.cfg_wf, hm.1, hm.2, ?_, ?_, ?_, fun h' => by simp at h', fun h' => by simp at h', by simp, by simp,
      fun _ => rfl, by simp⟩
    · intro hv
      simp only [abortRun_kc] at hv
      split at hv
      · cases hv
      · rename_i hk
        exact keyContextOk_of_eq (h.kc_ok hv) (by rw [abortRun_kc, if_neg hk]) rfl rfl rfl
    · intro hv
      simp only [abortRun_st] at hv
      split at hv
      · cases hv
      · rename_i hk
        simp only [Bool.or_eq_true, not_or] at hk
        simp only [abortRun_kc, if_neg hk.2]
        exact h.st_key hv
    · intro hv
      simp only [abortRun_st] at hv ⊢
      split at hv
      · cases hv
      · rename_i hk; rw [if_neg hk]; exact h.st_fresh hv

/-- A command keeps the invariant, in a state in which it can run. -/
theorem exec_inv {i : Instr} {s t : State} (h : Inv s) (hb : s.seq = .busy) (hx : exec i s = .next t) : Inv t := by
  rcases exec_answers i s with ⟨c, hf, hx'⟩ | ⟨hp, out, tag, gfr, u, hx', ho, ht, hg, hu⟩ | ⟨hp, hi, hx'⟩
  · rw [hx'] at hx; cases hx
    exact raiseError_inv h hb (firstFailure_ne i s c hf).1
  · rw [hx'] at hx; cases hx
    have hcl : u.cl = s.cl ∧ u.msg = s.msg ∧ u.cfg = s.cfg ∧ u.key = s.key ∧ u.keylen = s.keylen := by
      rcases hu with ⟨rfl, -⟩ | ⟨-, S, d, -, -, rfl⟩ | ⟨f, kl, rfl, -, rfl⟩ <;> exact ⟨rfl, rfl, rfl, rfl, rfl⟩
    have hout : outlen i u = outLength i s := by rw [outlen_eq, outLength_congr hcl.1]
    have hm : Memory.wf (commit i out tag gfr u).msg ∧ ∀ c ∈ (commit i out tag gfr u).msg, c.1 < s.msgSize := by
      rw [commit_msg, hcl.2.1, hcl.1]
      split
      · refine ⟨Memory.writeBytes_wf h.msg_wf _ _, writeBytes_in h.msg_in ?_⟩
        rcases (passes_range hp).2 with h0 | h0
        · left; exact List.length_eq_zero_iff.1 (by omega)
        · right; omega
      · exact ⟨h.msg_wf, h.msg_in⟩
    have hms : (commit i out tag gfr u).msgSize = s.msgSize := by simp only [State.msgSize, commit_cfg, hcl.2.2.1]
    have hole : (commit i out tag gfr u).outLen.toNat ≤ (commit i out tag gfr u).msgSize := by
      rw [hms, commit_outLen, hout]; exact out_ofNat (passes_outLength hp)
    have common : ∀ (h1 : (commit i out tag gfr u).kc.valid = true → KeyContextOk (commit i out tag gfr u))
        (h2 : u.st.valid = true → u.kc.valid = true ∧ u.kc.klen ≠ .k64)
        (h3 : u.st.valid = true → u.st.smode = .ctr → u.st.fresh = true → u.st.pos = 16),
        Inv (commit i out tag gfr u) := fun h1 h2 h3 =>
      ⟨by rw [commit_cfg, hcl.2.2.1]; exact h.cfg_wf, hm.1, by rw [hms]; exact hm.2, h1, h2, h3, fun h' => by simp at h',
        fun h' => by simp at h', by simp, by simp, by simp, hole⟩
    rcases hu with ⟨rfl, -⟩ | ⟨hs, S, d, hsm, hfr, rfl⟩ | ⟨f, kl, rfl, hkl, rfl⟩
    · exact common (fun hv => keyContextOk_of_eq (h.kc_ok hv) rfl rfl rfl rfl) h.st_key h.st_fresh
    · refine common (fun hv => keyContextOk_of_eq (h.kc_ok hv) rfl rfl rfl rfl) (fun _ => ?_) (fun _ h1 h2 => ?_)
      · have hk : keyed i = true ∧ isXts i = false := by cases i <;> first | exact ⟨rfl, rfl⟩ | cases hs
        have := passes_keyed hp hk.1
        exact ⟨this.1, this.2 hk.2⟩
      · refine hfr (hsm.symm.trans h1) h2 fun hc hf => ?_
        obtain ⟨a, b⟩ := passes_state hp hs hc
        exact h.st_fresh a (b.trans (hsm.symm.trans h1)) hf
    · refine common (fun _ => keyinit_contextOk (s := s) rfl rfl ?_ rfl) (fun hv => by simp at hv) (fun hv => by simp at hv)
      have := h.frozen hb
      rw [this] at hkl
      exact hkl
  · rw [hx'] at hx; cases hx
    have hm : Memory.wf (msgZeroed i s) ∧ ∀ c ∈ msgZeroed i s, c.1 < s.msgSize := by
      unfold msgZeroed
      split
      · refine ⟨Memory.writeBytes_wf h.msg_wf _ _, writeBytes_in h.msg_in ?_⟩
        rcases (passes_range hp).2 with h0 | h0
        · left; rw [outlen_eq, h0]; rfl
        · right; simpa [outlen_eq] using h0
      · exact ⟨h.msg_wf, h.msg_in⟩
    exact ⟨h.cfg_wf, hm.1, hm.2, fun hv => keyContextOk_of_eq (h.kc_ok hv) rfl rfl rfl rfl, h.st_key, h.st_fresh,
      fun h' => by simp at h', fun h' => by simp at h', by simp, by simp, fun _ => rfl, by simp⟩

/-- The fields the invariant does not speak of. -/
theorem inv_of_eq {s t : State} (h : Inv s) (h1 : t = { s with
    irqEn := t.irqEn, busyerr := t.busyerr, gfr := t.gfr, inputs := t.inputs, response := t.response,
    msgDraw := t.msgDraw, draws := t.draws }) : Inv t := by
  rw [h1]
  exact ⟨h.cfg_wf, h.msg_wf, h.msg_in, fun hv => keyContextOk_of_eq (h.kc_ok hv) rfl rfl rfl rfl, h.st_key, h.st_fresh, h.frozen,
    h.busy_status, h.err_code, h.one_outcome, h.out_zero, h.out_le⟩

theorem ctrlWrite_inv {s : State} {v : Word} (h : Inv s) : Inv (ctrlWrite v s) := by
  have h1 : Inv { s with irqEn := bitField v 3 1 == 1 } := inv_of_eq h rfl
  unfold ctrlWrite
  split
  · exact softReset_inv h
  · simp only
    split
    · rename_i hb; exact abort_inv h1 hb.2
    · split
      · split
        · exact inv_of_eq h1 rfl
        · exact start_inv h1
      · exact h1

theorem invalidateKey_inv {s t : State} (h : Inv s) (hi : s.seq = .idle)
    (h1 : t = { s with key := t.key, keylen := t.keylen }) : Inv (invalidateKey t) := by
  rw [h1]
  exact ⟨h.cfg_wf, h.msg_wf, h.msg_in, fun hv => by simp at hv, fun hv => by simp at hv, fun hv => by simp at hv,
    fun h' => by simp [hi] at h', fun h' => by simp [hi] at h', h.err_code, h.one_outcome, h.out_zero, h.out_le⟩

/-- While IDLE the operand registers are free. -/
theorem inv_of_idle {s t : State} (h : Inv s) (hi : s.seq = .idle) (h1 : t = { s with
    cmd := t.cmd, srcPtr := t.srcPtr, srcLen := t.srcLen, dstPtr := t.dstPtr, aadPtr := t.aadPtr, aadLen := t.aadLen,
    noncePtr := t.noncePtr, nonceLen := t.nonceLen, rxtlen := t.rxtlen, tag := t.tag, gfa := t.gfa, gfb := t.gfb }) :
    Inv t := by
  rw [h1]
  exact ⟨h.cfg_wf, h.msg_wf, h.msg_in, fun hv => keyContextOk_of_eq (h.kc_ok hv) rfl rfl rfl rfl, h.st_key, h.st_fresh,
    fun h' => by simp [hi] at h', fun h' => by simp [hi] at h', h.err_code, h.one_outcome, h.out_zero, h.out_le⟩

theorem storeReg_inv {s : State} {r : Reg} {v : Word} (h : Inv s) (hi : s.seq = .idle) : Inv (storeReg r v s) := by
  cases r
  case keylen => exact invalidateKey_inv h hi rfl
  case key => exact invalidateKey_inv h hi rfl
  all_goals exact inv_of_idle h hi rfl

theorem writeReg_inv {s : State} {r : Reg} {v : Word} (h : Inv s) : Inv (writeReg r v s) := by
  unfold writeReg
  split
  · exact ctrlWrite_inv h
  · exact statusWrite_inv h
  · split
    · exact inv_of_eq h rfl
    · rename_i hb
      exact storeReg_inv h (by cases hs : s.seq <;> simp_all)

theorem memWrite_inv {s : State} {a : Nat} {v : List Byte} (h : Inv s) (hv : a + v.length ≤ s.msgSize) :
    Inv (s.memWrite a v) :=
  ⟨h.cfg_wf, Memory.writeBytes_wf h.msg_wf _ _, writeBytes_in h.msg_in (.inr hv),
    fun hv => keyContextOk_of_eq (h.kc_ok hv) rfl rfl rfl rfl, h.st_key, h.st_fresh, h.frozen, h.busy_status, h.err_code,
    h.one_outcome, h.out_zero, h.out_le⟩

/-- An aligned access that begins inside MSG ends inside it: MSG_SIZE is a multiple of 4 (R104). -/
theorem target_msg_in {s : State} {w : Width} {o a : Nat} (h : target s w o = .msg a) : a + w.bytes ≤ s.msgSize := by
  have hm : s.msgSize % 4 = 0 := by unfold State.msgSize MsgSize.bytes; split <;> decide
  unfold target at h
  split at h
  · split at h
    · split at h <;> cases h
    · cases h
  · simp only at h
    split at h
    · rename_i hc
      injection h with h; subst h
      cases w <;> simp only [Width.bytes] at hc ⊢ <;> omega
    · cases h

theorem hostAccess_inv {s : State} {a : Access} (h : Inv s) : Inv (hostAccess a s) := by
  unfold hostAccess
  split
  · have : Inv (accessAt a (a.addr - s.cfg.devBase) s).1 := by
      unfold accessAt
      split
      · split
        · exact h
        · split
          · exact inv_of_eq h rfl
          · exact h
        · exact h
      · split
        · exact writeReg_inv h
        · rename_i ht
          split
          · exact inv_of_eq h rfl
          · exact memWrite_inv h (by rw [laneBytes, leBytes_length]; exact target_msg_in ht)
        · exact h
    exact inv_of_eq this rfl
  · exact inv_of_eq h rfl

end Sys2Proof.Machine
end

