-- ==== Sys2Proof/Laws/PerInstr.lean ====
section
/-! SUPPORT. One lemma for each command about its word: the assembled word of a well-formed command selects the
command's row of spec/30_encoding.md rule R150. -/

namespace Sys2Proof.Laws.Encoding

/-- `(w and 0xFFE0E0FF) = OP` for the assembled word `w` of the command (R150, R161). -/
def Statement (i : Instr) : Prop := i.wf = true → encode i &&& 0xFFE0E0FF#32 = BitVec.ofNat 32 i.opcode

theorem statement (i : Instr) : Statement i := fun h =>
  (mask_eq_iff _ (Nat.lt_trans (opcode_lt i) (by decide))).2 ⟨(encode_fields h).1, (encode_fields h).2.1⟩

theorem nop (f : Fields) : Statement (.nop f) := statement _
theorem keyinit (f : Fields) : Statement (.keyinit f) := statement _
theorem ecbEnc (f : Fields) : Statement (.ecbEnc f) := statement _
theorem ecbDec (f : Fields) : Statement (.ecbDec f) := statement _
theorem cbcEnc (f : Fields) : Statement (.cbcEnc f) := statement _
theorem cbcDec (f : Fields) : Statement (.cbcDec f) := statement _
theorem ctr (f : Fields) : Statement (.ctr f) := statement _
theorem ofb (f : Fields) : Statement (.ofb f) := statement _
theorem cfbEnc (f : Fields) : Statement (.cfbEnc f) := statement _
theorem cfbDec (f : Fields) : Statement (.cfbDec f) := statement _
theorem cbcmacGen (f : Fields) : Statement (.cbcmacGen f) := statement _
theorem cbcmacVer (f : Fields) : Statement (.cbcmacVer f) := statement _
theorem cmacGen (f : Fields) : Statement (.cmacGen f) := statement _
theorem cmacVer (f : Fields) : Statement (.cmacVer f) := statement _
theorem gcmEnc (f : Fields) : Statement (.gcmEnc f) := statement _
theorem gcmDec (f : Fields) : Statement (.gcmDec f) := statement _
theorem ccmEnc (f : Fields) : Statement (.ccmEnc f) := statement _
theorem ccmDec (f : Fields) : Statement (.ccmDec f) := statement _
theorem eaxEnc (f : Fields) : Statement (.eaxEnc f) := statement _
theorem eaxDec (f : Fields) : Statement (.eaxDec f) := statement _
theorem ocbEnc (f : Fields) : Statement (.ocbEnc f) := statement _
theorem ocbDec (f : Fields) : Statement (.ocbDec f) := statement _
theorem xtsEnc (f : Fields) : Statement (.xtsEnc f) := statement _
theorem xtsDec (f : Fields) : Statement (.xtsDec f) := statement _
theorem kwWrap (f : Fields) : Statement (.kwWrap f) := statement _
theorem kwUnwrap (f : Fields) : Statement (.kwUnwrap f) := statement _
theorem ghash (f : Fields) : Statement (.ghash f) := statement _
theorem polyval (f : Fields) : Statement (.polyval f) := statement _
theorem gfmulG (f : Fields) : Statement (.gfmulG f) := statement _
theorem gfmulP (f : Fields) : Statement (.gfmulP f) := statement _
theorem gfdblBe (f : Fields) : Statement (.gfdblBe f) := statement _
theorem gfdblLe (f : Fields) : Statement (.gfdblLe f) := statement _

end Sys2Proof.Laws.Encoding
end

