-- ==== Sys2Proof/Tests/Slice0.lean ====
section
/-! SUPPORT. The model's own tests: what is well formed, words written out from the spec's encoding, and the vectors
of spec/95_test_vectors.md, one command each. Every expected value is printed in the spec; its vector is named. -/

namespace Sys2Proof.Tests

open Sys2Proof.Machine

-- One theorem at a time, so that their threads do not all reserve memory at once.
set_option Elab.async false

/-! ## Helpers -/

/-- The string of `n` bytes that a hexadecimal numeral writes, first byte first. -/
def hex (n v : Nat) : List Byte := beBytes n v

/-- "Set-up: key K" of spec/95_test_vectors.md: the state after a KEYINIT that commits, from a state just reset. -/
def keyed (s : State) (kl : KeyLen) (key : List Byte) : State :=
  keyinitState kl { s with key := Bytes.ofList 64 key, keylen := BitVec.ofNat 32 kl.bytes }

/-- The same from reset, with the default parameters. -/
def withKey (kl : KeyLen) (key : List Byte) : State := keyed State.reset kl key

/-- A command latched over the vectors' usual regions: SRC 0x0000, AAD 0x1000, NONCE 0x2000, DST 0x3000. -/
def ready (s : State) (w : Word) (src aad nonce : List Byte) : State :=
  let m := Memory.writeBytes (Memory.writeBytes (Memory.writeBytes s.msg 0 src) 0x1000 aad) 0x2000 nonce
  { s with
    msg := m
    seq := .busy
    cl := { s.cl with
      cmd := w
      srcLen := BitVec.ofNat 32 src.length, dstPtr := 0x3000
      aadPtr := 0x1000, aadLen := BitVec.ofNat 32 aad.length
      noncePtr := 0x2000, nonceLen := BitVec.ofNat 32 nonce.length } }

/-- The received tag of a verification, and RXTLEN. -/
def receiving (s : State) (rxtlen : BitVec 8) (tag : List Byte) : State :=
  { s with cl := { s.cl with rxtlen := rxtlen, tag := Bytes.ofList 16 tag } }

/-- A GF command latched with its operands. -/
def gfReady (w : Word) (a b src : List Byte) : State :=
  let s := ready State.reset w src [] []
  { s with cl := { s.cl with gfa := Bytes.ofList 16 a, gfb := Bytes.ofList 16 b } }

/-- The state one step answers. -/
def stepped (s : State) : State :=
  match step s with
  | .next t => t
  | _ => s

/-- STATUS, OUT_LEN and the destination region of `n` bytes. -/
def outcome (s : State) (n : Nat) : Word × Word × List Byte := (s.statusWord, s.outLen, s.memRead 0x3000 n)

/-- STATUS, OUT_LEN, the destination region and TAG. -/
def outcomeTag (s : State) (n : Nat) : (Word × Word × List Byte) × List Byte := (outcome s n, s.tag.bytes)

/-- STATUS and GFR. -/
def outcomeGfr (s : State) : Word × List Byte := (s.statusWord, s.gfr.bytes)

def k128 : List Byte := hex 16 0x2b7e151628aed2a6abf7158809cf4f3c
def kCount : List Byte := hex 16 0x000102030405060708090a0b0c0d0e0f
def kZero : List Byte := hex 16 0
def kGcm : List Byte := hex 16 0xfeffe9928665731c6d6a8f9467308308
def kCcm : List Byte := hex 16 0x404142434445464748494a4b4c4d4e4f
def kEax : List Byte := hex 16 0x91945d3f4dcbee0bf45ef52255f095a4
def kXts : List Byte := hex 32 0xfffefdfcfbfaf9f8f7f6f5f4f3f2f1f0bfbebdbcbbbab9b8b7b6b5b4b3b2b1b0
def iv0 : List Byte := kCount

/-! ## Well-formedness: one ill-formed command for each check of R161 -/

theorem test_wf_refuses_tlen_32 : (Instr.gcmEnc ⟨32, 0, false⟩).wf = false := by decide
theorem test_wf_refuses_param_16 : (Instr.cfbEnc ⟨0, 16, false⟩).wf = false := by decide
theorem test_wf_accepts_the_largest_fields : (Instr.ccmEnc ⟨31, 15, true⟩).wf = true := by decide

/-! ## Decoding: every opcode of R150 in a word written field by field (R140)

The fields are, from bit 31: 0, CONT, PARAM, 0, TLEN, 0, OP. -/

theorem test_decode_nop :
    decodeWord 0b00000000000_0_0000_000_00000_00_000000#32 = .ok (.nop ⟨0, 0, false⟩) := by
  decide
theorem test_decode_keyinit :
    decodeWord 0b00000000000_0_0000_000_00000_00_000001#32 = .ok (.keyinit ⟨0, 0, false⟩) := by
  decide
theorem test_decode_ecbEnc :
    decodeWord 0b00000000000_0_0000_000_00000_00_000010#32 = .ok (.ecbEnc ⟨0, 0, false⟩) := by
  decide
theorem test_decode_ecbDec :
    decodeWord 0b00000000000_0_0000_000_00000_00_000011#32 = .ok (.ecbDec ⟨0, 0, false⟩) := by
  decide
theorem test_decode_cbcEnc :
    decodeWord 0b00000000000_1_0000_000_00000_00_000100#32 = .ok (.cbcEnc ⟨0, 0, true⟩) := by
  decide
theorem test_decode_cbcDec :
    decodeWord 0b00000000000_0_0000_000_00000_00_000101#32 = .ok (.cbcDec ⟨0, 0, false⟩) := by
  decide
theorem test_decode_ctr :
    decodeWord 0b00000000000_1_0000_000_00000_00_000110#32 = .ok (.ctr ⟨0, 0, true⟩) := by
  decide
theorem test_decode_ofb :
    decodeWord 0b00000000000_1_0000_000_00000_00_000111#32 = .ok (.ofb ⟨0, 0, true⟩) := by
  decide
theorem test_decode_cfbEnc :
    decodeWord 0b00000000000_1_0001_000_00000_00_001000#32 = .ok (.cfbEnc ⟨0, 1, true⟩) := by
  decide
theorem test_decode_cfbDec :
    decodeWord 0b00000000000_0_0010_000_00000_00_001001#32 = .ok (.cfbDec ⟨0, 2, false⟩) := by
  decide
theorem test_decode_cbcmacGen :
    decodeWord 0b00000000000_0_0000_000_00100_00_001010#32 = .ok (.cbcmacGen ⟨4, 0, false⟩) := by
  decide
theorem test_decode_cbcmacVer :
    decodeWord 0b00000000000_0_0000_000_00000_00_001011#32 = .ok (.cbcmacVer ⟨0, 0, false⟩) := by
  decide
theorem test_decode_cmacGen :
    decodeWord 0b00000000000_0_0000_000_10000_00_001100#32 = .ok (.cmacGen ⟨16, 0, false⟩) := by
  decide
theorem test_decode_cmacVer :
    decodeWord 0b00000000000_0_0000_000_00000_00_001101#32 = .ok (.cmacVer ⟨0, 0, false⟩) := by
  decide
theorem test_decode_gcmEnc :
    decodeWord 0b00000000000_0_0000_000_10000_00_001110#32 = .ok (.gcmEnc ⟨16, 0, false⟩) := by
  decide
theorem test_decode_gcmDec :
    decodeWord 0b00000000000_0_0000_000_10000_00_001111#32 = .ok (.gcmDec ⟨16, 0, false⟩) := by
  decide
theorem test_decode_ccmEnc :
    decodeWord 0b00000000000_0_0010_000_01000_00_010000#32 = .ok (.ccmEnc ⟨8, 2, false⟩) := by
  decide
theorem test_decode_ccmDec :
    decodeWord 0b00000000000_0_1000_000_00100_00_010001#32 = .ok (.ccmDec ⟨4, 8, false⟩) := by
  decide
theorem test_decode_eaxEnc :
    decodeWord 0b00000000000_0_0000_000_01000_00_010010#32 = .ok (.eaxEnc ⟨8, 0, false⟩) := by
  decide
theorem test_decode_eaxDec :
    decodeWord 0b00000000000_0_0000_000_01101_00_010011#32 = .ok (.eaxDec ⟨13, 0, false⟩) := by
  decide
theorem test_decode_ocbEnc :
    decodeWord 0b00000000000_0_0000_000_01100_00_010100#32 = .ok (.ocbEnc ⟨12, 0, false⟩) := by
  decide
theorem test_decode_ocbDec :
    decodeWord 0b00000000000_0_0000_000_10000_00_010101#32 = .ok (.ocbDec ⟨16, 0, false⟩) := by
  decide
theorem test_decode_xtsEnc :
    decodeWord 0b00000000000_1_1111_000_11111_00_010110#32 = .ok (.xtsEnc ⟨31, 15, true⟩) := by
  decide
theorem test_decode_xtsDec :
    decodeWord 0b00000000000_0_0000_000_00000_00_010111#32 = .ok (.xtsDec ⟨0, 0, false⟩) := by
  decide
theorem test_decode_kwWrap :
    decodeWord 0b00000000000_0_0000_000_00000_00_011000#32 = .ok (.kwWrap ⟨0, 0, false⟩) := by
  decide
theorem test_decode_kwUnwrap :
    decodeWord 0b00000000000_0_0000_000_00000_00_011001#32 = .ok (.kwUnwrap ⟨0, 0, false⟩) := by
  decide
theorem test_decode_ghash :
    decodeWord 0b00000000000_0_0000_000_00000_00_011010#32 = .ok (.ghash ⟨0, 0, false⟩) := by
  decide
theorem test_decode_polyval :
    decodeWord 0b00000000000_0_0000_000_00000_00_011011#32 = .ok (.polyval ⟨0, 0, false⟩) := by
  decide
theorem test_decode_gfmulG :
    decodeWord 0b00000000000_0_0000_000_00000_00_011100#32 = .ok (.gfmulG ⟨0, 0, false⟩) := by
  decide
theorem test_decode_gfmulP :
    decodeWord 0b00000000000_0_0000_000_00000_00_011101#32 = .ok (.gfmulP ⟨0, 0, false⟩) := by
  decide
theorem test_decode_gfdblBe :
    decodeWord 0b00000000000_0_0000_000_00000_00_011110#32 = .ok (.gfdblBe ⟨0, 0, false⟩) := by
  decide
theorem test_decode_gfdblLe :
    decodeWord 0b00000000000_0_0000_000_00000_00_011111#32 = .ok (.gfdblLe ⟨0, 0, false⟩) := by
  decide
theorem test_decode_refuses_bit_6 : decodeWord 0b00000000000_0_0000_000_00000_01_000010#32 = .error .reservedBits := by
  decide
theorem test_decode_refuses_bit_13 : decodeWord 0b00000000000_0_0000_001_00000_00_000010#32 = .error .reservedBits := by
  decide
theorem test_decode_refuses_bit_31 : decodeWord 0b10000000000_0_0000_000_00000_00_000010#32 = .error .reservedBits := by
  decide
theorem test_decode_refuses_op_20 : decodeWord 0b00000000000_0_0000_000_00000_00_100000#32 = .error .reservedOpcode := by
  decide
theorem test_decode_table_word : decodeTableWord 32 0x00020810 = some (.ccmEnc ⟨8, 2, false⟩) := by decide
theorem test_encode_cont : encode (.ctr ⟨0, 0, true⟩) = 0x00100006#32 := by decide

/-! ## The vectors -/

/-- R189: NOP leaves STATUS 0x2 after reset. -/
theorem test_nop : (stepped (ready State.reset 0#32 [] [] [])).statusWord = 0x2 := by decide +kernel

/-- V-KEY-1: STATUS, and the hidden subkeys H, K1 and K2. -/
theorem test_keyinit :
    let s := ready { State.reset with key := Bytes.ofList 64 k128, keylen := 16 } 1#32 [] [] []
    let t := stepped { s with cl := { s.cl with keylen := 16 } }
    (t.statusWord, t.outLen, t.kc.h.bytes, t.kc.k1.bytes, t.kc.k2.bytes) = (0x00000022, 0,
      hex 16 0x7df76b0c1ab899b33e42f047b91b546f, hex 16 0xfbeed618357133667c85e08f7236a8de,
      hex 16 0xf7ddac306ae266ccf90bc11ee46d513b) := by
  decide +kernel

/-- V-KEY-3: KEYLEN = 20. -/
theorem test_keyinit_bad_length :
    let s := ready State.reset 1#32 [] [] []
    let t := stepped { s with cl := { s.cl with keylen := 20 } }
    (t.statusWord, t.outLen) = (0x03000006, 0) := by
  decide +kernel

/-- V-CH-1. -/
theorem test_ecbEnc : outcome (stepped (ready (withKey .k16 k128) 2#32 (hex 16 0x6bc1bee22e409f96e93d7e117393172a) []
    [])) 16 = (0x22, 16, (hex 16 0x3ad77bb40d7a3660a89ecaf32466ef97)) := by
  decide +kernel

/-- V-CH-7: FIPS-197 C.2. -/
theorem test_ecbEnc_aes192 : outcome (stepped (ready (withKey .k24 (hex 24
    0x000102030405060708090a0b0c0d0e0f1011121314151617)) 2#32 (hex 16 0x00112233445566778899aabbccddeeff) [] [])) 16 =
    (0x22, 16, (hex 16 0xdda97ca4864cdfe06eaf70a0ec0d7191)) := by
  decide +kernel

/-- V-CH-2. -/
theorem test_ecbDec : outcome (stepped (ready (withKey .k16 k128) 3#32 (hex 16 0x3ad77bb40d7a3660a89ecaf32466ef97) []
    [])) 16 = (0x22, 16, (hex 16 0x6bc1bee22e409f96e93d7e117393172a)) := by
  decide +kernel

/-- V-CH-3. -/
theorem test_cbcEnc : outcome (stepped (ready (withKey .k16 k128) 4#32 (hex 32
    0x6bc1bee22e409f96e93d7e117393172aae2d8a571e03ac9c9eb76fac45af8e51) [] (hex 16
    0x000102030405060708090a0b0c0d0e0f))) 32 = (0x162, 32, (hex 32
    0x7649abac8119b246cee98e9b12e9197d5086cb9b507219ee95db113a917678b2)) := by
  decide +kernel

/-- V-CH-4. -/
theorem test_cbcDec : outcome (stepped (ready (withKey .k16 k128) 5#32 (hex 32
    0x7649abac8119b246cee98e9b12e9197d5086cb9b507219ee95db113a917678b2) [] (hex 16
    0x000102030405060708090a0b0c0d0e0f))) 32 = (0x162, 32, (hex 32
    0x6bc1bee22e409f96e93d7e117393172aae2d8a571e03ac9c9eb76fac45af8e51)) := by
  decide +kernel

/-- V-STR-9: the counter wraps silently. -/
theorem test_ctr_wrap : outcome (stepped (ready (withKey .k16 k128) 6#32 (hex 32
    0x0000000000000000000000000000000000000000000000000000000000000000) [] (hex 16
    0xffffffffffffffffffffffffffffffff))) 32 = (0x100262, 32, (hex 32
    0x8af2860142f786f409307c1a3f7eaaac7df76b0c1ab899b33e42f047b91b546f)) := by
  decide +kernel

/-- V-STR-3. -/
theorem test_ofb : outcome (stepped (ready (withKey .k16 k128) 7#32 (hex 16 0x6bc1bee22e409f96e93d7e117393172a) []
    (hex 16 0x000102030405060708090a0b0c0d0e0f))) 16 = (0x100362, 16, (hex 16 0x3b3fd92eb72dad20333449f8e83cfb4a)) :=
    by
  decide +kernel

/-- V-STR-4a, V-STR-4: 7 bytes, then 57 with CONT = 1. -/
theorem test_ofb_split : outcome (stepped (ready (stepped (ready (withKey .k16 k128) 7#32 (hex 7 0x6bc1bee22e409f) []
    (hex 16 0x000102030405060708090a0b0c0d0e0f))) 0x00100007#32 (hex 57
    0x96e93d7e117393172aae2d8a571e03ac9c9eb76fac45af8e5130c81c46a35ce411e5fbc1191a0a52eff69f2445df4f9b17ad2b417be66c3710)
    [] [])) 57 = (0x100362, 57, (hex 57
    0x20333449f8e83cfb4a7789508d16918f03f53c52dac54ed8259740051e9c5fecf64344f7a82260edcc304c6528f659c77866a510d9c1d6ae5e))
    := by
  decide +kernel

/-- V-STR-8: 8-byte segments. -/
theorem test_cfbEnc_8 : outcome (stepped (ready (withKey .k16 k128) 0x00010008#32 (hex 16
    0x6bc1bee22e409f96e93d7e117393172a) [] (hex 16 0x000102030405060708090a0b0c0d0e0f))) 16 = (0x562, 16, (hex 16
    0x3b3fd92eb72dad20764bc8b40ee0de40)) := by
  decide +kernel

/-- V-STR-6: 1-byte segments. -/
theorem test_cfbDec_1 : outcome (stepped (ready (withKey .k16 k128) 9#32 (hex 18
    0x3b79424c9c0dd436bace9e0ed4586a4f32b9) [] (hex 16 0x000102030405060708090a0b0c0d0e0f))) 18 = (0x462, 18, (hex 18
    0x6bc1bee22e409f96e93d7e117393172aae2d)) := by
  decide +kernel

/-- V-MAC-13. -/
theorem test_cbcmacGen : outcomeTag (stepped (ready (withKey .k16 k128) 0x0000100A#32 (hex 40
    0x6bc1bee22e409f96e93d7e117393172aae2d8a571e03ac9c9eb76fac45af8e5130c81c46a35ce411) [] [])) 0 = ((0x22, 0, []),
    (hex 16 0xa5260f98f1abf2b27562ed5fc1fbeb8d)) := by
  decide +kernel

/-- V-MAC-2a. -/
theorem test_cbcmacVer : outcome (stepped (receiving (ready (withKey .k16 k128) 0xB#32 [] [] []) 16 (hex 16
    0xf6c71eedc3d99bb183cb5b8d1568e606))) 0 = (0x22, 0, []) := by
  decide +kernel

/-- V-MAC-2. -/
theorem test_cbcmacVer_fails : outcome (stepped (receiving (ready (withKey .k16 k128) 0xB#32 [] [] []) 16 (hex 16
    0xf7c71eedc3d99bb183cb5b8d1568e606))) 0 = (0x2A, 0, []) := by
  decide +kernel

/-- V-MAC-5. -/
theorem test_cmacGen : outcomeTag (stepped (ready (withKey .k16 k128) 0x0000100C#32 (hex 40
    0x6bc1bee22e409f96e93d7e117393172aae2d8a571e03ac9c9eb76fac45af8e5130c81c46a35ce411) [] [])) 0 = ((0x22, 0, []),
    (hex 16 0xdfa66747de9ae63030ca32611497c827)) := by
  decide +kernel

/-- V-MAC-9: t = 4; TAG bytes 4-15 read 0. -/
theorem test_cmacGen_short_tag : outcomeTag (stepped (ready (withKey .k16 k128) 0x0000040C#32 (hex 16
    0x6bc1bee22e409f96e93d7e117393172a) [] [])) 0 = ((0x22, 0, []), (hex 16 0x070a16b4000000000000000000000000)) := by
  decide +kernel

/-- V-MAC-7a: RXTLEN = 8. -/
theorem test_cmacVer_truncated : outcome (stepped (receiving (ready (withKey .k16 k128) 0xD#32 (hex 16
    0x6bc1bee22e409f96e93d7e117393172a) [] []) 8 (hex 8 0x070a16b46b4d4144))) 0 = (0x22, 0, []) := by
  decide +kernel

/-- V-MAC-7: RXTLEN = 17 is an authentication failure. -/
theorem test_cmacVer_rxtlen_17 : outcome (stepped (receiving (ready (withKey .k16 k128) 0xD#32 (hex 16
    0x6bc1bee22e409f96e93d7e117393172a) [] []) 17 (hex 16 0x070a16b46b4d4144f79bdd9dd04a287c))) 0 = (0x2A, 0, []) :=
    by
  decide +kernel

/-- V-GCM-4. -/
theorem test_gcmEnc : outcomeTag (stepped (ready (withKey .k16 kGcm) 0x0000100E#32 (hex 60
    0xd9313225f88406e5a55909c5aff5269a86a7a9531534f7da2e4c303d8a318a721c3c0c95956809532fcf0e2449a6b525b16aedf5aa0de657ba637b39)
    (hex 20 0xfeedfacedeadbeeffeedfacedeadbeefabaddad2) (hex 12 0xcafebabefacedbaddecaf888))) 60 = ((0x22, 60, (hex 60
    0x42831ec2217774244b7221b784d0d49ce3aa212f2c02a4e035c17e2329aca12e21d514b25466931c7d8f6a5aac84aa051ba30b396a0aac973d58e091)),
    (hex 16 0x5bc94fbc3221a5db94fae95ae7121a47)) := by
  decide +kernel

/-- V-GCM-W, the row inc128. -/
theorem test_gcmEnc_inc128 : outcomeTag (stepped (ready (keyed { State.reset with cfg := { Params.default with
    gcmCtrInc := .inc128 } } .k16 kZero) 0x0000100E#32 (hex 32
    0x0000000000000000000000000000000000000000000000000000000000000000) [] (hex 16
    0xac0600be5fe89b3728e988e9617fa806))) 32 = ((0x22, 32, (hex 32
    0x72535b7fe0f0f777cedcd55cd77e2ddf865bcf8c57e3105d9f52ffdfd349d344)), (hex 16 0xa23e71d0f3a5e9af8d3b35dad5f406a8))
    := by
  decide +kernel

/-- V-GCM-3: the destination is zero-filled. -/
theorem test_gcmDec_fails : outcome (stepped (receiving (ready (withKey .k16 kZero) 0x0000100F#32 (hex 16
    0x0288dace60b6a392f328c2b971b2fe78) [] (hex 12 0x000000000000000000000000)) 16 (hex 16
    0xab6e47d42cec13bdf53a67b21257bddf))) 16 = (0x2A, 0, (hex 16 0x00000000000000000000000000000000)) := by
  decide +kernel

/-- V-GCM-2b. -/
theorem test_gcmDec : outcome (stepped (receiving (ready (withKey .k16 kZero) 0x0000100F#32 (hex 16
    0x0388dace60b6a392f328c2b971b2fe78) [] (hex 12 0x000000000000000000000000)) 16 (hex 16
    0xab6e47d42cec13bdf53a67b21257bddf))) 16 = (0x22, 16, (hex 16 0x00000000000000000000000000000000)) := by
  decide +kernel

/-- V-CCM-1: t = 4, L = 8. -/
theorem test_ccmEnc : outcomeTag (stepped (ready (withKey .k16 kCcm) 0x00080410#32 (hex 4 0x20212223) (hex 8
    0x0001020304050607) (hex 7 0x10111213141516))) 4 = ((0x22, 4, (hex 4 0x7162015b)), (hex 16
    0x4dac255d000000000000000000000000)) := by
  decide +kernel

/-- V-CCM-2. -/
theorem test_ccmDec : outcome (stepped (receiving (ready (withKey .k16 kCcm) 0x00080411#32 (hex 4 0x7162015b) (hex 8
    0x0001020304050607) (hex 7 0x10111213141516)) 4 (hex 4 0x4dac255d))) 4 = (0x22, 4, (hex 4 0x20212223)) := by
  decide +kernel

/-- V-EAX-2. -/
theorem test_eaxEnc : outcomeTag (stepped (ready (withKey .k16 kEax) 0x00001012#32 (hex 2 0xf7fb) (hex 8
    0xfa3bfd4806eb53fa) (hex 16 0xbecaf043b0a23d843194ba972c66debd))) 2 = ((0x22, 2, (hex 2 0x19dd)), (hex 16
    0x5c4c9331049d0bdab0277408f67967e5)) := by
  decide +kernel

/-- V-EAX-4. -/
theorem test_eaxDec_fails : outcome (stepped (receiving (ready (withKey .k16 kEax) 0x00001013#32 (hex 2 0x19dd) (hex 8
    0xfb3bfd4806eb53fa) (hex 16 0xbecaf043b0a23d843194ba972c66debd)) 16 (hex 16 0x5c4c9331049d0bdab0277408f67967e5)))
    2 = (0x2A, 0, (hex 2 0x0000)) := by
  decide +kernel

/-- V-EAX-3. -/
theorem test_eaxDec : outcome (stepped (receiving (ready (withKey .k16 kEax) 0x00001013#32 (hex 2 0x19dd) (hex 8
    0xfa3bfd4806eb53fa) (hex 16 0xbecaf043b0a23d843194ba972c66debd)) 16 (hex 16 0x5c4c9331049d0bdab0277408f67967e5)))
    2 = (0x22, 2, (hex 2 0xf7fb)) := by
  decide +kernel

/-- V-OCB-6: 17 bytes. -/
theorem test_ocbEnc_tail : outcomeTag (stepped (ready (withKey .k16 kCount) 0x00001014#32 (hex 17
    0x000102030405060708090a0b0c0d0e0f10) (hex 17 0x000102030405060708090a0b0c0d0e0f10) (hex 12
    0xbbaa99887766554433221104))) 17 = ((0x22, 17, (hex 17 0x571d535b60b277188be5147170a9a22c04)), (hex 16
    0xef4eb7c60fd116c4f15d38a7687f1a81)) := by
  decide +kernel

/-- V-OCB-3. -/
theorem test_ocbDec : outcome (stepped (receiving (ready (withKey .k16 kCount) 0x00001015#32 (hex 8
    0x6820b3657b6f615a) (hex 8 0x0001020304050607) (hex 12 0xbbaa99887766554433221101)) 16 (hex 16
    0x5725bda0d3b4eb3a257c9af1f8f03009))) 8 = (0x22, 8, (hex 8 0x0001020304050607)) := by
  decide +kernel

/-- V-XTS-4: 17 bytes. -/
theorem test_xtsEnc_tail : outcome (stepped (ready (withKey .k32 kXts) 0x16#32 (hex 17
    0x000102030405060708090a0b0c0d0e0f10) [] (hex 16 0x9a785634120000000000000000000000))) 17 = (0x22, 17, (hex 17
    0x6c1625db4671522d3d7599601de7ca09ed)) := by
  decide +kernel

/-- V-XTS-BE, the row BE. -/
theorem test_xtsEnc_be : outcome (stepped (ready (keyed { State.reset with cfg := { Params.default with xtsAlphaOrder
    := .be } } .k32 (hex 32 0x1111111111111111111111111111111122222222222222222222222222222222)) 0x16#32 (hex 32
    0x4444444444444444444444444444444444444444444444444444444444444444) [] (hex 16
    0x33333333330000000000000000000000))) 32 = (0x22, 32, (hex 32
    0xc454185e6a16936e39334038acef838b8eda6c728de25a4dd6934977cf88b8d8)) := by
  decide +kernel

/-- V-XTS-3. -/
theorem test_xtsDec_tail : outcome (stepped (ready (withKey .k32 kXts) 0x17#32 (hex 17
    0x6c1625db4671522d3d7599601de7ca09ed) [] (hex 16 0x9a785634120000000000000000000000))) 17 = (0x22, 17, (hex 17
    0x000102030405060708090a0b0c0d0e0f10)) := by
  decide +kernel

/-- V-KW-1. -/
theorem test_kwWrap : outcome (stepped (ready (withKey .k16 kCount) 0x18#32 (hex 16
    0x00112233445566778899aabbccddeeff) [] [])) 24 = (0x22, 24, (hex 24
    0x1fa68b0a8112b447aef34bd8fb5a7b829d3e862371d2cfe5)) := by
  decide +kernel

/-- V-KW-2. -/
theorem test_kwUnwrap : outcome (stepped (ready (withKey .k16 kCount) 0x19#32 (hex 24
    0x1fa68b0a8112b447aef34bd8fb5a7b829d3e862371d2cfe5) [] [])) 16 = (0x22, 16, (hex 16
    0x00112233445566778899aabbccddeeff)) := by
  decide +kernel

/-- V-KW-4. -/
theorem test_kwUnwrap_fails : outcome (stepped (ready (withKey .k16 kCount) 0x19#32 (hex 24
    0x1ea68b0a8112b447aef34bd8fb5a7b829d3e862371d2cfe5) [] [])) 16 = (0x2A, 0, (hex 16
    0x00000000000000000000000000000000)) := by
  decide +kernel

/-- V-GF-7. -/
theorem test_ghash : outcomeGfr (stepped (gfReady 0x1A#32 (hex 16 0x00000000000000000000000000000000) (hex 16
    0x66e94bd4ef8a2c3b884cfa59ca342b2e) (hex 32 0x0388dace60b6a392f328c2b971b2fe7800000000000000000000000000000080)))
    = (0x2, (hex 16 0xf38cbb1ad69223dcc3457ae5b6b0f885)) := by
  decide +kernel

/-- V-GF-8. -/
theorem test_polyval : outcomeGfr (stepped (gfReady 0x1B#32 (hex 16 0x00000000000000000000000000000000) (hex 16
    0x25629347589242761d31f826ba4b757b) (hex 32 0x4f4f95668c83dfb6401762bb2d01a262d1a24ddd2721d006bbe45f20d3c9f362)))
    = (0x2, (hex 16 0xf7a3b47b846119fae5b7866cf5e5b77e)) := by
  decide +kernel

/-- V-GF-5. -/
theorem test_gfmulG : outcomeGfr (stepped (gfReady 0x1C#32 (hex 16 0x66e94bd4ef8a2c3b884cfa59ca342b2e) (hex 16
    0x66e94bd4ef8a2c3b884cfa59ca342b2e) [])) = (0x2, (hex 16 0xa569901bb4b18906f5059d24465c904d)) := by
  decide +kernel

/-- V-GF-6. -/
theorem test_gfmulP : outcomeGfr (stepped (gfReady 0x1D#32 (hex 16 0x4f4f95668c83dfb6401762bb2d01a262) (hex 16
    0x25629347589242761d31f826ba4b757b) [])) = (0x2, (hex 16 0xcedac64537ff50989c16011551086d77)) := by
  decide +kernel

/-- V-GF-1. -/
theorem test_gfdblBe : outcomeGfr (stepped (gfReady 0x1E#32 (hex 16 0x7df76b0c1ab899b33e42f047b91b546f) [] [])) =
    (0x2, (hex 16 0xfbeed618357133667c85e08f7236a8de)) := by
  decide +kernel

/-- V-GF-4. -/
theorem test_gfdblLe : outcomeGfr (stepped (gfReady 0x1F#32 (hex 16 0x8001000000000000000000000000ff7f) [] [])) =
    (0x2, (hex 16 0x0003000000000000000000000000feff)) := by
  decide +kernel

/-! ## The host side -/

/-- R44, R181: START latches CMD and clears the STATUS bits of the last command. -/
theorem test_start_latches :
    let t := writeReg .ctrl 1 { State.reset with cmd := 0x100E, done := true, err := true, errcode := .len, outLen := 5 }
    (t.seq, t.cl.cmd, t.statusWord, t.outLen) = (.busy, 0x100E, 1, 0) := by
  decide

/-- R510: an abort of KEYINIT ends with ABORT (code 10) and clears `KC.valid`. -/
theorem test_abort_keyinit :
    let s := ready (withKey .k16 k128) 1#32 [] [] []
    (writeReg .ctrl 2 { s with cl := { s.cl with keylen := 16 } }).statusWord = 0x0A000006 := by
  decide +kernel

/-- R102: a 4-byte write goes to MSG on little-endian lanes. -/
theorem test_msg_write_lanes :
    (hostAccess (.write .w4 0x10100 0x44332211) State.reset).memRead 0x100 4 = [0x11, 0x22, 0x33, 0x44] := by
  decide

/-- R103: a 2-byte read of a register is a bus error. -/
theorem test_narrow_register_read : (hostAccess (.read .w2 0) State.reset).response = some .busError := by decide

/-! ## Witnesses: states and operands that meet the premises of the statements for the provers

`after i s` is the state `exec` answers, so `exec i s = .next (after i s)` is one of the premises met. -/

open Sys2Proof.Safety

/-- The state a command answers. -/
def after (i : Instr) (s : State) : State :=
  match exec i s with
  | .next t => t
  | _ => s

theorem exec_after (i : Instr) (s : State) : exec i s = .next (after i s) := by
  rcases exec_answers i s with ⟨_, _, hx⟩ | ⟨_, _, _, _, _, hx, _⟩ | ⟨_, _, hx⟩ <;> rw [after, hx]

/-- A state with a key of each length. -/
def s16 : State := withKey .k16 k128
def s24 : State := withKey .k24 (hex 24 0)
def s32 : State := withKey .k32 kXts
def s64 : State := withKey .k64 (hex 64 0)

/-- A command over `n` source bytes from 0, with a destination that ends where MSG ends. -/
def edge (s : State) (n out : Nat) (nonce : Nat) : State :=
  { s with
    seq := .busy
    cl := { s.cl with
      srcLen := BitVec.ofNat 32 n, dstPtr := BitVec.ofNat 32 (0x10000 - out)
      noncePtr := 0x8000, nonceLen := BitVec.ofNat 32 nonce } }

/-- A stream in progress. -/
def streaming (s : State) (fam : Family) (pos : Fin 17) : State :=
  { s with st := { s.st with valid := true, smode := fam, pos := pos } }

/-- A second command that works on what a first one wrote: its source at 0x5000, its destination at 0x6000. -/
def next (s t : State) (src : List Byte) : State :=
  { s with
    msg := Memory.writeBytes s.msg 0x5000 src
    cl := { s.cl with
      srcPtr := 0x5000, srcLen := BitVec.ofNat 32 src.length, dstPtr := 0x6000, tag := t.tag, rxtlen := 16 } }

theorem witness_DecodeEncode : (Instr.ccmEnc ⟨31, 15, true⟩).wf = true ∧ (Instr.nop ⟨0, 0, false⟩).wf = true := by
  decide

theorem witness_EncodeDecode : decodeWord 0x001F1F1F#32 = .ok (.gfdblLe ⟨31, 15, true⟩) := by decide

theorem witness_WordSelectsCommand : (0x1F, Instr.gfdblLe) ∈
      [(0x00, Instr.nop), (0x01, .keyinit), (0x02, .ecbEnc), (0x03, .ecbDec), (0x04, .cbcEnc), (0x05, .cbcDec),
        (0x06, .ctr), (0x07, .ofb), (0x08, .cfbEnc), (0x09, .cfbDec), (0x0A, .cbcmacGen), (0x0B, .cbcmacVer),
        (0x0C, .cmacGen), (0x0D, .cmacVer), (0x0E, .gcmEnc), (0x0F, .gcmDec)]
      ++ [(0x10, .ccmEnc), (0x11, .ccmDec), (0x12, .eaxEnc), (0x13, .eaxDec), (0x14, .ocbEnc), (0x15, .ocbDec),
        (0x16, .xtsEnc), (0x17, .xtsDec), (0x18, .kwWrap), (0x19, .kwUnwrap), (0x1A, .ghash), (0x1B, .polyval),
        (0x1C, .gfmulG), (0x1D, .gfmulP), (0x1E, .gfdblBe), (0x1F, .gfdblLe)] := by
  simp

/-- A reserved bit at each end, and the two ends of the reserved opcodes. -/
theorem witness_BadWordsEndInBadop :
    ((ready State.reset 0x00000042#32 [] [] []).cl.cmd &&& 0xFFE0E0C0#32 ≠ 0)
    ∧ ((ready State.reset 0x80000002#32 [] [] []).cl.cmd &&& 0xFFE0E0C0#32 ≠ 0)
    ∧ 0x20 ≤ ((ready State.reset 0x20#32 [] [] []).cl.cmd &&& 0x3F#32).toNat
    ∧ 0x20 ≤ ((ready State.reset 0x3F#32 [] [] []).cl.cmd &&& 0x3F#32).toNat := by
  decide +kernel

/-- Busy with a command, busy with a bad word, and idle; with nothing pending, and with an engine slot first. Then a host
access first, and a hard reset first. -/
theorem witness_StepRunsLatchedCommand :
    (let s := ready State.reset 0x0000100E#32 [] [] [];
      s.seq = .busy ∧ decodeWord s.cl.cmd = .ok (.gcmEnc ⟨16, 0, false⟩) ∧ s.inputs = []
      ∧ { s with inputs := [Input.engine, .hardReset] }.inputs = .engine :: [.hardReset])
    ∧ (let s := ready State.reset 0x00000020#32 [] [] [];
      s.seq = .busy ∧ decodeWord s.cl.cmd = .error .reservedOpcode ∧ s.inputs = []
      ∧ { s with inputs := [Input.engine] }.inputs = .engine :: [])
    ∧ (State.reset.seq = .idle ∧ State.reset.inputs = []
      ∧ { State.reset with inputs := [Input.engine] }.inputs = .engine :: [])
    ∧ { State.reset with inputs := [Input.access (.read .w4 0), .engine] }.inputs = .access (.read .w4 0) :: [.engine]
    ∧ { State.reset with inputs := [Input.hardReset] }.inputs = .hardReset :: [] := by
  decide +kernel

/-- A frame's premise holds of every command and state; here a register-only, a storing and a tag-making one. -/
theorem witness_CommandFrame :
    (exec (.gfmulG ⟨0, 0, false⟩) s16 = .next (after (.gfmulG ⟨0, 0, false⟩) s16) ∧ makesTag (.gfmulG ⟨0, 0, false⟩) = false)
    ∧ (exec (.ecbEnc ⟨0, 0, false⟩) (edge s16 16 16 0) = .next (after (.ecbEnc ⟨0, 0, false⟩) (edge s16 16 16 0))
      ∧ isGf (.ecbEnc ⟨0, 0, false⟩) = false ∧ isStream (.ecbEnc ⟨0, 0, false⟩) = false
      ∧ (∀ f, Instr.ecbEnc ⟨0, 0, false⟩ ≠ .keyinit f)
      ∧ ¬ ((edge s16 16 16 0).cl.dstPtr.toNat ≤ 0xFFEF
        ∧ 0xFFEF < (edge s16 16 16 0).cl.dstPtr.toNat + outLength (.ecbEnc ⟨0, 0, false⟩) (edge s16 16 16 0)))
    ∧ exec (.cmacGen ⟨16, 0, false⟩) (edge s16 0 0 0) = .next (after (.cmacGen ⟨16, 0, false⟩) (edge s16 0 0 0)) :=
  ⟨⟨exec_after _ _, rfl⟩, ⟨exec_after _ _, rfl, rfl, nofun, by decide +kernel⟩, exec_after _ _⟩

theorem witness_StepsGoOnAndBusyEnds : (ready State.reset 0 [] [] []).seq = .busy := by decide +kernel

/-- The engine's turn: a state of a run, reset and then START, with nothing pending. -/
theorem witness_InvariantKept :
    let s := start (hardReset State.reset)
    Safety.Inv s ∧ step s = .next (stepped s) := by
  refine ⟨start_inv (hardReset_inv (by decide)), ?_⟩
  have h : step (start (hardReset State.reset)) = exec (.nop ⟨0, 0, false⟩) (start (hardReset State.reset)) := rfl
  rw [stepped, h, exec_after]

/-- The same run with host accesses pending while BUSY: to MSG, to CTRL (ABORT), and to a register. -/
theorem witness_InvariantKept_access :
    ∀ a ∈ [Access.write .w4 0x10000 5, .write .w4 0x08 2, .read .w4 0x0C],
      let s := { start (hardReset State.reset) with inputs := [Input.access a] }
      Safety.Inv s ∧ step s = .next (stepped s) :=
  fun _ _ => ⟨inv_of_eq (start_inv (hardReset_inv (s := State.reset) (by decide))) rfl, rfl⟩

/-- The same run with a hard reset pending. -/
theorem witness_InvariantKept_hardReset :
    let s := { start (hardReset State.reset) with inputs := [Input.hardReset] }
    Safety.Inv s ∧ step s = .next (stepped s) :=
  ⟨inv_of_eq (start_inv (hardReset_inv (s := State.reset) (by decide))) rfl, rfl⟩

/-- One state for each error code a check can report, and one that passes. -/
theorem witness_FirstFailingCheckReported :
    firstFailure (.ecbEnc ⟨0, 0, false⟩) State.reset = some .nokey
    ∧ firstFailure (.xtsEnc ⟨0, 0, false⟩) s16 = some .keylen
    ∧ firstFailure (.gcmEnc ⟨0, 0, false⟩) s16 = some .param
    ∧ firstFailure (.ctr ⟨0, 0, true⟩) s16 = some .state
    ∧ firstFailure (.ocbEnc ⟨16, 0, false⟩) (edge s16 0 0 16) = some .nonce
    ∧ firstFailure (.kwWrap ⟨0, 0, false⟩) (edge s16 8 16 0) = some .len
    ∧ firstFailure (.ecbEnc ⟨0, 0, false⟩) (edge s16 32 16 0) = some .range
    ∧ firstFailure (.ecbEnc ⟨0, 0, false⟩) (edge s16 0x8010 0x8010 0) = some .overlap
    ∧ firstFailure (.ecbEnc ⟨0, 0, false⟩) (edge s16 0x8000 0x8000 0) = none := by
  decide +kernel

/-- Two states that agree on what the checks see, and hold other data and another key. -/
theorem witness_ErrorsIgnoreData :
    let s := ready s16 2#32 k128 [] []
    let s' := { s with msg := Memory.writeBytes s.msg 0 kZero, key := Bytes.zero 64, kc := { s.kc with k := kZero } }
    s'.cl.keylen = s.cl.keylen ∧ s'.cl.srcPtr = s.cl.srcPtr ∧ s'.cl.srcLen = s.cl.srcLen ∧ s'.cl.dstPtr = s.cl.dstPtr
    ∧ s'.cl.aadPtr = s.cl.aadPtr ∧ s'.cl.aadLen = s.cl.aadLen
    ∧ s'.cl.noncePtr = s.cl.noncePtr ∧ s'.cl.nonceLen = s.cl.nonceLen
    ∧ s'.kc.valid = s.kc.valid ∧ s'.kc.klen = s.kc.klen ∧ s'.st.valid = s.st.valid ∧ s'.st.smode = s.st.smode
    ∧ s'.msgSize = s.msgSize ∧ s'.src ≠ s.src := by
  refine ⟨rfl, rfl, rfl, rfl, rfl, rfl, rfl, rfl, rfl, rfl, rfl, rfl, rfl, ?_⟩
  decide +kernel

/-- A command for each operand that it does not use, and two field values that differ only where they are ignored. -/
theorem witness_UnusedOperandsIgnored :
    isAead (.ctr ⟨0, 0, false⟩) = false ∧ usesNonceRegion (.ctr ⟨0, 0, true⟩) = false
    ∧ usesSource (.gfmulG ⟨0, 0, false⟩) = false ∧ (∀ u, outLength (.cmacGen ⟨16, 0, false⟩) u = 0)
    ∧ (∀ f, Instr.xtsEnc ⟨0, 0, false⟩ ≠ .keyinit f) ∧ isGf (.kwWrap ⟨0, 0, false⟩) = false
    ∧ comparesTag (.gcmEnc ⟨16, 0, false⟩) = false
    ∧ (⟨0, 0, true⟩ : Fields).cont = (⟨31, 15, true⟩ : Fields).cont
    ∧ (⟨0, 2, true⟩ : Fields).param = (⟨31, 2, true⟩ : Fields).param
    ∧ (⟨16, 0, false⟩ : Fields).tlen = (⟨16, 15, true⟩ : Fields).tlen :=
  ⟨rfl, rfl, rfl, fun _ => rfl, nofun, rfl, rfl, rfl, rfl, rfl⟩

theorem witness_NoCallHistory :
    isStream (.gcmEnc ⟨16, 0, false⟩) = false ∧ (∀ f, Instr.gcmEnc ⟨16, 0, false⟩ ≠ .keyinit f)
    ∧ isStream (.cfbDec ⟨0, 2, false⟩) = true ∧ (Instr.cfbDec ⟨0, 2, false⟩).fields.cont = false
    ∧ Passes (.cfbDec ⟨0, 2, false⟩) (edge (streaming s16 .ofb 3) 16 16 16) := by
  refine ⟨rfl, nofun, rfl, rfl, ?_⟩
  decide +kernel

theorem witness_NopCompletes : State.reset.busyerr = false := rfl

/-- The four lengths; two bad ones; and a state of a run with a bad one. -/
theorem witness_KeyinitSetsContext :
    (∀ kl : KeyLen, { State.reset.cl with keylen := BitVec.ofNat 32 kl.bytes }.keylen.toNat = kl.bytes)
    ∧ (20#32).toNat ∉ [16, 24, 32, 64]
    ∧ (let s := start (hardReset State.reset);
      s.cl.keylen.toNat ∉ [16, 24, 32, 64] ∧ Safety.Inv s ∧ s.seq = .busy) :=
  ⟨by intro kl; cases kl <;> rfl, by decide, by decide, start_inv (hardReset_inv (by decide)), rfl⟩

/-- No bytes, and bytes up to the end of MSG. -/
theorem witness_EcbResults :
    Passes (.ecbEnc ⟨0, 0, false⟩) (edge s16 0 0 0) ∧ Passes (.ecbDec ⟨0, 0, false⟩) (edge s16 0 0 0)
    ∧ Passes (.ecbEnc ⟨0, 0, false⟩) (edge s24 0x8000 0x8000 0)
    ∧ Passes (.ecbDec ⟨0, 0, false⟩) (edge s32 0x8000 0x8000 0) := by
  decide +kernel

/-- A new stream, and one that goes on. -/
theorem witness_CbcResults :
    Passes (.cbcEnc ⟨0, 0, false⟩) (edge s16 0x4000 0x4000 16) ∧ Passes (.cbcDec ⟨0, 0, false⟩) (edge s16 0 0 16)
    ∧ Passes (.cbcEnc ⟨0, 0, true⟩) (edge (streaming s16 .cbc 0) 0x4000 0x4000 0)
    ∧ Passes (.cbcDec ⟨0, 0, true⟩) (edge (streaming s16 .cbc 0) 16 16 0) := by
  decide +kernel

/-- No bytes; a length that is no whole block; a stream that goes on from the middle and from the end of a block. -/
theorem witness_CtrResult :
    Passes (.ctr ⟨0, 0, false⟩) (edge s16 0 0 16) ∧ Passes (.ctr ⟨0, 0, false⟩) (edge s16 33 33 16)
    ∧ Passes (.ctr ⟨0, 0, true⟩) (edge (streaming s16 .ctr 0) 17 17 0)
    ∧ Passes (.ctr ⟨0, 0, true⟩) (edge (streaming s16 .ctr 16) 16 16 0) := by
  decide +kernel

theorem witness_OfbResult :
    Passes (.ofb ⟨0, 0, false⟩) (edge s16 0 0 16) ∧ Passes (.ofb ⟨0, 0, false⟩) (edge s16 33 33 16)
    ∧ Passes (.ofb ⟨0, 0, true⟩) (edge (streaming s16 .ofb 0) 17 17 0)
    ∧ Passes (.ofb ⟨0, 0, true⟩) (edge (streaming s16 .ofb 16) 16 16 0) := by
  decide +kernel

/-- The three segment sizes, new and going on. -/
theorem witness_CfbResults :
    Passes (.cfbEnc ⟨0, 0, false⟩) (edge s16 17 17 16) ∧ Passes (.cfbEnc ⟨0, 1, false⟩) (edge s16 24 24 16)
    ∧ Passes (.cfbEnc ⟨0, 2, false⟩) (edge s16 32 32 16) ∧ Passes (.cfbDec ⟨0, 0, false⟩) (edge s16 17 17 16)
    ∧ Passes (.cfbDec ⟨0, 1, false⟩) (edge s16 0 0 16) ∧ Passes (.cfbDec ⟨0, 2, false⟩) (edge s16 32 32 16)
    ∧ Passes (.cfbEnc ⟨0, 1, true⟩) (edge (streaming s16 .cfb8 0) 8 8 0)
    ∧ Passes (.cfbDec ⟨0, 2, true⟩) (edge (streaming s16 .cfb16 0) 16 16 0) := by
  decide +kernel

/-- The premises of `Splits` for one command: a run over `x ‖ y`, and the two runs over `x` and over `y`. -/
abbrev SplitPremises (c : Fields → Instr) (f g : Fields) (nonce x y : List Byte) : Prop :=
  let s := ready s16 0 (x ++ y) [] nonce
  let s1 := ready s16 0 x [] nonce
  let t1 := after (c f) s1
  let s2 := { ready s16 0 y [] nonce with st := t1.st }
  (Passes (c f) s ∧ Passes (c f) s1 ∧ Passes (c g) s2 ∧ g.cont = true ∧ g.param = f.param
    ∧ s1.st = s.st ∧ s1.draws = s.draws ∧ s1.nonce = s.nonce ∧ s.src = s1.src ++ s2.src)
  ∧ s1.cfg = s.cfg ∧ s1.kc = s.kc ∧ s2.cfg = s.cfg ∧ s2.kc = s.kc ∧ s2.st = t1.st
  ∧ exec (c f) s = .next (after (c f) s) ∧ exec (c f) s1 = .next t1 ∧ exec (c g) s2 = .next (after (c g) s2)

theorem witness_StreamsSplit_ctr : SplitPremises .ctr ⟨0, 0, false⟩ ⟨0, 0, true⟩ iv0 (hex 5 7) (hex 13 9) :=
  ⟨by decide +kernel, rfl, rfl, rfl, rfl, rfl, exec_after _ _, exec_after _ _, exec_after _ _⟩

theorem witness_StreamsSplit_ofb : SplitPremises .ofb ⟨0, 0, false⟩ ⟨0, 0, true⟩ iv0 (hex 16 7) (hex 3 9) :=
  ⟨by decide +kernel, rfl, rfl, rfl, rfl, rfl, exec_after _ _, exec_after _ _, exec_after _ _⟩

theorem witness_StreamsSplit_cbcEnc : SplitPremises .cbcEnc ⟨0, 0, false⟩ ⟨0, 0, true⟩ iv0 (hex 16 7) (hex 16 9) :=
  ⟨by decide +kernel, rfl, rfl, rfl, rfl, rfl, exec_after _ _, exec_after _ _, exec_after _ _⟩

theorem witness_StreamsSplit_cbcDec : SplitPremises .cbcDec ⟨0, 0, false⟩ ⟨0, 0, true⟩ iv0 (hex 16 7) [] :=
  ⟨by decide +kernel, rfl, rfl, rfl, rfl, rfl, exec_after _ _, exec_after _ _, exec_after _ _⟩

theorem witness_StreamsSplit_cfbEnc : SplitPremises .cfbEnc ⟨0, 1, false⟩ ⟨0, 1, true⟩ iv0 (hex 8 7) (hex 8 9) :=
  ⟨by decide +kernel, rfl, rfl, rfl, rfl, rfl, exec_after _ _, exec_after _ _, exec_after _ _⟩

theorem witness_StreamsSplit_cfbDec : SplitPremises .cfbDec ⟨0, 0, false⟩ ⟨0, 0, true⟩ iv0 (hex 1 7) (hex 2 9) :=
  ⟨by decide +kernel, rfl, rfl, rfl, rfl, rfl, exec_after _ _, exec_after _ _, exec_after _ _⟩

/-- Both ends of a verification: the true MAC (V-MAC-1, V-MAC-3) at RXTLEN 16 and 1, and RXTLEN 0, 17 and a wrong byte. -/
abbrev VerifyPremises (i : Instr) (T : State → Block) (tag : List Byte) : Prop :=
  let s := ready s16 0 [] [] []
  let holds := fun (u : State) =>
    1 ≤ u.cl.rxtlen.toNat ∧ u.cl.rxtlen.toNat ≤ 16
      ∧ (T u).bytes.take u.cl.rxtlen.toNat = u.cl.tag.bytes.take u.cl.rxtlen.toNat
  Passes i s ∧ holds (receiving s 16 tag) ∧ holds (receiving s 1 tag) ∧ ¬ holds (receiving s 0 tag)
    ∧ ¬ holds (receiving s 17 tag) ∧ ¬ holds (receiving s 16 kZero)

theorem witness_CbcmacResults :
    Passes (.cbcmacGen ⟨1, 0, false⟩) (edge s16 0 0 0) ∧ Passes (.cbcmacGen ⟨16, 0, false⟩) (edge s16 0x10000 0 0)
    ∧ VerifyPremises (.cbcmacVer ⟨0, 0, false⟩) (fun s => cbcmacOf (s.E s.kc.k) s.src)
      (hex 16 0xf6c71eedc3d99bb183cb5b8d1568e606) := by
  decide +kernel

theorem witness_CmacResults :
    Passes (.cmacGen ⟨1, 0, false⟩) (edge s16 0 0 0) ∧ Passes (.cmacGen ⟨16, 0, false⟩) (edge s16 0x10000 0 0)
    ∧ VerifyPremises (.cmacVer ⟨0, 0, false⟩) (fun s => cmacOf (s.E s.kc.k) s.kc.k1 s.kc.k2 s.src)
      (hex 16 0xbb1d6929e95937287fa37d129b756746) := by
  decide +kernel

/-- Both ends of an AEAD decrypt: the tag `T` of the encryption, with the right RXTLEN and with another. -/
abbrev AeadPremises (dec : Instr) (s : State) (T : State → List Byte) (t : Nat) : Prop :=
  let holds := fun (u : State) => u.cl.rxtlen.toNat = t ∧ (T u).take t = u.cl.tag.bytes.take t
  let u := receiving s (BitVec.ofNat 8 t) (T s)
  Passes dec u ∧ holds u ∧ ¬ holds (receiving u (BitVec.ofNat 8 (t - 1)) (T s)) ∧ ¬ holds (receiving u 16 (hex 16 1))

theorem witness_GcmResults :
    Passes (.gcmEnc ⟨16, 0, false⟩) (edge s16 0 0 1)
    ∧ Passes (.gcmEnc ⟨16, 0, false⟩) (ready s16 0 (hex 17 5) (hex 3 9) (hex 12 1))
    ∧ AeadPremises (.gcmDec ⟨16, 0, false⟩) (ready s16 0 (hex 17 5) (hex 3 9) (hex 12 1))
      (fun s => (gcmTagOf s s.aad s.src).bytes) 16 := by
  decide +kernel

theorem witness_CcmResults :
    Passes (.ccmEnc ⟨4, 8, false⟩) (edge s16 0 0 7) ∧ Passes (.ccmEnc ⟨16, 2, false⟩) (edge s16 0x4000 0x4000 13)
    ∧ AeadPremises (.ccmDec ⟨4, 2, false⟩) (ready s16 0 (hex 17 5) (hex 3 9) (hex 13 1))
      (fun s => ccmTagOf s 4 2 (ccmCryptOf s 2 s.src)) 4 := by
  decide +kernel

theorem witness_EaxResults :
    Passes (.eaxEnc ⟨8, 0, false⟩) (edge s16 0 0 0) ∧ Passes (.eaxEnc ⟨16, 0, false⟩) (edge s16 0x4000 0x4000 17)
    ∧ AeadPremises (.eaxDec ⟨8, 0, false⟩) (ready s16 0 (hex 17 5) (hex 3 9) (hex 12 1))
      (fun s => eaxTagOf s 8 s.src) 8 := by
  decide +kernel

theorem witness_OcbResults :
    32 ≤ s16.kc.l.length
    ∧ Passes (.ocbEnc ⟨8, 0, false⟩) (edge s16 0 0 1) ∧ Passes (.ocbEnc ⟨16, 0, false⟩) (edge s16 0x4000 0x4000 15)
    ∧ AeadPremises (.ocbDec ⟨8, 0, false⟩) (ready s16 0 (hex 17 5) (hex 3 9) (hex 12 1))
      (fun s => ocbTagOf s 8 (ocbStartOffset (s.E s.kc.k) 8 s.nonce)
        (ocbOut s (s.D s.kc.k) (ocbStartOffset (s.E s.kc.k) 8 s.nonce) s.src)) 8 := by
  decide +kernel

/-- One block, a tail of 1 and of 15 bytes, under each key length XTS takes. -/
theorem witness_XtsResults :
    Passes (.xtsEnc ⟨0, 0, false⟩) (edge s32 16 16 16) ∧ Passes (.xtsEnc ⟨0, 0, false⟩) (edge s64 17 17 16)
    ∧ Passes (.xtsDec ⟨0, 0, false⟩) (edge s64 16 16 16) ∧ Passes (.xtsDec ⟨0, 0, false⟩) (edge s32 31 31 16) := by
  decide +kernel

/-- The least lengths; and, for the two ends of KW_UNWRAP, a source that was wrapped from the default IV and one that was
wrapped from another value. -/
theorem witness_KwResults :
    let d : Bytes 8 := ⟨List.replicate 8 0xA6, rfl⟩
    let u := fun (a : Bytes 8) => ready s16 0 (kwFrom (s16.E s16.kc.k) a (hex 16 7)) [] []
    let ok := fun (a : Bytes 8) => Passes (.kwUnwrap ⟨0, 0, false⟩) (u a)
      ∧ (hex 16 7).length + 8 = (u a).cl.srcLen.toNat ∧ kwFrom ((u a).E (u a).kc.k) a (hex 16 7) = (u a).src
    Passes (.kwWrap ⟨0, 0, false⟩) (edge s16 16 24 0) ∧ Passes (.kwUnwrap ⟨0, 0, false⟩) (edge s32 24 16 0)
    ∧ ok d ∧ d.bytes = List.replicate 8 0xA6 ∧ ok (Bytes.zero 8) ∧ (Bytes.zero 8).bytes ≠ List.replicate 8 0xA6 := by
  decide +kernel

/-- The premises of `Recovers` for one pair: `x` encrypted, and a second command on the output. -/
abbrev RecoverPremises (enc dec : Fields → Instr) (f g : Fields) (k : State) (nonce x : List Byte) : Prop :=
  let s := ready k 0 x [] nonce
  let t := after (enc f) s
  let u := next s t (outputOf (enc f) s t)
  (Passes (enc f) s ∧ Passes (dec g) u ∧ f.cont = false ∧ g.cont = false ∧ f.param = g.param ∧ u.nonce = s.nonce
    ∧ u.src = outputOf (enc f) s t)
  ∧ exec (enc f) s = .next t ∧ u.cfg = s.cfg ∧ u.kc = s.kc

theorem witness_BlockModesRecover_ecb : RecoverPremises .ecbEnc .ecbDec ⟨0, 0, false⟩ ⟨9, 0, false⟩ s16 [] (hex 16 7) :=
  ⟨by decide +kernel, exec_after _ _, rfl, rfl⟩

theorem witness_BlockModesRecover_cbc : RecoverPremises .cbcEnc .cbcDec ⟨0, 0, false⟩ ⟨0, 0, false⟩ s16 iv0 (hex 32 7) :=
  ⟨by decide +kernel, exec_after _ _, rfl, rfl⟩

theorem witness_StreamModesRecover_ctr : RecoverPremises .ctr .ctr ⟨0, 0, false⟩ ⟨0, 0, false⟩ s16 iv0 (hex 17 7) :=
  ⟨by decide +kernel, exec_after _ _, rfl, rfl⟩

theorem witness_StreamModesRecover_ofb : RecoverPremises .ofb .ofb ⟨0, 0, false⟩ ⟨0, 0, false⟩ s16 iv0 (hex 17 7) :=
  ⟨by decide +kernel, exec_after _ _, rfl, rfl⟩

theorem witness_StreamModesRecover_cfb : RecoverPremises .cfbEnc .cfbDec ⟨0, 1, false⟩ ⟨0, 1, false⟩ s16 iv0 (hex 24 7) :=
  ⟨by decide +kernel, exec_after _ _, rfl, rfl⟩

theorem witness_XtsRecovers : RecoverPremises .xtsEnc .xtsDec ⟨0, 0, false⟩ ⟨0, 0, false⟩ s32 iv0 (hex 17 7) :=
  ⟨by decide +kernel, exec_after _ _, rfl, rfl⟩

theorem witness_KwRecovers : RecoverPremises .kwWrap .kwUnwrap ⟨0, 0, false⟩ ⟨0, 0, false⟩ s16 [] (hex 16 7) :=
  ⟨by decide +kernel, exec_after _ _, rfl, rfl⟩

/-- The premises of `RecoversAead` for one pair. -/
abbrev RecoverAeadPremises (enc dec : Fields → Instr) (f : Fields) (nonce aad x : List Byte) : Prop :=
  let s := ready s16 0 x aad nonce
  let t := after (enc f) s
  let u := next s t (outputOf (enc f) s t)
  (Passes (enc f) s ∧ Passes (dec f) u ∧ u.nonce = s.nonce ∧ u.aad = s.aad ∧ u.src = outputOf (enc f) s t
    ∧ u.cl.rxtlen.toNat = f.tlen)
  ∧ exec (enc f) s = .next t ∧ u.cfg = s.cfg ∧ u.kc = s.kc ∧ u.cl.tag = t.tag

theorem witness_GcmRecovers : RecoverAeadPremises .gcmEnc .gcmDec ⟨16, 0, false⟩ (hex 12 1) (hex 3 2) (hex 17 3) :=
  ⟨by decide +kernel, exec_after _ _, rfl, rfl, rfl⟩

theorem witness_CcmRecovers : RecoverAeadPremises .ccmEnc .ccmDec ⟨16, 2, false⟩ (hex 13 1) (hex 3 2) (hex 17 3) :=
  ⟨by decide +kernel, exec_after _ _, rfl, rfl, rfl⟩

theorem witness_EaxRecovers : RecoverAeadPremises .eaxEnc .eaxDec ⟨16, 0, false⟩ (hex 12 1) (hex 3 2) (hex 17 3) :=
  ⟨by decide +kernel, exec_after _ _, rfl, rfl, rfl⟩

theorem witness_OcbRecovers : RecoverAeadPremises .ocbEnc .ocbDec ⟨16, 0, false⟩ (hex 12 1) (hex 3 2) (hex 17 3) :=
  ⟨by decide +kernel, exec_after _ _, rfl, rfl, rfl⟩

/-- A GF run over two blocks, and the two runs over one block each. -/
theorem witness_GfChainResults :
    let c := Instr.ghash
    let p := Instr.polyval
    let f : Fields := ⟨0, 0, false⟩
    let s := gfReady 0x1A#32 (hex 16 1) (hex 16 2) (hex 32 3)
    let s1 := gfReady 0x1A#32 (hex 16 1) (hex 16 2) (hex 16 0)
    let t1 := after (c f) s1
    let r1 := after (p f) s1
    let s2 := gfReady 0x1A#32 t1.gfr.bytes (hex 16 2) (hex 16 3)
    let r2 := gfReady 0x1A#32 r1.gfr.bytes (hex 16 2) (hex 16 3)
    (Passes (c f) s ∧ Passes (c f) s1 ∧ Passes (c f) s2 ∧ s1.cl.gfa = s.cl.gfa ∧ s1.cl.gfb = s.cl.gfb
      ∧ s2.cl.gfa = t1.gfr ∧ s2.cl.gfb = s.cl.gfb ∧ s.src = s1.src ++ s2.src)
    ∧ (Passes (p f) s ∧ Passes (p f) s1 ∧ Passes (p f) r2 ∧ r2.cl.gfa = r1.gfr ∧ r2.cl.gfb = s.cl.gfb
      ∧ s.src = s1.src ++ r2.src) := by
  decide +kernel

/-- The largest index of a byte in each direction. -/
theorem witness_IntegerEncodings : (15 : Nat) < 16 ∧ (0 : Nat) < 1 := by decide

/-- The first and the last counter below `2^32`, and the one with the most trailing zeros. -/
theorem witness_TrailingZeros : (0 : Nat) < 1 ∧ 2 ^ 32 - 1 < 2 ^ 32 ∧ ntz (2 ^ 31) = 31 ∧ 30 < ntz (2 ^ 31) := by
  decide +kernel

/-- SRST while idle, over a command that would fail, and over a command whose destination lies elsewhere. -/
theorem witness_SoftReset :
    (4#32).getLsbD 2 = true ∧ State.reset.seq = .idle
    ∧ (let s := ready State.reset 0x00000002#32 [] [] [];
      decodeWord s.cl.cmd = .ok (.ecbEnc ⟨0, 0, false⟩) ∧ ¬ Passes (.ecbEnc ⟨0, 0, false⟩) s)
    ∧ (let s := ready s16 0x00000002#32 (hex 16 7) [] [];
      decodeWord s.cl.cmd = .ok (.ecbEnc ⟨0, 0, false⟩) ∧ Passes (.ecbEnc ⟨0, 0, false⟩) s
      ∧ ¬ (s.cl.dstPtr.toNat ≤ 0x2FFF ∧ 0x2FFF < s.cl.dstPtr.toNat + outLength (.ecbEnc ⟨0, 0, false⟩) s)
      ∧ ¬ (s.cl.dstPtr.toNat ≤ 0x3010 ∧ 0x3010 < s.cl.dstPtr.toNat + outLength (.ecbEnc ⟨0, 0, false⟩) s)) := by
  decide +kernel

/-- A word for each clause: SRST (with all else set), ABORT while busy, START while busy, START while idle (with ABORT too), and neither. -/
theorem witness_ControlWrite :
    (ready State.reset 0 [] [] []).seq = .busy ∧ State.reset.seq = .idle
    ∧ (15#32).getLsbD 2 = true
    ∧ ((3#32).getLsbD 2 = false ∧ (3#32).getLsbD 1 = true ∧ (3#32).getLsbD 0 = true)
    ∧ ((9#32).getLsbD 2 = false ∧ (9#32).getLsbD 1 = false ∧ (9#32).getLsbD 0 = true)
    ∧ ((8#32).getLsbD 2 = false ∧ (8#32).getLsbD 1 = false ∧ (8#32).getLsbD 0 = false)
    ∧ ((2#32).getLsbD 2 = false ∧ (2#32).getLsbD 0 = false)
    ∧ (Reg.id ≠ .ctrl ∧ Reg.id ≠ .status) := by
  decide +kernel

/-- A bad word, a failing check, and a command that would have gone on. -/
theorem witness_AbortOutcome :
    decodeWord (ready State.reset 0x20#32 [] [] []).cl.cmd = .error .reservedOpcode
    ∧ (let s := ready State.reset 0x00000002#32 [] [] [];
      decodeWord s.cl.cmd = .ok (.ecbEnc ⟨0, 0, false⟩) ∧ firstFailure (.ecbEnc ⟨0, 0, false⟩) s = some .nokey)
    ∧ (let s := ready s16 0x00100006#32 (hex 5 7) [] [];
      decodeWord s.cl.cmd = .ok (.ctr ⟨0, 0, true⟩) ∧ Passes (.ctr ⟨0, 0, true⟩) (streaming s .ctr 3)) := by
  decide +kernel

/-- CTRL and STATUS, the first register after them, the last before the hole, and the last of all. -/
theorem witness_BusyDropsWrites :
    (ready State.reset 0 [] [] []).seq = .busy
    ∧ (∀ p ∈ [(0x08, Reg.ctrl), (0x0C, .status), (0x00, .id), (0x10, .cmd), (0xBC, .gfr 3)],
      p.1 < 0x10000 ∧ p.1 % 4 = 0 ∧ regAt (p.1 / 4) = some p.2)
    ∧ Reg.gfr 3 ≠ .ctrl ∧ Reg.gfr 3 ≠ .status := by
  decide +kernel

theorem witness_KeyWritesInvalidate : s16.seq = .idle ∧ (15 : Nat) < 16 ∧ (63 : Nat) < 64 := by decide +kernel

/-- Offsets on both sides of every border of the map, and the two ways an access to a mapped offset is illegal. -/
theorem witness_RegisterSpace :
    (∀ o ∈ [0x00, 0x38, 0x40, 0xBC], o < 0x10000 ∧ o % 4 = 0 ∧ (o < 0x3C ∨ 0x40 ≤ o ∧ o < 0xC0))
    ∧ (∀ o ∈ [0x3C, 0xC0, 0xFFFC, 0x41, 0x42], o < 0x10000 ∧ ¬ (o % 4 = 0 ∧ (o < 0x3C ∨ 0x40 ≤ o ∧ o < 0xC0)))
    ∧ Width.w1 ≠ .w4 ∧ Width.w2 ≠ .w4 := by
  decide

theorem witness_RegistersReadBack : State.reset.seq = .idle ∧ (3 : Nat) < 4 ∧ (15 : Nat) < 16 := by decide

/-- The last byte and the last word of MSG, idle and busy; a misaligned access; and the first byte beyond a smaller MSG. -/
theorem witness_MessageWindow :
    State.reset.seq = .idle ∧ (ready State.reset 0 [] [] []).seq = .busy
    ∧ 65535 % 1 = 0 ∧ 65535 < State.reset.msgSize ∧ 0xFFFC % 4 = 0 ∧ 0xFFFC < State.reset.msgSize ∧ 0xFFFC < 0x10000
    ∧ ¬ (0xFFFD % 2 = 0 ∧ 0xFFFD < State.reset.msgSize)
    ∧ (let s := { State.reset with cfg := { Params.default with msgSize := .s4096 } };
      4095 < s.msgSize ∧ ¬ (4096 % 1 = 0 ∧ 4096 < s.msgSize)) := by
  decide +kernel

/-- Two states with different keys. -/
theorem witness_KeysUnreadable :
    (withKey .k16 kZero).kc.valid = s16.kc.valid ∧ (withKey .k16 kZero).kc.key ≠ s16.kc.key := by
  decide +kernel

end Sys2Proof.Tests
end

section
/-! The primitive and the terms of spec/00_scope.md: the law of the block cipher (R8), integers as byte strings (R12)
and trailing zeros (R16). -/

namespace Sys2Proof

/-! ## The block cipher (R8) -/

theorem Aes.decrypt_encrypt (k : List Byte) (x : Block) : Aes.decrypt k (Aes.encrypt k x) = x := by
  unfold Aes.decrypt Aes.encrypt
  cases Aes.roundKeys k with
  | nil => rfl
  | cons rk rks =>
    show (Aes.decRounds rks (Aes.encRounds rks (x.xor rk))).xor rk = x
    rw [Aes.decRounds_encRounds, Bytes.xor_cancel_right]

theorem Aes.encrypt_decrypt (k : List Byte) (x : Block) : Aes.encrypt k (Aes.decrypt k x) = x := by
  unfold Aes.decrypt Aes.encrypt
  cases Aes.roundKeys k with
  | nil => rfl
  | cons rk rks =>
    show Aes.encRounds rks (((Aes.decRounds rks x).xor rk).xor rk) = x
    rw [Bytes.xor_cancel_right, Aes.encRounds_decRounds]

theorem Primitive.decrypt_encrypt (p : Primitive) (k : List Byte) (b : Block) : p.decrypt k (p.encrypt k b) = b := by
  cases p with
  | external => exact (Config.cipher k).symm_apply_apply b
  | aes =>
    by_cases h : k.length = 16 ∨ k.length = 24 ∨ k.length = 32
    · simp only [Primitive.decrypt, Primitive.encrypt, if_pos h, Aes.decrypt_encrypt]
    · simp only [Primitive.decrypt, Primitive.encrypt, if_neg h, Equiv.symm_apply_apply]

theorem Primitive.encrypt_decrypt (p : Primitive) (k : List Byte) (b : Block) : p.encrypt k (p.decrypt k b) = b := by
  cases p with
  | external => exact (Config.cipher k).apply_symm_apply b
  | aes =>
    by_cases h : k.length = 16 ∨ k.length = 24 ∨ k.length = 32
    · simp only [Primitive.decrypt, Primitive.encrypt, if_pos h, Aes.encrypt_decrypt]
    · simp only [Primitive.decrypt, Primitive.encrypt, if_neg h, Equiv.apply_symm_apply]

namespace Machine

@[simp] theorem State.D_E (s : State) (k : List Byte) (b : Block) : s.D k (s.E k b) = b :=
  s.cfg.primitive.decrypt_encrypt k b

@[simp] theorem State.E_D (s : State) (k : List Byte) (b : Block) : s.E k (s.D k b) = b :=
  s.cfg.primitive.encrypt_decrypt k b

/-- `D(KC.k, ·)` undoes `E(KC.k, ·)` of another state with the same parameters and key context. -/
theorem State.decK_encK {s u : State} (hcfg : u.cfg = s.cfg) (hkc : u.kc = s.kc) (b : Block) :
    u.decK (s.encK b) = b := by
  simp only [State.decK, State.encK, State.D, State.E, hcfg, hkc, Primitive.decrypt_encrypt]

end Machine

/-- Settles O45: the rounds of AES are undone one by one, and the external cipher is a permutation. -/
theorem cipherInverse : Obligations.CipherInverse := fun s k b => ⟨s.D_E k b, s.E_D k b⟩

/-! ## Integers and trailing zeros (R12, R16) -/

/-- Settles O46, from the laws of the encodings. -/
theorem integerEncodings : Obligations.IntegerEncodings :=
  ⟨fun n v => ⟨intBE_beBytes n v, intLE_leBytes n v, fun _ hi => getD_beBytes v hi, fun _ hi => getD_leBytes v hi⟩,
    fun x => ⟨beBytes_intBE x, leBytes_intLE x⟩⟩

/-- Settles O48: the first set bit of a positive number lies below its length in bits. -/
theorem trailingZeros : Obligations.TrailingZeros := by
  refine ⟨rfl, fun i hi => ?_⟩
  obtain ⟨hzeros, hone⟩ := ntz_spec hi
  exact ⟨hzeros, hone, fun h32 => Nat.le_of_lt_succ (ntz_lt hi h32)⟩

end Sys2Proof
end

section
/-! One step of the machine, by what comes next (R112, R182, R560). -/

namespace Sys2Proof.Machine

open Sys2Proof.Safety

theorem step_of_inputs_nil {s : State} (h : s.inputs = []) : step s = engineTurn s := by
  simp only [step, stepInputs, h]

theorem step_of_engine {s : State} {rest : List Input} (h : s.inputs = .engine :: rest) :
    step s = engineTurn { s with inputs := rest } := by
  simp only [step, stepInputs, h]

theorem step_of_access {s : State} {a : Access} {rest : List Input} (h : s.inputs = .access a :: rest) :
    step s = .next (hostAccess a { s with inputs := rest }) := by
  simp only [step, stepInputs, h]

theorem step_of_hardReset {s : State} {rest : List Input} (h : s.inputs = .hardReset :: rest) :
    step s = .next (hardReset { s with inputs := rest }) := by
  simp only [step, stepInputs, h]

theorem engineTurn_of_idle {s : State} (h : s.seq = .idle) : engineTurn s = .next s := by
  simp only [engineTurn, h]

theorem engineTurn_of_decodes {s : State} {i : Instr} (hb : s.seq = .busy) (h : decodeWord s.cl.cmd = .ok i) :
    engineTurn s = exec i s := by
  simp only [engineTurn, complete, hb, h]

theorem engineTurn_of_rejected {s : State} {e : DecodeReject} (hb : s.seq = .busy)
    (h : decodeWord s.cl.cmd = .error e) : engineTurn s = .next (errored s .badop) := by
  simp only [engineTurn, complete, hb, h]
  rfl

/-- Settles O6: by what comes next, and for the engine's turn by what the latched word decodes to. -/
theorem stepRunsLatchedCommand : Obligations.StepRunsLatchedCommand := by
  intro s
  refine ⟨fun hb i hd => ⟨fun h => ?_, fun rest h => ?_⟩, fun hb e hd => ⟨fun h => ?_, fun rest h => ?_⟩,
    fun hi => ⟨fun h => ?_, fun rest h => ?_⟩, fun a rest h => step_of_access h, fun rest h => step_of_hardReset h⟩
  · rw [step_of_inputs_nil h, engineTurn_of_decodes hb hd]
  · rw [step_of_engine h]; exact engineTurn_of_decodes hb hd
  · rw [step_of_inputs_nil h, engineTurn_of_rejected hb hd]
  · rw [step_of_engine h]; exact engineTurn_of_rejected hb hd
  · rw [step_of_inputs_nil h, engineTurn_of_idle hi]
  · rw [step_of_engine h]; exact engineTurn_of_idle hi

end Sys2Proof.Machine
end

section
/-! ECB and CBC undo their own encryption (R260–R266). -/

namespace Sys2Proof

/-! ## The modes as functions on blocks -/

theorem ecbBlocks_ecbBlocks {d e : Block → Block} (hde : ∀ b, d (e b) = b) {x : List Byte} (hx : x.length % 16 = 0) :
    ecbBlocks d (ecbBlocks e x) = x := by
  have hid : d ∘ e = id := funext hde
  rw [ecbBlocks, ecbBlocks, toBlocks_joinChunks, List.map_map, hid, List.map_id, joinChunks_toBlocks hx]

/-- Each block of the decryption is xored with the chaining value it was encrypted under. -/
theorem cbcDec_cbcEnc {d e : Block → Block} (hde : ∀ b, d (e b) = b) (y : Block) (xs : List Block) :
    (cbcDec d y (cbcEnc e y xs).2).2 = xs := by
  induction xs generalizing y with
  | nil => rfl
  | cons x xs ih => simp only [cbcEnc, cbcDec, hde, Bytes.xor_cancel_right, ih]

theorem ecbBlocks_length {f : Block → Block} {x : List Byte} (hx : x.length % 16 = 0) :
    (ecbBlocks f x).length = x.length := by
  rw [ecbBlocks_eq, blocks_length]; omega

namespace Machine

open Sys2Proof.Safety

/-! ## What a command writes -/

/-- A command ends without error and its destination region then reads `out`. -/
def Outputs (i : Instr) (s : State) (out : List Byte) : Prop :=
  ∃ t, exec i s = .next t ∧ t.err = false ∧ t.authfail = false ∧ outputOf i s t = out

theorem Outputs.outputOf_eq {i : Instr} {s t : State} {out : List Byte} (h : Outputs i s out)
    (hx : exec i s = .next t) : outputOf i s t = out := by
  obtain ⟨t', hx', -, -, ho⟩ := h
  rw [hx] at hx'
  cases hx'
  exact ho

theorem outputs_of_commitsStoring {i : Instr} {s w : State} {out : List Byte} (h : CommitsStoring i s w out)
    (hl : out.length = outLength i s) : Outputs i s out := by
  obtain ⟨m, hx, hm⟩ := h
  refine ⟨_, hx, rfl, rfl, ?_⟩
  rw [outputOf, ← hl]
  exact memRead_of_stores hm

/-- The source of a command that takes whole blocks (R507). -/
theorem passes_blocks {i : Instr} {s : State} (h : Passes i s) (hi : (profile i).len = .block) :
    s.src.length % 16 = 0 := by
  have hl := lenFails_eq i s
  obtain ⟨-, -, -, -, -, hlen, -⟩ := passes_iff.1 h
  rw [hlen] at hl
  simpa [lenFails, hi] using hl

/-- A new stream starts from the IV (R230). -/
theorem streamStart_sreg {fam : Family} {f : Fields} {s : State} (hc : f.cont = false) :
    (streamStart fam f s).sreg = Bytes.ofList 16 s.nonce := by
  simp [streamStart, hc]

theorem ecbEnc_outputs {f : Fields} {s : State} (h : Passes (.ecbEnc f) s) :
    Outputs (.ecbEnc f) s (ecbBlocks s.encK s.src) := by
  have hx : exec (.ecbEnc f) s = .next _ := runChecked_pass h _
  have hl : (ecbBlocks s.encK s.src).length = s.cl.srcLen.toNat := by
    rw [ecbBlocks_length (passes_blocks h rfl), State.src_length]
  exact outputs_of_commitsStoring (commit_stores hx rfl rfl rfl hl rfl) hl

theorem ecbDec_outputs {f : Fields} {s : State} (h : Passes (.ecbDec f) s) :
    Outputs (.ecbDec f) s (ecbBlocks s.decK s.src) := by
  have hx : exec (.ecbDec f) s = .next _ := runChecked_pass h _
  have hl : (ecbBlocks s.decK s.src).length = s.cl.srcLen.toNat := by
    rw [ecbBlocks_length (passes_blocks h rfl), State.src_length]
  exact outputs_of_commitsStoring (commit_stores hx rfl rfl rfl hl rfl) hl

/-- As many blocks as the source has fill the destination of a command on whole blocks. -/
theorem joinChunks_length_of_blocks {i : Instr} {s : State} (h : Passes i s) (hi : (profile i).len = .block)
    {bs : List Block} (hb : bs.length = (toBlocks s.src).length) : (joinChunks bs).length = s.cl.srcLen.toNat := by
  have h16 := passes_blocks h hi
  rw [joinChunks_length, hb, toBlocks_length, ← State.src_length]
  omega

theorem cbcEnc_outputs {f : Fields} {s : State} (h : Passes (.cbcEnc f) s) (hc : f.cont = false) :
    Outputs (.cbcEnc f) s (joinChunks (cbcEnc s.encK (Bytes.ofList 16 s.nonce) (toBlocks s.src)).2) := by
  have hx : exec (.cbcEnc f) s = .next _ := runChecked_pass h _
  rw [streamStart_sreg hc] at hx
  have hn : (cbcEnc s.encK (Bytes.ofList 16 s.nonce) (toBlocks s.src)).2.length = (toBlocks s.src).length := by
    simp [cbcEnc_eq]
  have hl := joinChunks_length_of_blocks h rfl hn
  obtain ⟨_, hstores⟩ := commitStream_stores hx hl
  exact outputs_of_commitsStoring hstores hl

theorem cbcDec_outputs {f : Fields} {s : State} (h : Passes (.cbcDec f) s) (hc : f.cont = false) :
    Outputs (.cbcDec f) s (joinChunks (cbcDec s.decK (Bytes.ofList 16 s.nonce) (toBlocks s.src)).2) := by
  have hx : exec (.cbcDec f) s = .next _ := runChecked_pass h _
  rw [streamStart_sreg hc] at hx
  have hn : (cbcDec s.decK (Bytes.ofList 16 s.nonce) (toBlocks s.src)).2.length = (toBlocks s.src).length := by
    simp [cbcDec_eq]
  have hl := joinChunks_length_of_blocks h rfl hn
  obtain ⟨_, hstores⟩ := commitStream_stores hx hl
  exact outputs_of_commitsStoring hstores hl

/-! ## Recovery -/

theorem ecb_recovers : Recovers .ecbEnc .ecbDec := by
  intro f g s t u hs hx hu _ _ _ hcfg hkc _ hsrc
  have hout := ecbDec_outputs hu
  rw [hsrc, (ecbEnc_outputs hs).outputOf_eq hx,
    ecbBlocks_ecbBlocks (State.decK_encK hcfg hkc) (passes_blocks hs rfl)] at hout
  exact hout

theorem cbc_recovers : Recovers .cbcEnc .cbcDec := by
  intro f g s t u hs hx hu hf hg _ hcfg hkc hnonce hsrc
  have hout := cbcDec_outputs hu hg
  rw [hsrc, (cbcEnc_outputs hs hf).outputOf_eq hx, toBlocks_joinChunks, hnonce,
    cbcDec_cbcEnc (State.decK_encK hcfg hkc), joinChunks_toBlocks (passes_blocks hs rfl)] at hout
  exact hout

/-- Settles O32: what the decryption writes undoes what the encryption wrote, block by block. -/
theorem blockModesRecover : Obligations.BlockModesRecover := ⟨ecb_recovers, cbc_recovers⟩

end Machine

end Sys2Proof
end

section
/-! The invariant of the machine, and what a command leaves unchanged (R53–R64, R107, R181–R185). -/

namespace Sys2Proof.Machine

open Sys2Proof.Safety

/-! ## The invariant -/

theorem engineTurn_inv {s t : State} (h : Inv s) (ht : engineTurn s = .next t) : Inv t := by
  cases hs : s.seq with
  | idle =>
    rw [engineTurn_of_idle hs] at ht
    cases ht
    exact h
  | busy =>
    cases hd : decodeWord s.cl.cmd with
    | error e =>
      rw [engineTurn_of_rejected hs hd] at ht
      cases ht
      exact raiseError_inv h hs (by decide)
    | ok i =>
      rw [engineTurn_of_decodes hs hd] at ht
      exact exec_inv h hs ht

theorem inputs_inv {s : State} (h : Inv s) (rest : List Input) : Inv { s with inputs := rest } := inv_of_eq h rfl

theorem step_inv {s t : State} (h : Inv s) (ht : step s = .next t) : Inv t := by
  cases hin : s.inputs with
  | nil =>
    rw [step_of_inputs_nil hin] at ht
    exact engineTurn_inv h ht
  | cons x rest =>
    have hrest := inputs_inv h rest
    cases x with
    | engine =>
      rw [step_of_engine hin] at ht
      exact engineTurn_inv hrest ht
    | access a =>
      rw [step_of_access hin] at ht
      cases ht
      exact hostAccess_inv hrest
    | hardReset =>
      rw [step_of_hardReset hin] at ht
      cases ht
      exact hardReset_inv h.cfg_wf

/-- Settles O11: by what comes next; each host access, reset and command keeps the invariant. -/
theorem invariantKept : Obligations.InvariantKept := fun _ _ => step_inv

/-- Settles O10: but for the free draws, the machine right after reset is what a hard reset of it gives. -/
theorem invariantAtReset : Obligations.InvariantAtReset :=
  inv_of_eq (hardReset_inv (s := State.reset) rfl) rfl

/-! ## What a command leaves unchanged -/

/-- The states a command can end in, from `s`: the error of a failing check, a failed verification, or a commit, which
changes `KC` for KEYINIT alone and `ST` for KEYINIT and the stream commands alone. -/
inductive EndsIn (i : Instr) (s : State) : State → Prop
  | error (c : ErrCode) : EndsIn i s (errored s c)
  | authFail : EndsIn i s (authFail i s)
  | commit (out : List Byte) (tag : Option (List Byte)) (gfr : Option Block) (kc : KeyContext) (st : Stream) (d : Nat)
      (hout : out.length = outLength i s) (htag : makesTag i = false → tag = none) (hgfr : isGf i = false → gfr = none)
      (hkc : (∀ f, i ≠ .keyinit f) → kc = s.kc) (hst : (∀ f, i ≠ .keyinit f) → isStream i = false → st = s.st) :
      EndsIn i s (commit i out tag gfr { s with kc := kc, st := st, draws := d })

theorem exec_endsIn {i : Instr} {s t : State} (hx : exec i s = .next t) : EndsIn i s t := by
  rcases exec_answers i s with ⟨c, _, hx'⟩ | ⟨_, out, tag, gfr, u, hx', hout, htag, hgfr, hu⟩ | ⟨_, _, hx'⟩
  · cases hx'.symm.trans hx
    exact .error c
  · cases hx'.symm.trans hx
    rcases hu with ⟨rfl, _⟩ | ⟨hstream, S, d, _, _, rfl⟩ | ⟨f, kl, rfl, _, rfl⟩
    · exact .commit out tag gfr _ _ _ hout htag hgfr (fun _ => rfl) (fun _ _ => rfl)
    · exact .commit out tag gfr _ _ _ hout htag hgfr (fun _ => rfl) (fun _ hs => by simp [hs] at hstream)
    · exact .commit out tag gfr _ _ _ hout htag hgfr (fun hi => absurd rfl (hi f)) (fun hi => absurd rfl (hi f))
  · cases hx'.symm.trans hx
    exact .authFail

/-- A command writes the STATUS fields, OUT_LEN, TAG, GFR, `KC`, `ST`, MSG and the count of free draws, and no other
field. -/
theorem exec_writes_only {i : Instr} {s t : State} (hx : exec i s = .next t) : t = { s with
    seq := t.seq, done := t.done, err := t.err, authfail := t.authfail, errcode := t.errcode, outLen := t.outLen,
    tag := t.tag, gfr := t.gfr, kc := t.kc, st := t.st, msg := t.msg, draws := t.draws } := by
  cases exec_endsIn hx <;> rfl

theorem exec_tag {i : Instr} {s t : State} (hx : exec i s = .next t) (hi : makesTag i = false) : t.tag = s.tag := by
  cases exec_endsIn hx with
  | error | authFail => rfl
  | commit _ _ _ _ _ _ _ htag => rw [commit_tag, htag hi]

theorem exec_gfr {i : Instr} {s t : State} (hx : exec i s = .next t) (hi : isGf i = false) : t.gfr = s.gfr := by
  cases exec_endsIn hx with
  | error | authFail => rfl
  | commit _ _ _ _ _ _ _ _ hgfr => rw [commit_gfr, hgfr hi]

theorem exec_kc {i : Instr} {s t : State} (hx : exec i s = .next t) (hi : ∀ f, i ≠ .keyinit f) : t.kc = s.kc := by
  cases exec_endsIn hx with
  | error | authFail => rfl
  | commit _ _ _ _ _ _ _ _ _ hkc => exact hkc hi

theorem exec_st {i : Instr} {s t : State} (hx : exec i s = .next t) (hi : ∀ f, i ≠ .keyinit f)
    (hs : isStream i = false) : t.st = s.st := by
  cases exec_endsIn hx with
  | error | authFail => rfl
  | commit _ _ _ _ _ _ _ _ _ _ hst => exact hst hi hs

/-- A byte that no write of `n` bytes from `a` up reaches, where an empty write is left out (R107). -/
theorem msgByte_outside {s t : State} {a n b : Nat} {v : List Byte}
    (hm : t.msg = if 0 < n then Memory.writeBytes s.msg a v else s.msg) (hd : t.msgDraw = s.msgDraw)
    (hv : v.length = n) (hb : ¬ (a ≤ b ∧ b < a + n)) : t.msgByte b = s.msgByte b := by
  split at hm
  · rw [msgByte_of_msg hm hd b, hv, if_neg hb]
  · exact State.msgByte_congr hm hd b

theorem exec_msgByte_outside {i : Instr} {s t : State} (hx : exec i s = .next t) {b : Nat}
    (hb : ¬ (s.cl.dstPtr.toNat ≤ b ∧ b < s.cl.dstPtr.toNat + outLength i s)) : t.msgByte b = s.msgByte b := by
  rw [← outlen_eq] at hb
  cases exec_endsIn hx with
  | error => rfl
  | authFail => exact msgByte_outside (authFail_msg i s) rfl (List.length_replicate ..) hb
  | commit out _ _ _ _ _ hout =>
    rw [← outlen_eq] at hout
    exact msgByte_outside (commit_msg ..) rfl hout hb

/-- Settles O8: by the states a command can end in. -/
theorem commandFrame : Obligations.CommandFrame := by
  intro i s t hx
  have hw := exec_writes_only hx
  refine ⟨?_, ?_, exec_tag hx, exec_gfr hx, exec_kc hx, exec_st hx, fun _ => exec_msgByte_outside hx⟩
  · rw [hw]
    simp only [and_self]
  · rw [hw]
    simp only [and_self]

end Sys2Proof.Machine
end

section
/-! The host side: how the registers read and what a write to one does (R40–R58, R65, R103–R105). -/

namespace Sys2Proof.Machine

/-! ## STATUS, CTRL and the interrupt level -/

theorem Family.code_lt (m : Family) : m.code < 8 := by cases m <;> decide

theorem ErrCode.code_lt (c : ErrCode) : c.code < 256 := by cases c <;> decide

theorem State.smodeView_lt (s : State) : s.smodeView < 8 := by
  unfold State.smodeView
  split
  · exact s.st.smode.code_lt
  · decide

theorem State.sposView_lt (s : State) : s.sposView < 32 := by
  unfold State.sposView
  split <;> omega

/-- STATUS field by field (R45): every summand fits the width of its field, so no field carries into the next. -/
theorem State.statusWord_fields (s : State) :
    bitField s.statusWord 0 1 = (decide (s.seq = .busy)).toNat
      ∧ bitField s.statusWord 1 1 = s.done.toNat ∧ bitField s.statusWord 2 1 = s.err.toNat
      ∧ bitField s.statusWord 3 1 = s.authfail.toNat ∧ bitField s.statusWord 4 1 = s.busyerr.toNat
      ∧ bitField s.statusWord 5 1 = s.kc.valid.toNat ∧ bitField s.statusWord 6 1 = s.st.valid.toNat
      ∧ bitField s.statusWord 7 1 = 0 ∧ bitField s.statusWord 8 3 = s.smodeView ∧ bitField s.statusWord 11 5 = 0
      ∧ bitField s.statusWord 16 5 = s.sposView ∧ bitField s.statusWord 21 3 = 0
      ∧ bitField s.statusWord 24 8 = s.errcode.code := by
  have hbusy : (if s.seq = .busy then 1 else 0) = (decide (s.seq = .busy)).toNat := by
    cases s.seq <;> rfl
  have h0 := Bool.toNat_le (decide (s.seq = .busy))
  have h1 := Bool.toNat_le s.done
  have h2 := Bool.toNat_le s.err
  have h3 := Bool.toNat_le s.authfail
  have h4 := Bool.toNat_le s.busyerr
  have h5 := Bool.toNat_le s.kc.valid
  have h6 := Bool.toNat_le s.st.valid
  have hsmode := s.smodeView_lt
  have hspos := s.sposView_lt
  have hcode := s.errcode.code_lt
  simp only [bitField, State.statusWord, hbusy, BitVec.toNat_ofNat]
  refine ⟨?_, ?_, ?_, ?_, ?_, ?_, ?_, ?_, ?_, ?_, ?_, ?_, ?_⟩ <;> omega

theorem getLsbD_of_bitField {v : Word} {k : Nat} {b : Bool} (h : bitField v k 1 = b.toNat) : v.getLsbD k = b := by
  rw [← bitField_one, h]
  cases b <;> rfl

theorem extractLsb'_toNat_eq_bitField (v : Word) (lo len : Nat) : (v.extractLsb' lo len).toNat = bitField v lo len := by
  rw [BitVec.extractLsb'_toNat, Nat.shiftRight_eq_div_pow, bitField]

theorem extractLsb'_eq_zero_of_bitField {v : Word} {lo len : Nat} (h : bitField v lo len = 0) :
    v.extractLsb' lo len = 0 := by
  apply BitVec.eq_of_toNat_eq
  rw [extractLsb'_toNat_eq_bitField, h]
  rfl

theorem State.ctrlWord_eq (s : State) : s.ctrlWord = if s.irqEn then 8#32 else 0#32 := by
  unfold State.ctrlWord
  cases s.irqEn <;> rfl

/-- A STATUS write clears the flags whose bit is 1 (R46). -/
theorem statusWrite_eq (v : Word) (s : State) : statusWrite v s = { s with
    done := if v.getLsbD 1 then false else s.done, busyerr := if v.getLsbD 4 then false else s.busyerr } := by
  simp only [statusWrite, bitField_one]
  cases v.getLsbD 1 <;> cases v.getLsbD 4 <;> simp

/-- Settles O53: the fields of STATUS share no bit. -/
theorem statusReadAndWritten : Obligations.StatusReadAndWritten := by
  intro s
  obtain ⟨hbusy, hdone, herr, hauth, hbusyerr, hkc, hst, h7, hsmode, h11, hspos, h21, hcode⟩ := s.statusWord_fields
  refine ⟨⟨getLsbD_of_bitField hbusy, getLsbD_of_bitField hdone, getLsbD_of_bitField herr, getLsbD_of_bitField hauth,
      getLsbD_of_bitField hbusyerr, getLsbD_of_bitField hkc, getLsbD_of_bitField hst, getLsbD_of_bitField h7⟩,
    ?_, extractLsb'_eq_zero_of_bitField h11, ?_, extractLsb'_eq_zero_of_bitField h21, ?_, s.ctrlWord_eq, rfl,
    fun v => statusWrite_eq v s⟩
  · refine (extractLsb'_toNat_eq_bitField ..).trans (hsmode.trans ?_)
    unfold State.smodeView
    cases s.st.smode <;> rfl
  · refine (extractLsb'_toNat_eq_bitField ..).trans (hspos.trans ?_)
    simp [State.sposView]
  · refine (extractLsb'_toNat_eq_bitField ..).trans (hcode.trans ?_)
    cases s.errcode <;> rfl

/-! ## Writes to CTRL (R44) -/

/-- Settles O51: the bits of the value decide in the order of R44. -/
theorem controlWrite : Obligations.ControlWrite := by
  intro s v
  have hctrl : writeReg .ctrl v s = ctrlWrite v s := rfl
  simp only [hctrl, ctrlWrite, bitField_one_iff, bitField_one]
  refine ⟨fun hsrst => ?_, fun hsrst habort hb => ?_, fun hsrst habort hstart hb => ?_, fun hsrst hstart hi => ?_,
    fun hsrst hstart h => ?_, fun r h1 h2 hb => writeReg_busy hb v h1 h2⟩
  · rw [if_pos hsrst]
  · simp only [hsrst, habort, hb, Bool.false_eq_true, and_self, if_true, if_false]
  · simp only [hsrst, habort, hstart, hb, Bool.false_eq_true, false_and, if_true, if_false]
  · simp only [hsrst, hstart, hi, Bool.false_eq_true, reduceCtorEq, and_false, if_true, if_false]
    rfl
  · rcases h with habort | hi
    · simp only [hsrst, habort, hstart, Bool.false_eq_true, false_and, if_false]
    · simp only [hsrst, hstart, hi, Bool.false_eq_true, reduceCtorEq, and_false, if_false]

/-! ## Register accesses (R103, R105) -/

section
variable {s : State} {w : Width} {o : Nat}

theorem hostAccess_read_reg {r : Reg} (ho : o < 0x10000) (h4 : o % 4 = 0) (hr : regAt (o / 4) = some r) :
    hostAccess (.read .w4 (s.cfg.devBase + o)) s = { s with response := some (.data (s.readReg r)) } := by
  rw [hostAccess_in rfl (by unfold apertureSize; omega)]
  simp only [accessAt, target_reg ho h4 hr]

theorem hostAccess_write_reg {r : Reg} (v : Word) (ho : o < 0x10000) (h4 : o % 4 = 0) (hr : regAt (o / 4) = some r) :
    hostAccess (.write .w4 (s.cfg.devBase + o) v) s = { writeReg r v s with response := some .written } := by
  rw [hostAccess_in rfl (by unfold apertureSize; omega)]
  simp only [accessAt, target_reg ho h4 hr]

theorem hostAccess_read_illegal (ho : o < 0x10000) (h : target s w o = .illegal) :
    hostAccess (.read w (s.cfg.devBase + o)) s = { s with response := some .busError } := by
  rw [hostAccess_in rfl (by unfold apertureSize; omega)]
  simp only [accessAt, h]

theorem hostAccess_write_illegal (v : Word) (ho : o < 0x10000) (h : target s w o = .illegal) :
    hostAccess (.write w (s.cfg.devBase + o) v) s = { s with response := some .busError } := by
  rw [hostAccess_in rfl (by unfold apertureSize; omega)]
  simp only [accessAt, h]

end

/-- The aligned offsets R40 maps. -/
theorem regAt_isSome_iff {o : Nat} (h4 : o % 4 = 0) : (regAt (o / 4)).isSome ↔ o < 0x3C ∨ 0x40 ≤ o ∧ o < 0xC0 := by
  rw [regAt_isSome, decide_eq_true_iff]
  omega

/-- Settles O56: by whether the access is 4 bytes wide, aligned and at a mapped offset. -/
theorem registerSpace : Obligations.RegisterSpace := by
  refine ⟨⟨by decide, by decide, by decide⟩, fun s w o v ho => ⟨?_, fun h => ?_⟩⟩
  · rintro ⟨rfl, h4, hmap⟩
    obtain ⟨r, hr⟩ := Option.isSome_iff_exists.1 ((regAt_isSome_iff h4).2 hmap)
    exact ⟨r, hr, hostAccess_read_reg ho h4 hr, hostAccess_write_reg v ho h4 hr⟩
  · have hill : target s w o = .illegal :=
      target_illegal ho fun ⟨hw, h4, hr⟩ => h ⟨hw, h4, (regAt_isSome_iff h4).1 hr⟩
    exact ⟨hostAccess_read_illegal ho hill, hostAccess_write_illegal v ho hill⟩

/-- Settles O54: the access reaches its register, which drops the write. -/
theorem busyDropsWrites : Obligations.BusyDropsWrites := by
  intro s o v r hb ho h4 hr
  refine ⟨fun h1 h2 => ?_, hostAccess_read_reg ho h4 hr⟩
  rw [hostAccess_write_reg v ho h4 hr, writeReg_busy hb v h1 h2]

/-! ## Accepted register writes -/

/-- A byte of a window with a word replaced, by the bits of the value (R56, R102). -/
theorem setWord_byte {n : Nat} (x : Bytes n) {i : Nat} (v : Word) (h : 4 * i + 4 ≤ n) (j : Nat) :
    (x.setWord i v).byte j
      = if 4 * i ≤ j ∧ j < 4 * i + 4 then v.extractLsb' (8 * (j - 4 * i)) 8 else x.byte j := by
  rw [Bytes.byte_setWord x v h, lane_eq]

/-- Settles O55: an accepted write is the register's store. -/
theorem keyWritesInvalidate : Obligations.KeyWritesInvalidate := fun s v hi =>
  ⟨writeReg_idle hi v (by decide) (by decide), fun i h => ⟨s.key.setWord i v, writeReg_idle hi v (by simp) (by simp),
    fun j _ => setWord_byte s.key v (by omega) j⟩⟩

/-- RXTLEN keeps the low 8 bits of what is written (R50). -/
theorem rxtlen_readBack (v : Word) : (v.setWidth 8).setWidth 32 = v &&& 0xFF#32 := by
  apply BitVec.eq_of_toNat_eq
  have hmask : v.toNat &&& 255 % 2 ^ 32 = v.toNat % 2 ^ 8 := Nat.and_two_pow_sub_one_eq_mod v.toNat 8
  simp only [BitVec.toNat_setWidth, BitVec.toNat_and, BitVec.toNat_ofNat, hmask]
  omega

/-- Settles O57: an accepted write is the register's store. -/
theorem registersReadBack : Obligations.RegistersReadBack := by
  intro s v hi
  have hstore (r : Reg) (h1 : r ≠ .ctrl) (h2 : r ≠ .status) : writeReg r v s = storeReg r v s :=
    writeReg_idle hi v h1 h2
  have hwindow (x : Block) {i j : Nat} (h : i < 4) := Bytes.word_setWord x v (i := i) (j := j) (by omega)
  have hbyte (x : Block) {i : Nat} (h : i < 4) := setWord_byte x v (i := i) (by omega)
  simp (disch := simp) only [hstore]
  refine ⟨⟨rfl, rfl, rfl, rfl, rfl, rfl, rfl, rfl, ?_⟩, fun i h => ⟨⟨_, rfl, fun j _ => hbyte s.tag h j⟩,
      ⟨_, rfl, fun j _ => hbyte s.gfa h j⟩, _, rfl, fun j _ => hbyte s.gfb h j⟩, ?_, rxtlen_readBack v,
    fun i h j _ => ⟨hwindow s.tag h, hwindow s.gfa h, hwindow s.gfb h⟩, fun _ _ => rfl,
    fun _ => ⟨rfl, rfl, rfl, rfl⟩⟩
  · rw [← BitVec.setWidth_eq_extractLsb' (by decide)]
    rfl
  · simp (disch := decide) only [List.forall_mem_cons, hstore]
    exact ⟨rfl, rfl, rfl, rfl, rfl, rfl, rfl, rfl, rfl, fun _ h => absurd h List.not_mem_nil⟩

/-! ## Reset -/

theorem readReg_hardReset (s : State) (r : Reg) :
    (hardReset s).readReg r = match r with | .id => 0x4145534D | .version => 1 | _ => 0 := by
  cases r with
  | tag | gfa | gfb | gfr => exact Bytes.zero_word ..
  | _ => rfl

/-- Settles O49: every register but ID and VERSION is 0 after a reset. -/
theorem hardResetState : Obligations.HardResetState := fun s =>
  ⟨readReg_hardReset s, rfl, rfl, rfl, rfl, rfl, fun r => by cases r <;> rfl⟩

/-! ## What the host can read -/

/-- A read's answer depends on the parameters, SEQ, MSG and what the registers show, and on nothing else. -/
theorem hostAccess_read_response_congr {s s' : State} (hcfg : s'.cfg = s.cfg) (hseq : s'.seq = s.seq)
    (hmsg : s'.msg = s.msg) (hdraw : s'.msgDraw = s.msgDraw) (hreg : ∀ r, s'.readReg r = s.readReg r)
    (w : Width) (addr : Nat) :
    (hostAccess (.read w addr) s').response = (hostAccess (.read w addr) s).response := by
  have hsize : s'.msgSize = s.msgSize := by rw [State.msgSize, hcfg, State.msgSize]
  have htarget (o : Nat) : target s' w o = target s w o := by rw [target, hsize, target]
  have hword (a n : Nat) : s'.msgWord a n = s.msgWord a n := by
    simp only [State.msgWord, State.memRead_congr hmsg hdraw]
  simp only [hostAccess, accessAt, hcfg, htarget, hseq]
  split
  · cases target s w ((Access.read w addr).addr - s.cfg.devBase) with
    | reg r => simp only [hreg]
    | msg a => cases s.seq <;> simp only [hword, reduceCtorEq, if_true, if_false]
    | illegal => rfl
  · rfl

/-- Of the key context and the stream the registers show what R63 names. -/
theorem readReg_hidden (s : State) (key : Bytes 64) (kc : KeyContext) (sreg ks : Block) (fresh : Bool)
    (h : kc.valid = s.kc.valid) (r : Reg) :
    { s with key := key, kc := kc, st := { s.st with sreg := sreg, ks := ks, fresh := fresh } }.readReg r
      = s.readReg r := by
  cases r with
  | status => simp only [State.readReg, State.statusWord, State.smodeView, State.sposView, h]
  | _ => rfl

/-- Settles O59: no register shows what the two states differ in. -/
theorem keysUnreadable : Obligations.KeysUnreadable := by
  intro s key kc sreg ks fresh w addr h
  refine hostAccess_read_response_congr ?_ ?_ ?_ ?_ (readReg_hidden s key kc sreg ks fresh h) w addr <;> rfl

end Sys2Proof.Machine
end

section
/-! The MSG window on the host bus (R102, R104, R105). -/

namespace Sys2Proof.Machine

/-! ## What an access does, by what it addresses -/

section
variable {s : State} {w : Width} {o a d : Nat}

theorem accessAt_illegal (v : Word) (h : target s w o = .illegal) :
    accessAt (.write w d v) o s = (s, .busError) ∧ accessAt (.read w d) o s = (s, .busError) := by
  simp only [accessAt, h, and_self]

theorem accessAt_msg_busy (v : Word) (h : target s w o = .msg a) (hb : s.seq = .busy) :
    accessAt (.write w d v) o s = ({ s with busyerr := true }, .busError)
      ∧ accessAt (.read w d) o s = ({ s with busyerr := true }, .busError) := by
  simp only [accessAt, h, hb, if_true, and_self]

theorem accessAt_msg_idle (v : Word) (h : target s w o = .msg a) (hi : s.seq = .idle) :
    accessAt (.write w d v) o s = (s.memWrite a (laneBytes v w.bytes), .written)
      ∧ accessAt (.read w d) o s = (s, .data (s.msgWord a w.bytes)) := by
  simp only [accessAt, h, hi, reduceCtorEq, if_false, and_self]

end

/-! ## The bytes moved -/

theorem Width.bytes_le (w : Width) : w.bytes ≤ 4 := by cases w <;> decide

/-- An access moves the low `n` lanes, and no other byte of MSG changes (R102). -/
theorem msgByte_memWrite_laneBytes (s : State) (a n : Nat) (v : Word) (b : Nat) :
    (s.memWrite a (laneBytes v n)).msgByte b
      = if a ≤ b ∧ b < a + n then v.extractLsb' (8 * (b - a)) 8 else s.msgByte b := by
  have hstores : Safety.Stores s (s.memWrite a (laneBytes v n)) a (laneBytes v n) := msgByte_of_msg rfl rfl
  have hlen : (laneBytes v n).length = n := leBytes_length n v.toNat
  rw [hstores b, hlen]
  split
  · exact laneBytes_getD v (by omega)
  · rfl

/-! ## Accesses to the window -/

section
variable {s : State} {w : Width} {a : Nat}

theorem hostAccess_msgWindow {x : Access} (hx : x.addr = s.cfg.devBase + 0x10000 + a) (ha : a < 0x10000) :
    hostAccess x s = { (accessAt x (msgWindow + a) s).1 with response := some (accessAt x (msgWindow + a) s).2 } :=
  hostAccess_in (hx.trans (Nat.add_assoc ..)) (by unfold msgWindow apertureSize; omega)

theorem target_msg_legal (h : a % w.bytes = 0) (hm : a < s.msgSize) : target s w (msgWindow + a) = .msg a :=
  target_msg.trans (if_pos ⟨h, hm⟩)

theorem target_msg_illegal (h : ¬ (a % w.bytes = 0 ∧ a < s.msgSize)) : target s w (msgWindow + a) = .illegal :=
  target_msg.trans (if_neg h)

end

/-- Settles O58: by whether the access is aligned and below MSG_SIZE, and then by SEQ. -/
theorem messageWindow : Obligations.MessageWindow := by
  intro s w a v ha n addr
  have hn : n = w.bytes := by cases w <;> rfl
  have hwrite := hostAccess_msgWindow (x := .write w addr v) rfl ha
  have hread := hostAccess_msgWindow (x := .read w addr) rfl ha
  rw [hwrite, hread, hn]
  refine ⟨fun hal hm hi => ?_, fun hal hm hb => ?_, fun hill => ?_⟩
  · obtain ⟨hw, hr⟩ := accessAt_msg_idle v (target_msg_legal hal hm) hi
    rw [hw, hr]
    exact ⟨⟨_, rfl, msgByte_memWrite_laneBytes s a w.bytes v⟩,
      _, rfl, fun j hj => msgWord_lane s a w.bytes j w.bytes_le hj⟩
  · obtain ⟨hw, hr⟩ := accessAt_msg_busy v (target_msg_legal hal hm) hb
    rw [hw, hr]
    exact ⟨rfl, rfl⟩
  · obtain ⟨hw, hr⟩ := accessAt_illegal v (target_msg_illegal hill)
    rw [hw, hr]
    exact ⟨rfl, rfl⟩

end Sys2Proof.Machine
end

section
/-! The command word: the decoder and the encoder undo each other, and what becomes of a word that is no command
(R140, R145, R150–R152, R161). -/

namespace Sys2Proof

/-- A word decodes to a command exactly when it has no reserved bit set and holds the command's opcode and fields. -/
theorem decodeWord_eq_ok_iff {w : Word} {i : Instr} :
    decodeWord w = .ok i ↔ reservedSet w = false ∧ i.opcode = bitField w 0 6 ∧ i.fields = wordFields w := by
  refine ⟨decodeWord_ok, fun ⟨hres, hop, hfields⟩ => ?_⟩
  have hi := instrOfOp_of_opcode i
  rw [hop, hfields] at hi
  simp only [decodeWord, hres, hi, Bool.false_eq_true, if_false]

/-- Settles O1: the encoded word has no reserved bit set and holds the opcode and the fields. -/
theorem decodeEncode : Obligations.DecodeEncode := fun i hwf => by
  obtain ⟨hres, hop, hfields⟩ := encode_fields hwf
  exact decodeWord_eq_ok_iff.2 ⟨hres, hop.symm, hfields.symm⟩

theorem wordFields_wf (w : Word) : (wordFields w).wf = true := by
  have htlen : bitField w 8 5 < 2 ^ 5 := Nat.mod_lt _ (by decide)
  have hparam : bitField w 16 4 < 2 ^ 4 := Nat.mod_lt _ (by decide)
  exact Bool.and_eq_true_iff.2 ⟨decide_eq_true (Nat.le_of_lt_succ htlen), decide_eq_true (Nat.le_of_lt_succ hparam)⟩

theorem cont_toNat (w : Word) : (if (wordFields w).cont then 1 else 0) = bitField w 20 1 := by
  have hbit : bitField w 20 1 < 2 := Nat.mod_lt _ (by decide)
  simp only [wordFields, beq_iff_eq]
  split <;> omega

/-- A word without reserved bits is the union of OP, TLEN, PARAM and CONT. -/
theorem toNat_eq_of_not_reserved {w : Word} (h : reservedSet w = false) :
    bitField w 0 6 + 2 ^ 8 * bitField w 8 5 + 2 ^ 16 * bitField w 16 4 + 2 ^ 20 * bitField w 20 1 = w.toNat := by
  simp only [reservedSet, bitField, Bool.or_eq_false_iff, bne_eq_false_iff_eq] at h ⊢
  omega

/-- Settles O2: what decodes has no reserved bit, so the opcode and the fields make up the whole word. -/
theorem encodeDecode : Obligations.EncodeDecode := fun w i h => by
  obtain ⟨hres, hop, hfields⟩ := decodeWord_ok h
  refine ⟨by rw [Instr.wf, hfields, wordFields_wf], ?_⟩
  rw [encode, hop, hfields, cont_toNat]
  exact (congrArg (BitVec.ofNat 32) (toNat_eq_of_not_reserved hres)).trans ((w.ofNat_toNat 32).trans w.setWidth_eq)

theorem wordFields_eq_extractLsb' (w : Word) :
    wordFields w = ⟨(w.extractLsb' 8 5).toNat, (w.extractLsb' 16 4).toNat, w.getLsbD 20⟩ := by
  simp only [wordFields, bitField, BitVec.extractLsb'_toNat, Nat.shiftRight_eq_div_pow, BitVec.getLsbD,
    Nat.testBit_eq_decide_div_mod_eq, Fields.mk.injEq, true_and]
  rfl

/-- A word decodes to a command of a row of R150 exactly when the mask of R150 leaves the row's opcode. -/
theorem decodeWord_eq_ok_iff_mask {w : Word} {i : Instr} (hfields : i.fields = wordFields w) :
    decodeWord w = .ok i ↔ w &&& 0xFFE0E0FF#32 = BitVec.ofNat 32 i.opcode := by
  have hop : i.opcode < 64 := (opcode_lt i).trans (by decide)
  rw [decodeWord_eq_ok_iff, mask_eq_iff w hop, eq_comm (a := i.opcode)]
  exact ⟨fun ⟨hres, hop, _⟩ => ⟨hres, hop⟩, fun ⟨hres, hop⟩ => ⟨hres, hop, hfields⟩⟩

/-- Settles O3: each row pairs a command's opcode with its constructor, and the mask keeps OP and the reserved bits. -/
theorem wordSelectsCommand : Obligations.WordSelectsCommand := by
  intro w op c hrow
  rw [← wordFields_eq_extractLsb']
  have hc : (c (wordFields w)).opcode = op ∧ (c (wordFields w)).fields = wordFields w := by
    fin_cases hrow <;> exact ⟨rfl, rfl⟩
  obtain ⟨hop, hfields⟩ := hc
  rw [decodeWord_eq_ok_iff_mask hfields, hop]

/-- A word with a reserved bit set, or with an opcode above those of the 32 commands, is no command. -/
theorem decodeWord_ne_ok {w : Word} (h : reservedSet w = true ∨ 0x20 ≤ bitField w 0 6) (i : Instr) :
    decodeWord w ≠ .ok i := by
  intro hd
  obtain ⟨hres, hop, _⟩ := decodeWord_ok hd
  have hlt := opcode_lt i
  rcases h with h | h
  · simp [hres] at h
  · omega

namespace Machine

/-- Settles O4: such a word does not decode, and decoding comes before every other check. -/
theorem badWordsEndInBadop : Obligations.BadWordsEndInBadop := by
  intro s h
  rw [← reservedSet_iff, op_toNat] at h
  unfold complete
  cases hd : decodeWord s.cl.cmd with
  | error e => rfl
  | ok i => exact absurd hd (decodeWord_ne_ok h i)

end Machine

/-- Settles O5, by running the decoder on the ten words. -/
theorem writtenWordsDecode : Obligations.WrittenWordsDecode := by
  unfold Obligations.WrittenWordsDecode
  decide

end Sys2Proof
end

section
/-! What a command does not use has no effect: the latched registers R147 does not list for it, and the fields of its
word R146 has it ignore (R146–R149). -/

namespace Sys2Proof.Machine

open Sys2Proof.Safety

/-! ## Latched operands -/

/-- The state with another command latch. -/
def State.withLatch (s : State) (l : Latch) : State := { s with cl := l }

/-- Two latches hold the same in every register the command uses (R147, R148). -/
structure SameOperands (i : Instr) (l l' : Latch) : Prop where
  keylen : (∃ f, i = .keyinit f) → l'.keylen = l.keylen
  source : usesSource i = true → l'.srcPtr = l.srcPtr ∧ l'.srcLen = l.srcLen
  dest : (∃ u, outLength i u ≠ 0) → l'.dstPtr = l.dstPtr
  aad : isAead i = true → l'.aadPtr = l.aadPtr ∧ l'.aadLen = l.aadLen
  nonce : usesNonceRegion i = true → l'.noncePtr = l.noncePtr ∧ l'.nonceLen = l.nonceLen
  gf : isGf i = true → l'.gfa = l.gfa ∧ l'.gfb = l.gfb
  tag : comparesTag i = true → l'.rxtlen = l.rxtlen ∧ l'.tag = l.tag

@[simp] theorem withLatch_cl (s : State) (l : Latch) : (s.withLatch l).cl = l := rfl
@[simp] theorem withLatch_st (s : State) (l : Latch) : (s.withLatch l).st = s.st := rfl
@[simp] theorem withLatch_draws (s : State) (l : Latch) : (s.withLatch l).draws = s.draws := rfl
@[simp] theorem withLatch_kc (s : State) (l : Latch) : (s.withLatch l).kc = s.kc := rfl
@[simp] theorem withLatch_msgSize (s : State) (l : Latch) : (s.withLatch l).msgSize = s.msgSize := rfl
@[simp] theorem withLatch_regionBytes (s : State) (l : Latch) : (s.withLatch l).regionBytes = s.regionBytes := rfl

section
variable {i : Instr} {s : State} {l : Latch}

/-! ### Regions -/

theorem withLatch_srcRegion (h : SameOperands i s.cl l) (hi : usesSource i = true) :
    (s.withLatch l).srcRegion = s.srcRegion := by
  obtain ⟨hptr, hlen⟩ := h.source hi
  simp only [State.srcRegion, withLatch_cl, hptr, hlen]

theorem withLatch_aadRegion (h : SameOperands i s.cl l) (hi : isAead i = true) :
    (s.withLatch l).aadRegion = s.aadRegion := by
  obtain ⟨hptr, hlen⟩ := h.aad hi
  simp only [State.aadRegion, withLatch_cl, hptr, hlen]

theorem withLatch_nonceRegion (h : SameOperands i s.cl l) (hi : usesNonceRegion i = true) :
    (s.withLatch l).nonceRegion = s.nonceRegion := by
  obtain ⟨hptr, hlen⟩ := h.nonce hi
  simp only [State.nonceRegion, withLatch_cl, hptr, hlen]

theorem withLatch_src (h : SameOperands i s.cl l) (hi : usesSource i = true) : (s.withLatch l).src = s.src := by
  simp only [State.src, withLatch_regionBytes, withLatch_srcRegion h hi]

theorem withLatch_aad (h : SameOperands i s.cl l) (hi : isAead i = true) : (s.withLatch l).aad = s.aad := by
  simp only [State.aad, withLatch_regionBytes, withLatch_aadRegion h hi]

theorem withLatch_nonce (h : SameOperands i s.cl l) (hi : usesNonceRegion i = true) :
    (s.withLatch l).nonce = s.nonce := by
  simp only [State.nonce, withLatch_regionBytes, withLatch_nonceRegion h hi]

/-- A command without a source writes nothing to MSG. -/
theorem outlen_of_no_source (hi : usesSource i = false) (u : State) : outlen i u = 0 := by
  cases i <;> first | rfl | cases hi

theorem withLatch_outlen (h : SameOperands i s.cl l) : outlen i (s.withLatch l) = outlen i s := by
  cases hi : usesSource i with
  | false => rw [outlen_of_no_source hi, outlen_of_no_source hi]
  | true =>
    obtain ⟨_, hlen⟩ := h.source hi
    simp only [outlen, withLatch_cl, hlen]

theorem dstPtr_eq_of_output (h : SameOperands i s.cl l) (h0 : outlen i s ≠ 0) : l.dstPtr = s.cl.dstPtr :=
  h.dest ⟨s, by rwa [← outlen_eq]⟩

theorem withLatch_dstRegion (h : SameOperands i s.cl l) (h0 : outlen i s ≠ 0) :
    dstRegion i (s.withLatch l) = dstRegion i s := by
  simp only [dstRegion, withLatch_outlen h, withLatch_cl, dstPtr_eq_of_output h h0]

/-! ### The checks -/

theorem withLatch_keylenFails (h : SameOperands i s.cl l) : keylenFails i (s.withLatch l) = keylenFails i s := by
  cases i
  case keyinit f => simp only [keylenFails, withLatch_cl, h.keylen ⟨f, rfl⟩, withLatch_kc]
  all_goals rfl

theorem failsNonce_of_no_nonce (hi : usesNonceRegion i = false) (u : State) : failsNonce i u = false := by
  cases i <;> simp_all [usesNonceRegion, isAead, isStream, failsNonce]

theorem withLatch_nonceFails (h : SameOperands i s.cl l) : nonceFails i (s.withLatch l) = nonceFails i s := by
  rw [nonceFails_eq, nonceFails_eq]
  cases hi : usesNonceRegion i with
  | false => rw [failsNonce_of_no_nonce hi, failsNonce_of_no_nonce hi]
  | true =>
    obtain ⟨_, hlen⟩ := h.nonce hi
    simp only [failsNonce, withLatch_cl, hlen]

theorem lenFails_of_no_source (hi : usesSource i = false) (u : State) : lenFails i u = false := by
  cases i <;> first | rfl | cases hi

theorem withLatch_lenFails (h : SameOperands i s.cl l) : lenFails i (s.withLatch l) = lenFails i s := by
  cases hi : usesSource i with
  | false => rw [lenFails_of_no_source hi, lenFails_of_no_source hi]
  | true =>
    obtain ⟨_, hlen⟩ := h.source hi
    simp only [lenFails, withLatch_cl, hlen]

theorem and_eq_and_of_imp : ∀ {b x y : Bool}, (b = true → x = y) → (b && x) = (b && y) := by decide

theorem inRange_of_len_zero {r : Region} (h0 : r.len = 0) (size : Nat) : r.inRange size = true := by
  simp [Region.inRange, h0]

theorem withLatch_rangeFails (h : SameOperands i s.cl l) : rangeFails i (s.withLatch l) = rangeFails i s := by
  have hsrc : (usesSource i && !(s.withLatch l).srcRegion.inRange s.msgSize)
      = (usesSource i && !s.srcRegion.inRange s.msgSize) :=
    and_eq_and_of_imp fun hi => by rw [withLatch_srcRegion h hi]
  have haad : (isAead i && !(s.withLatch l).aadRegion.inRange s.msgSize)
      = (isAead i && !s.aadRegion.inRange s.msgSize) :=
    and_eq_and_of_imp fun hi => by rw [withLatch_aadRegion h hi]
  have hnonce : (usesNonceRegion i && !(s.withLatch l).nonceRegion.inRange s.msgSize)
      = (usesNonceRegion i && !s.nonceRegion.inRange s.msgSize) :=
    and_eq_and_of_imp fun hi => by rw [withLatch_nonceRegion h hi]
  have hdst : (dstRegion i (s.withLatch l)).inRange s.msgSize = (dstRegion i s).inRange s.msgSize := by
    by_cases h0 : outlen i s = 0
    · rw [inRange_of_len_zero ((withLatch_outlen h).trans h0), inRange_of_len_zero h0]
    · rw [withLatch_dstRegion h h0]
  simp only [rangeFails, profile_src_eq, profile_aad_eq, usesNonce_eq, withLatch_msgSize, hsrc, haad, hnonce, hdst]

theorem overlapFails_of_no_output (h0 : outlen i s = 0) : overlapFails i s = false := by
  simp [overlapFails, Region.overlaps, dstRegion, h0]

theorem withLatch_overlapFails (h : SameOperands i s.cl l) : overlapFails i (s.withLatch l) = overlapFails i s := by
  by_cases h0 : outlen i s = 0
  · rw [overlapFails_of_no_output h0, overlapFails_of_no_output ((withLatch_outlen h).trans h0)]
  have haad : (isAead i && (dstRegion i s).overlaps (s.withLatch l).aadRegion)
      = (isAead i && (dstRegion i s).overlaps s.aadRegion) :=
    and_eq_and_of_imp fun hi => by rw [withLatch_aadRegion h hi]
  have hnonce : (usesNonceRegion i && (dstRegion i s).overlaps (s.withLatch l).nonceRegion)
      = (usesNonceRegion i && (dstRegion i s).overlaps s.nonceRegion) :=
    and_eq_and_of_imp fun hi => by rw [withLatch_nonceRegion h hi]
  have hi : usesSource i = true := by
    by_contra hi
    exact h0 (outlen_of_no_source (Bool.not_eq_true _ ▸ hi) s)
  simp only [overlapFails, profile_src_eq, profile_aad_eq, usesNonce_eq, withLatch_dstRegion h h0, haad, hnonce,
    withLatch_srcRegion h hi]

theorem withLatch_check (h : SameOperands i s.cl l) : check i (s.withLatch l) = check i s := by
  have hkey : nokeyFails i (s.withLatch l) = nokeyFails i s := rfl
  have hstate : stateFails i (s.withLatch l) = stateFails i s := rfl
  simp only [check, hkey, withLatch_keylenFails h, hstate, withLatch_nonceFails h, withLatch_lenFails h,
    withLatch_rangeFails h, withLatch_overlapFails h]

/-! ### The ends of a command -/

theorem withLatch_write_dest (h : SameOperands i s.cl l) (out : List Byte) :
    (if 0 < outlen i s then Memory.writeBytes s.msg l.dstPtr.toNat out else s.msg)
      = if 0 < outlen i s then Memory.writeBytes s.msg s.cl.dstPtr.toNat out else s.msg := by
  split
  · next hpos => rw [dstPtr_eq_of_output h hpos.ne']
  · rfl

theorem withLatch_commit (h : SameOperands i s.cl l) (out : List Byte) (tag : Option (List Byte)) (gfr : Option Block) :
    commit i out tag gfr (s.withLatch l) = (commit i out tag gfr s).withLatch l := by
  unfold commit
  rw [withLatch_outlen h]
  exact congrArg (fun m => { (commit i out tag gfr s).withLatch l with msg := m }) (withLatch_write_dest h out)

theorem withLatch_authFail (h : SameOperands i s.cl l) : authFail i (s.withLatch l) = (authFail i s).withLatch l := by
  unfold authFail msgZeroed
  rw [withLatch_outlen h]
  exact congrArg (fun m => { (authFail i s).withLatch l with msg := m }) (withLatch_write_dest h _)

theorem withLatch_commitStream (h : SameOperands i s.cl l) (S : Stream) (out : List Byte) :
    commitStream i S out (s.withLatch l) = (commitStream i S out s).withLatch l :=
  withLatch_commit (s := { s with
    st := { S with valid := true }, draws := if i.fields.cont then s.draws else s.draws + 1 }) h out none none

theorem withLatch_endVerify (h : SameOperands i s.cl l) (hi : comparesTag i = true) (T : Block) :
    endVerify i T (s.withLatch l) = (endVerify i T s).withLatch l := by
  obtain ⟨hrxtlen, htag⟩ := h.tag hi
  have hv : macVerified T (s.withLatch l) = macVerified T s := by
    simp only [macVerified, withLatch_cl, hrxtlen, htag]
  rw [endVerify, endVerify, hv, withLatch_commit h, withLatch_authFail h, apply_ite (State.withLatch · l)]

theorem withLatch_endDecrypt (h : SameOperands i s.cl l) (hi : comparesTag i = true) (P T : List Byte) :
    endDecrypt i P T (s.withLatch l) = (endDecrypt i P T s).withLatch l := by
  obtain ⟨hrxtlen, htag⟩ := h.tag hi
  simp only [endDecrypt, withLatch_cl, hrxtlen, htag, withLatch_commit h, withLatch_authFail h,
    apply_ite (State.withLatch · l)]

/-- A new stream takes its IV from the nonce region, a continued one nothing (R230). -/
theorem withLatch_streamStart (h : SameOperands i s.cl l) (hi : isStream i = true) {f : Fields} (hf : i.fields = f)
    (fam : Family) : streamStart fam f (s.withLatch l) = streamStart fam f s := by
  cases hc : f.cont with
  | false =>
    have hu : usesNonceRegion i = true := by cases i <;> simp_all [usesNonceRegion, isStream]
    simp only [streamStart, withLatch_nonce h hu, withLatch_st, withLatch_draws]
  | true => simp only [streamStart, hc, withLatch_st, if_true]

/-! ### Every command -/

/-- A command answers the same, but for the latch itself, under a latch that agrees on the registers it uses: its checks
and its end take nothing else from the latch. -/
theorem exec_withLatch (h : SameOperands i s.cl l) :
    exec i (s.withLatch l) = mapNext (State.withLatch · l) (exec i s) := by
  have hc := withLatch_check h
  have hsrc := withLatch_src h
  have haad := withLatch_aad h
  have hnonce := withLatch_nonce h
  have hstart := withLatch_streamStart h
  have hgf := h.gf
  cases i <;> refine runChecked_mapNext _ hc (fun _ => rfl) ?_
  case nop => exact withLatch_commit h _ _ _
  case keyinit f =>
    rw [withLatch_cl, h.keylen ⟨f, rfl⟩]
    cases KeyLen.ofNat? s.cl.keylen.toNat with
    | none => rfl
    | some kl => exact withLatch_commit (s := keyinitState kl s) h _ _ _
  case ecbEnc | ecbDec | cmacGen | kwWrap => rw [hsrc rfl]; exact withLatch_commit h _ _ _
  case cbcEnc f | cbcDec f | ctr f | ofb f => rw [hsrc rfl, hstart rfl (f := f) rfl]; exact withLatch_commitStream h _ _
  case cfbEnc f | cfbDec f => rw [cfbRun, hsrc rfl, hstart rfl (f := f) rfl]; exact withLatch_commitStream h _ _
  case cbcmacGen => rw [State.cbcmacSrc, hsrc rfl]; exact withLatch_commit h _ _ _
  case cbcmacVer => rw [State.cbcmacSrc, hsrc rfl]; exact withLatch_endVerify h rfl _
  case cmacVer => rw [hsrc rfl]; exact withLatch_endVerify h rfl _
  case gcmEnc => rw [State.gctrSrc, State.j0, hnonce rfl, haad rfl, hsrc rfl]; exact withLatch_commit h _ _ _
  case gcmDec => rw [State.gctrSrc, State.j0, hnonce rfl, haad rfl, hsrc rfl]; exact withLatch_endDecrypt h rfl _ _
  case ccmEnc => rw [hnonce rfl, haad rfl, hsrc rfl]; exact withLatch_commit h _ _ _
  case ccmDec => rw [hnonce rfl, haad rfl, hsrc rfl]; exact withLatch_endDecrypt h rfl _ _
  case eaxEnc => rw [State.eaxCrypt, State.eaxTag, hnonce rfl, haad rfl, hsrc rfl]; exact withLatch_commit h _ _ _
  case eaxDec =>
    rw [State.eaxCrypt, State.eaxTag, hnonce rfl, haad rfl, hsrc rfl]
    exact withLatch_endDecrypt h rfl _ _
  case ocbEnc => rw [State.ocb, hnonce rfl, haad rfl, hsrc rfl]; exact withLatch_commit h _ _ _
  case ocbDec => rw [State.ocb, hnonce rfl, haad rfl, hsrc rfl]; exact withLatch_endDecrypt h rfl _ _
  case xtsEnc | xtsDec => rw [State.xtsT0, hnonce rfl, hsrc rfl]; exact withLatch_commit h _ _ _
  case kwUnwrap =>
    rw [hsrc rfl, withLatch_commit h, withLatch_authFail h]
    exact (apply_ite (State.withLatch · l) _ _ _).symm
  case ghash | polyval => rw [withLatch_cl, (hgf rfl).1, (hgf rfl).2, hsrc rfl]; exact withLatch_commit h _ _ _
  case gfmulG | gfmulP => rw [withLatch_cl, (hgf rfl).1, (hgf rfl).2]; exact withLatch_commit h _ _ _
  case gfdblBe | gfdblLe => rw [withLatch_cl, (hgf rfl).1]; exact withLatch_commit h _ _ _

theorem mapNext_congr {g g' : State → State} {o : Result} (h : ∀ t, o = .next t → g t = g' t) :
    mapNext g o = mapNext g' o := by
  cases o with
  | next t => exact congrArg Host.Outcome.next (h t rfl)
  | fault r => rfl
  | refused r => rfl

theorem exec_cl {t : State} (hx : exec i s = .next t) : t.cl = s.cl := by rw [exec_writes_only hx]

/-- A change of the latch that keeps the registers the command uses, made before the command or after it. -/
theorem exec_modifyLatch (g : Latch → Latch) (h : SameOperands i s.cl (g s.cl)) :
    exec i { s with cl := g s.cl } = mapNext (fun t => { t with cl := g t.cl }) (exec i s) := by
  refine (exec_withLatch h).trans (mapNext_congr fun t hx => ?_)
  rw [exec_cl hx]; rfl

end

theorem SameOperands.refl (i : Instr) (l : Latch) : SameOperands i l l :=
  ⟨fun _ => rfl, fun _ => ⟨rfl, rfl⟩, fun _ => rfl, fun _ => ⟨rfl, rfl⟩, fun _ => ⟨rfl, rfl⟩, fun _ => ⟨rfl, rfl⟩,
    fun _ => ⟨rfl, rfl⟩⟩

/-! ## Fields of the word -/

/-- Neither the checks nor the end of such a command look at a field of its word (R146). -/
theorem exec_ignores_fields : ∀ c ∈ [Instr.nop, .keyinit, .ecbEnc, .ecbDec, .cbcmacVer, .cmacVer, .xtsEnc, .xtsDec,
    .kwWrap, .kwUnwrap, .ghash, .polyval, .gfmulG, .gfmulP, .gfdblBe, .gfdblLe], ∀ f g s,
    exec (c f) s = exec (c g) s := by
  intro c hc f g s
  fin_cases hc <;> rfl

theorem exec_uses_cont_only : ∀ c ∈ [Instr.cbcEnc, .cbcDec, .ctr, .ofb], ∀ f g s, f.cont = g.cont →
    exec (c f) s = exec (c g) s := by
  rintro c hc ⟨t, p, x⟩ ⟨t', p', _⟩ s rfl
  fin_cases hc <;> rfl

theorem exec_uses_cont_param_only : ∀ c ∈ [Instr.cfbEnc, .cfbDec], ∀ f g s, f.cont = g.cont → f.param = g.param →
    exec (c f) s = exec (c g) s := by
  rintro c hc ⟨t, p, x⟩ ⟨t', _, _⟩ s rfl rfl
  fin_cases hc <;> rfl

theorem exec_uses_tlen_only : ∀ c ∈ [Instr.cbcmacGen, .cmacGen, .gcmEnc, .gcmDec, .eaxEnc, .eaxDec, .ocbEnc, .ocbDec],
    ∀ f g s, f.tlen = g.tlen → exec (c f) s = exec (c g) s := by
  rintro c hc ⟨t, p, x⟩ ⟨_, p', x'⟩ s rfl
  fin_cases hc <;> rfl

theorem exec_uses_tlen_param_only : ∀ c ∈ [Instr.ccmEnc, .ccmDec], ∀ f g s, f.tlen = g.tlen → f.param = g.param →
    exec (c f) s = exec (c g) s := by
  rintro c hc ⟨t, p, x⟩ ⟨_, _, x'⟩ s rfl rfl
  fin_cases hc <;> rfl

/-- Settles O14: each change of an unused register keeps the operands; and a command's rule does not name the fields it
ignores. -/
theorem unusedOperandsIgnored : Obligations.UnusedOperandsIgnored := by
  refine ⟨fun i s p n r x => ?_, exec_ignores_fields, exec_uses_cont_only, exec_uses_cont_param_only,
    exec_uses_tlen_only, exec_uses_tlen_param_only⟩
  have hsame := SameOperands.refl i s.cl
  refine ⟨fun hi => ?_, fun hi => ?_, fun hi => ?_, fun hi => ?_, fun hi => ?_, fun hi => ?_, fun hi => ?_⟩
  · exact exec_modifyLatch (fun l => { l with aadPtr := p, aadLen := n })
      { hsame with aad := fun hu => absurd hu (by simp [hi]) }
  · exact exec_modifyLatch (fun l => { l with noncePtr := p, nonceLen := n })
      { hsame with nonce := fun hu => absurd hu (by simp [hi]) }
  · exact exec_modifyLatch (fun l => { l with srcPtr := p, srcLen := n })
      { hsame with source := fun hu => absurd hu (by simp [hi]) }
  · exact exec_modifyLatch (fun l => { l with dstPtr := p })
      { hsame with dest := fun ⟨u, hu⟩ => absurd (hi u) hu }
  · exact exec_modifyLatch (fun l => { l with keylen := n })
      { hsame with keylen := fun ⟨f, hf⟩ => absurd hf (hi f) }
  · exact exec_modifyLatch (fun l => { l with gfa := x, gfb := x })
      { hsame with gf := fun hu => absurd hu (by simp [hi]) }
  · exact exec_modifyLatch (fun l => { l with rxtlen := r, tag := x })
      { hsame with tag := fun hu => absurd hu (by simp [hi]) }

end Sys2Proof.Machine
end

section
/-! The control family (R189–R191), and in what a command can end (R183–R185). -/

namespace Sys2Proof.Machine

open Sys2Proof.Safety

/-! ## The outcomes of a command -/

/-- Settles O7: by the three answers a command can give. -/
theorem commandOutcomes : Obligations.CommandOutcomes := by
  intro i s
  rcases exec_answers i s with ⟨c, hc, hx⟩ | ⟨_, out, tag, gfr, u, hx, _, _, _, _⟩ | ⟨_, hi, hx⟩
  · obtain ⟨hnone, habort⟩ := firstFailure_ne i s c hc
    exact ⟨_, hx, rfl, rfl, .inr (.inr ⟨c, hnone, habort, rfl⟩)⟩
  · have hcl : u.cl = s.cl := (commit_cl ..).symm.trans (exec_cl hx)
    refine ⟨_, hx, rfl, rfl, .inl ⟨rfl, rfl, rfl, ?_⟩⟩
    rw [commit_outLen, outlen_eq, outLength_congr hcl]
  · obtain ⟨m, hx', hstores⟩ := authFail_stores hx rfl
    refine ⟨_, hx', rfl, rfl, .inr (.inl ⟨rfl, rfl, rfl, rfl, fun b hlo hhi => ?_, rfl, rfl, rfl, rfl, hi⟩)⟩
    rw [hstores b, List.length_replicate, if_pos ⟨hlo, hhi⟩, List.getD_replicate 0 (by omega)]

/-! ## NOP -/

theorem exec_nop (f : Fields) (s : State) : exec (.nop f) s = .next (committed s 0) :=
  (runChecked_pass (i := .nop f) (s := s) rfl _).trans (congrArg _ (commit_eq_committed rfl none none))

theorem ofNat_shiftLeft (b k : Nat) : BitVec.ofNat 32 b <<< k = BitVec.ofNat 32 (2 ^ k * b) := by
  apply BitVec.eq_of_toNat_eq
  simp [Nat.shiftLeft_eq, Nat.mul_comm]

/-- The union of a number and one shifted above it is their sum. -/
theorem ofNat_or_shiftLeft {a k : Nat} (h : a < 2 ^ k) (b : Nat) :
    BitVec.ofNat 32 a ||| BitVec.ofNat 32 b <<< k = BitVec.ofNat 32 (a + 2 ^ k * b) := by
  rw [ofNat_shiftLeft, ← BitVec.ofNat_or, Nat.or_comm, ← Nat.two_pow_add_eq_or_of_lt h, Nat.add_comm]

/-- STATUS after a commit, with BUSYERR 0: DONE and the views of `KC` and `ST` (R45, R63). -/
theorem committed_statusWord {s : State} (h : s.busyerr = false) (n : Nat) :
    (committed s n).statusWord = 2#32 ||| (BitVec.ofNat 32 s.kc.valid.toNat <<< 5)
      ||| (BitVec.ofNat 32 s.st.valid.toNat <<< 6) ||| (BitVec.ofNat 32 s.smodeView <<< 8)
      ||| (BitVec.ofNat 32 s.sposView <<< 16) := by
  have hkc := Bool.toNat_le s.kc.valid
  have hst := Bool.toNat_le s.st.valid
  have hsmode := s.smodeView_lt
  rw [ofNat_or_shiftLeft (by omega), ofNat_or_shiftLeft (by omega), ofNat_or_shiftLeft (by omega),
    ofNat_or_shiftLeft (by omega)]
  simp [State.statusWord, committed, h, ErrCode.code, State.smodeView, State.sposView]

/-- Settles O16: NOP has no check that can fail, and writes nothing. -/
theorem nopCompletes : Obligations.NopCompletes := fun f s => ⟨exec_nop f s, fun h => committed_statusWord h 0⟩

/-! ## KEYINIT -/

/-- KEYINIT has one check, that of KEYLEN (R505). -/
theorem firstFailure_keyinit (f : Fields) (s : State) :
    firstFailure (.keyinit f) s = if (KeyLen.ofNat? s.cl.keylen.toNat).isNone then some .keylen else none := by
  rw [← check_eq]
  rfl

theorem exec_keyinit_of_legal {f : Fields} {s : State} {kl : KeyLen} (h : KeyLen.ofNat? s.cl.keylen.toNat = some kl) :
    exec (.keyinit f) s = .next (commit (.keyinit f) [] none none (keyinitState kl s)) := by
  have hp : Passes (.keyinit f) s := by simp [Passes, firstFailure_keyinit, h]
  have hx : exec (.keyinit f) s = .next _ := runChecked_pass hp _
  simpa only [h] using hx

theorem exec_keyinit_of_illegal {f : Fields} {s : State} (h : KeyLen.ofNat? s.cl.keylen.toNat = none) :
    exec (.keyinit f) s = .next (errored s .keylen) :=
  runChecked_error (by simp [firstFailure_keyinit, h]) _

@[simp] theorem keyContextOf_valid (e : List Byte → Block → Block) (draw : Nat) (kl : KeyLen) (key : List Byte) :
    (keyContextOf e draw kl key).valid = true := by cases kl <;> rfl

@[simp] theorem keyContextOf_klen (e : List Byte → Block → Block) (draw : Nat) (kl : KeyLen) (key : List Byte) :
    (keyContextOf e draw kl key).klen = kl := by cases kl <;> rfl

theorem dblChain_length (n : Nat) (b : Block) : (dblChain n b).length = n := by
  induction n generalizing b with
  | zero => rfl
  | succ n ih => simp [dblChain, ih]

@[simp] theorem keyContextOf_l_length (e : List Byte → Block → Block) (draw : Nat) (kl : KeyLen) (key : List Byte) :
    (keyContextOf e draw kl key).l.length = 32 := by
  cases kl with
  | k64 => exact (List.length_map _).trans List.length_range
  | _ => exact dblChain_length _ _

/-- Under a latched KEYLEN that KEYINIT refuses, `KC` is invalid while the command runs: a valid `KC` belongs to the
register KEYLEN, which the latch still equals (R57, R58). -/
theorem kc_invalid_of_illegal_keylen {s : State} (h : Inv s) (hb : s.seq = .busy)
    (hk : s.cl.keylen.toNat ∉ [16, 24, 32, 64]) : s.kc.valid = false := by
  by_contra hv
  have hkeylen := (h.kc_ok (Bool.eq_true_of_not_eq_false hv)).keylen_eq
  rw [h.frozen hb, show (latchOf s).keylen = s.keylen from rfl, hkeylen] at hk
  cases hkl : s.kc.klen <;> simp [hkl, KeyLen.bytes] at hk

/-- Settles O17: by the KEYLEN check; the context KEYINIT builds is right for the key and its length, as the invariant
asks. -/
theorem keyinitSetsContext : Obligations.KeyinitSetsContext := by
  intro f s
  refine ⟨fun kl hkl => ?_, fun hk => ⟨exec_keyinit_of_illegal ?_, fun h hb => kc_invalid_of_illegal_keylen h hb hk⟩⟩
  · have hx := exec_keyinit_of_legal (f := f) ((keylenOf_bytes _ _).2 hkl)
    have hok : KeyContextOk { keyinitState kl s with keylen := s.cl.keylen } :=
      keyinit_contextOk (s := s) rfl rfl hkl rfl
    obtain ⟨hkey, -, hkk, hh, hk1, hk2, hldollar, hl, hhalves⟩ := hok
    simp only [keyinitState_kc, keyContextOf_klen] at hkey hkk hh hk1 hk2 hldollar hl hhalves
    refine ⟨_, _, hx, keyContextOf_valid .., keyContextOf_klen .., hkey, fun hne => ?_, hhalves⟩
    refine ⟨hkk hne, hh hne, hk1 hne, hk2 hne, hldollar hne, keyContextOf_l_length .., hl hne 0 (by decide),
      fun j hj => ?_⟩
    rw [keyinitState_kc, hl hne (j + 1) hj, hl hne j (by omega)]
    rfl
  · rw [← Option.isNone_iff_eq_none, keylenOf_isNone]
    simpa using hk

end Sys2Proof.Machine
end

section
/-! Only the stream commands with CONT = 1 depend on `ST` (R186). -/

namespace Sys2Proof.Machine

open Sys2Proof.Safety

/-- The state with another stream. -/
def State.withStream (s : State) (S : Stream) : State := { s with st := S }

section
variable {i : Instr} {s : State} {S : Stream}

/-- The STATE check alone looks at `ST`, and only for a stream command with CONT = 1 (R504). -/
theorem firstFailure_withStream (h : isStream i = false ∨ i.fields.cont = false) :
    firstFailure i (s.withStream S) = firstFailure i s := by
  have hstate (u : State) : failsState i u = false := by
    rcases h with h | h <;> simp [failsState, h]
  simp only [firstFailure, checksInOrder, hstate]
  rfl

/-- A new stream starts from the IV, whatever `ST` holds (R230). -/
theorem streamStart_withStream {f : Fields} (hc : f.cont = false) (fam : Family) :
    streamStart fam f (s.withStream S) = streamStart fam f s := by
  simp only [streamStart, hc, Bool.false_eq_true, if_false]
  rfl

theorem withStream_endVerify (T : Block) :
    endVerify i T (s.withStream S) = (endVerify i T s).withStream S := by
  rw [endVerify, endVerify, apply_ite (State.withStream · S)]
  rfl

theorem withStream_endDecrypt (P T : List Byte) :
    endDecrypt i P T (s.withStream S) = (endDecrypt i P T s).withStream S := by
  rw [endDecrypt, endDecrypt, apply_ite (State.withStream · S)]
  rfl

/-- A command that is neither a stream command nor KEYINIT leaves `ST` alone and answers the same whatever it holds. -/
theorem exec_withStream (hi : isStream i = false) (hk : ∀ f, i ≠ .keyinit f) :
    exec i (s.withStream S) = mapNext (State.withStream · S) (exec i s) := by
  have hc : check i (s.withStream S) = check i s := by
    rw [check_eq, check_eq, firstFailure_withStream (.inl hi)]
  cases i
  case keyinit f => exact absurd rfl (hk f)
  case cbcEnc | cbcDec | ctr | ofb | cfbEnc | cfbDec => cases hi
  all_goals refine runChecked_mapNext _ hc (fun _ => rfl) ?_
  case cbcmacVer | cmacVer => exact withStream_endVerify _
  case gcmDec | ccmDec | eaxDec | ocbDec => exact withStream_endDecrypt _ _
  case kwUnwrap => rw [apply_ite (State.withStream · S)]; rfl
  all_goals rfl

/-- A stream command that starts a new stream answers the same whatever `ST` holds. -/
theorem exec_withStream_of_new (hi : isStream i = true) (hc : i.fields.cont = false) (hp : Passes i s) :
    exec i (s.withStream S) = exec i s := by
  have hp' : Passes i (s.withStream S) := (firstFailure_withStream (.inr hc)).trans hp
  cases i
  case cbcEnc f | cbcDec f | ctr f | ofb f =>
    refine (runChecked_pass hp' _).trans ?_
    rw [streamStart_withStream (f := f) hc]
    exact (runChecked_pass hp _).symm
  case cfbEnc f | cfbDec f =>
    refine (runChecked_pass hp' _).trans ?_
    rw [cfbRun, streamStart_withStream (f := f) hc]
    exact (runChecked_pass hp _).symm
  all_goals cases hi

theorem exec_keyinit_withStream (f : Fields) : exec (.keyinit f) (s.withStream S)
    = mapNext (fun t => t.withStream (if t.err then S else { S with valid := false })) (exec (.keyinit f) s) := by
  cases hk : KeyLen.ofNat? s.cl.keylen.toNat with
  | none => rw [exec_keyinit_of_illegal hk, exec_keyinit_of_illegal (s := s.withStream S) hk]; rfl
  | some kl => rw [exec_keyinit_of_legal hk, exec_keyinit_of_legal (s := s.withStream S) hk]; rfl

end

/-- Settles O15: `ST` is read by the STATE check and by the start of a continued stream alone. -/
theorem noCallHistory : Obligations.NoCallHistory := fun _ _ _ =>
  ⟨exec_withStream, exec_keyinit_withStream, exec_withStream_of_new⟩

end Sys2Proof.Machine
end

section
/-! GF(2^128): the laws of the two multiplies and of the two doublings, and what the six raw GF commands leave in GFR
(R200–R215). -/

namespace Sys2Proof

/-! ## Linear functions

The field is a vector space over the bits with xor as its sum: a linear function is known by its values at the powers of
two, which are the bits of a block. -/

theorem eq_of_linear {F G : Nat → Nat} {n v : Nat} (hF : ∀ a b, F (a ^^^ b) = F a ^^^ F b)
    (hG : ∀ a b, G (a ^^^ b) = G a ^^^ G b) (hp : ∀ i < n, F (2 ^ i) = G (2 ^ i)) (hv : v < 2 ^ n) : F v = G v := by
  have hzero {H : Nat → Nat} (hH : ∀ a b, H (a ^^^ b) = H a ^^^ H b) : H 0 = 0 := by simpa using hH 0 0
  refine xor_induction (P := fun v => F v = G v) ?_ (fun a b ha hb => ?_) hp hv
  · rw [hzero hF, hzero hG]
  · rw [hF, hG, ha, hb]

/-- A bilinear product commutes if it does on single bits. -/
theorem comm_of_bilinear {M : Nat → Nat → Nat} {n x y : Nat} (hl : ∀ a b c, M (a ^^^ b) c = M a c ^^^ M b c)
    (hr : ∀ a b c, M a (b ^^^ c) = M a b ^^^ M a c) (hp : ∀ i < n, ∀ j < n, M (2 ^ i) (2 ^ j) = M (2 ^ j) (2 ^ i))
    (hx : x < 2 ^ n) (hy : y < 2 ^ n) : M x y = M y x := by
  have hbit : ∀ i < n, M (2 ^ i) y = M y (2 ^ i) := fun i hi =>
    eq_of_linear (G := (M · (2 ^ i))) (hr _) (fun a b => hl a b _) (hp i hi) hy
  exact eq_of_linear (F := (M · y)) (fun a b => hl a b y) (hr y) hbit hx

/-! ## The GHASH-convention multiply (R204) -/

/-- `gmul` on the big-endian integers of the blocks. -/
def gmulInt (x y : Nat) : Nat := gmulLoop x 128 y 0

theorem gmul_eq (x y : Block) : gmul x y = Bytes.be 16 (gmulInt (intBE x.bytes) (intBE y.bytes)) := rfl

theorem gmulInt_xor_left (x x' y : Nat) : gmulInt (x ^^^ x') y = gmulInt x y ^^^ gmulInt x' y :=
  gmulLoop_xor_left x x' 128 y 0 0

theorem gmulInt_xor_right (x y y' : Nat) : gmulInt x (y ^^^ y') = gmulInt x y ^^^ gmulInt x y' :=
  gmulLoop_xor_right x 128 y y' 0 0

/-- Integer bit `i` is string bit `127 - i`, so it multiplies by that power of `x`. -/
theorem gmulInt_two_pow {i : Nat} (hi : i < 128) (y : Nat) : gmulInt (2 ^ i) y = gStep^[127 - i] y := by
  rw [gmulInt, gmulLoop_two_pow hi, Nat.zero_xor]

/-- Each bit is a power of `x` times the first string bit. -/
theorem two_pow_eq_gStep {j : Nat} (hj : j < 128) : 2 ^ j = gStep^[127 - j] (2 ^ 127) := by
  have h := gStep_iterate_two_pow (127 - j) j
  rw [Nat.add_sub_cancel' (by omega)] at h
  exact h.symm

theorem gmulInt_comm {x y : Nat} (hx : x < 2 ^ 128) (hy : y < 2 ^ 128) : gmulInt x y = gmulInt y x := by
  refine comm_of_bilinear gmulInt_xor_left gmulInt_xor_right (fun i hi j hj => ?_) hx hy
  rw [gmulInt_two_pow hi, gmulInt_two_pow hj, two_pow_eq_gStep hi, two_pow_eq_gStep hj,
    ← Function.iterate_add_apply, ← Function.iterate_add_apply, Nat.add_comm]

theorem Bytes.be_xor (n a b : Nat) : Bytes.be n (a ^^^ b) = (Bytes.be n a).xor (Bytes.be n b) := by
  apply Bytes.intBE_inj
  rw [Bytes.intBE_xor, intBE_be, intBE_be, intBE_be, Nat.xor_mod_two_pow]

theorem Bytes.be_zero (n : Nat) : Bytes.be n 0 = Bytes.zero n := by
  have h := Bytes.be_xor n 0 0
  rwa [Nat.xor_self, Bytes.xor_self] at h

theorem gmul_comm (x y : Block) : gmul x y = gmul y x :=
  congrArg (Bytes.be 16) (gmulInt_comm x.intBE_lt y.intBE_lt)

theorem gmul_zero (x : Block) : gmul x (Bytes.zero 16) = Bytes.zero 16 := by
  rw [gmul_eq, ← Bytes.be_zero, intBE_be, Nat.zero_mod, gmulInt, gmulLoop_zero_right]

theorem gmul_one (y : Block) : gmul (Bytes.be 16 (2 ^ 127)) y = y := by
  rw [gmul_eq, intBE_be, Nat.mod_eq_of_lt (by decide), gmulInt_two_pow (by decide)]
  exact y.be_intBE

theorem gmul_xor (x y z : Block) : gmul (x.xor y) z = (gmul x z).xor (gmul y z) := by
  rw [gmul_eq, Bytes.intBE_xor, gmulInt_xor_left, Bytes.be_xor]
  rfl

/-- Settles O43: the product is bilinear, and of two single bits it is a power of `x` times the one, in either order. -/
theorem gmulLaws : Obligations.GmulLaws := fun x y z => ⟨gmul_comm x y, gmul_zero x, gmul_one y, gmul_xor x y z⟩

/-! ## The POLYVAL-convention multiply (R205) -/

/-- `pmul` on the little-endian integers of the blocks. -/
def pmulInt (a b : Nat) : Nat := pmulLoop a b 128 0

theorem pmul_eq (x y : Block) : pmul x y = Bytes.le 16 (pmulInt (intLE x.bytes) (intLE y.bytes)) := rfl

theorem pmulInt_xor_left (a a' b : Nat) : pmulInt (a ^^^ a') b = pmulInt a b ^^^ pmulInt a' b :=
  pmulLoop_xor_left a a' b 128 0 0

theorem pmulInt_xor_right (a b b' : Nat) : pmulInt a (b ^^^ b') = pmulInt a b ^^^ pmulInt a b' :=
  pmulLoop_xor_right a b b' 128 0 0

theorem pmulInt_zero_right (a : Nat) : pmulInt a 0 = 0 := by
  rw [pmulInt, pmulLoop_zero_right, pStep_iterate_zero]

/-- Bit `j` multiplies by `x^j · x^(-128)`: it halves `128 - j` times. -/
theorem pmulInt_two_pow {j : Nat} (hj : j < 128) (a : Nat) : pmulInt a (2 ^ j) = pStep^[128 - j] a := by
  rw [pmulInt, pmulLoop_two_pow (Nat.le_refl 128) hj (by omega), pStep_iterate_zero, Nat.zero_xor]

/-- Each bit is the last one, `x^127`, halved. -/
theorem two_pow_eq_pStep {j : Nat} (hj : j < 128) : 2 ^ j = pStep^[127 - j] (2 ^ 127) := by
  have h := pStep_iterate_two_pow (127 - j) j
  rw [Nat.add_sub_cancel' (by omega)] at h
  exact h.symm

theorem pmulInt_comm {a b : Nat} (ha : a < 2 ^ 128) (hb : b < 2 ^ 128) : pmulInt a b = pmulInt b a := by
  refine comm_of_bilinear pmulInt_xor_left pmulInt_xor_right (fun i hi j hj => ?_) ha hb
  rw [pmulInt_two_pow hi, pmulInt_two_pow hj, two_pow_eq_pStep hi, two_pow_eq_pStep hj,
    ← Function.iterate_add_apply, ← Function.iterate_add_apply]
  congr 1
  omega

/-- `x^128` modulo `P` is the one of this product. -/
theorem pmulInt_one {b : Nat} (hb : b < 2 ^ 128) : pmulInt (1 + 0xC2 * 2 ^ 120) b = b := by
  refine eq_of_linear (G := id) (pmulInt_xor_right _) (fun _ _ => rfl) (fun j hj => ?_) hb
  have hhalf : pStep (1 + 0xC2 * 2 ^ 120) = 2 ^ 127 := by decide
  rw [pmulInt_two_pow hj, show 128 - j = 127 - j + 1 by omega, Function.iterate_succ_apply, hhalf,
    ← two_pow_eq_pStep hj]
  rfl

theorem pmul_comm (x y : Block) : pmul x y = pmul y x :=
  congrArg (Bytes.le 16) (pmulInt_comm x.intLE_lt y.intLE_lt)

theorem Bytes.le_zero (n : Nat) : Bytes.le n 0 = Bytes.zero n := by
  apply Bytes.ext_bytes
  rw [Bytes.le_bytes, leBytes_eq, ← Bytes.be_bytes, Bytes.be_zero, Bytes.zero_bytes, List.reverse_replicate]

theorem pmul_zero (x : Block) : pmul x (Bytes.zero 16) = Bytes.zero 16 := by
  rw [pmul_eq, ← Bytes.le_zero, intLE_le, Nat.zero_mod, pmulInt_zero_right]

theorem pmul_one (y : Block) : pmul (Bytes.le 16 (1 + 0xC2 * 2 ^ 120)) y = y := by
  rw [pmul_eq, intLE_le, Nat.mod_eq_of_lt (by decide), pmulInt_one y.intLE_lt, Bytes.le_intLE]

/-- Settles O44: the product is bilinear, and of two single bits it halves the last bit equally often in either
order; the worked product is evaluated. -/
theorem pmulLaws : Obligations.PmulLaws :=
  ⟨fun x y => ⟨pmul_comm x y, pmul_zero x, pmul_one y⟩, by decide +kernel⟩

/-! ## The doublings (R202, R203) -/

/-- The bits of dbl_le: each takes the one below it, and the last of all is folded in. -/
theorem dblLe_byte_bit (x : Block) {i j : Nat} (hi : i < 16) (hj : j < 8) : ((dblLe x).byte i).getLsbD j =
    ((decide (1 ≤ 8 * i + j) && (intLE x.bytes).testBit (8 * i + j - 1))
      ^^ ((x.byte 15).getLsbD 7 && (0x87 : Nat).testBit (8 * i + j))) := by
  rw [dblLe, Bytes.le_byte_bit _ _ _ hi hj, dblInt_bit, Bytes.byte_testBit x 15 7 (by decide) (by decide)]
  simp [show 8 * i + j < 128 by omega]

theorem dblLe_byte_succ (x : Block) {i : Nat} (hi : i < 15) :
    (dblLe x).byte (i + 1) = (x.byte (i + 1) <<< 1) ||| (x.byte i >>> 7) := by
  apply BitVec.eq_of_getLsbD_eq
  intro j hj
  have hfold : (0x87 : Nat).testBit (8 * (i + 1) + j) = false :=
    Nat.testBit_lt_two_pow (lt_of_lt_of_le (by decide : 0x87 < 2 ^ 8) (Nat.pow_le_pow_right (by decide) (by omega)))
  have hpos : 1 ≤ 8 * (i + 1) + j := by omega
  rw [dblLe_byte_bit x (by omega) hj, hfold, decide_eq_true hpos, Bool.true_and, Bool.and_false, Bool.xor_false,
    BitVec.getLsbD_or, BitVec.getLsbD_shiftLeft, BitVec.getLsbD_ushiftRight]
  cases j with
  | zero =>
    rw [show 8 * (i + 1) + 0 - 1 = 8 * i + 7 by omega, ← Bytes.byte_testBit x i 7 (by omega) (by decide)]
    simp
  | succ j =>
    rw [show 8 * (i + 1) + (j + 1) - 1 = 8 * (i + 1) + j by omega,
      ← Bytes.byte_testBit x (i + 1) j (by omega) (by omega),
      BitVec.getLsbD_of_ge _ _ (show 8 ≤ 7 + (j + 1) by omega)]
    simp [hj]

theorem dblLe_byte_zero (x : Block) :
    (dblLe x).byte 0 = (x.byte 0 <<< 1) ^^^ (if (x.byte 15).getLsbD 7 then 0x87 else 0) := by
  apply BitVec.eq_of_getLsbD_eq
  intro j hj
  have hfold : (if (x.byte 15).getLsbD 7 then (0x87 : Byte) else 0).getLsbD j
      = ((x.byte 15).getLsbD 7 && (0x87 : Nat).testBit j) := by
    cases (x.byte 15).getLsbD 7 with
    | false => simp
    | true => rfl
  rw [dblLe_byte_bit x (by decide) hj, BitVec.getLsbD_xor, hfold, BitVec.getLsbD_shiftLeft, Nat.mul_zero, Nat.zero_add]
  cases j with
  | zero => simp
  | succ j =>
    have hbit := Bytes.byte_testBit x 0 j (by decide) (by omega)
    rw [Nat.mul_zero, Nat.zero_add] at hbit
    rw [Nat.add_sub_cancel, ← hbit]
    simp [hj]

/-- A block with its bytes in the other order. -/
def Block.reversed (x : Block) : Block := ⟨x.bytes.reverse, by simp⟩

theorem Block.reversed_byte (x : Block) {i : Nat} (hi : i < 16) : x.reversed.byte i = x.byte (15 - i) := by
  have h : i < x.bytes.length := by rwa [x.length_bytes]
  simp only [Bytes.byte, Block.reversed, List.getD_eq_getElem?_getD, List.getElem?_reverse h, Bytes.length_bytes]

theorem dblBe_byte (x : Block) {i : Nat} (hi : i < 16) : (dblBe x).byte i = (dblLe x.reversed).byte (15 - i) := by
  rw [← Block.reversed_byte _ hi]
  exact congrArg (·.getD i 0) (dblBe_bytes x)

theorem dblBe_byte_of_lt (x : Block) {i : Nat} (hi : i < 15) :
    (dblBe x).byte i = (x.byte i <<< 1) ||| (x.byte (i + 1) >>> 7) := by
  rw [dblBe_byte x (by omega), show 15 - i = 14 - i + 1 by omega, dblLe_byte_succ _ (by omega),
    Block.reversed_byte x (by omega), Block.reversed_byte x (by omega), show 15 - (14 - i + 1) = i by omega,
    show 15 - (14 - i) = i + 1 by omega]

theorem dblBe_byte_last (x : Block) :
    (dblBe x).byte 15 = (x.byte 15 <<< 1) ^^^ (if (x.byte 0).getLsbD 7 then 0x87 else 0) := by
  rw [dblBe_byte x (by decide), Nat.sub_self, dblLe_byte_zero, Block.reversed_byte x (by decide),
    Block.reversed_byte x (by decide)]

theorem dblBe_be {v w : Nat} (hv : v < 2 ^ 128) (h : dblInt v = w) : dblBe (Bytes.be 16 v) = Bytes.be 16 w := by
  rw [dblBe, intBE_be, Nat.mod_eq_of_lt hv, h]

theorem dblLe_le {v w : Nat} (hv : v < 2 ^ 128) (h : dblInt v = w) : dblLe (Bytes.le 16 v) = Bytes.le 16 w := by
  rw [dblLe, intLE_le, Nat.mod_eq_of_lt hv, h]

/-- Settles O42: dbl_le by its bits, and dbl_be as dbl_le of the bytes in the other order. -/
theorem doublingByBytes : Obligations.DoublingByBytes :=
  ⟨fun x => ⟨fun _ => dblBe_byte_of_lt x, dblBe_byte_last x, fun _ => dblLe_byte_succ x, dblLe_byte_zero x⟩,
    dblBe_be (by decide) rfl, dblBe_be (by decide) rfl, dblBe_be (by decide) rfl, dblBe_be (by decide) rfl,
    dblLe_le (by decide) rfl, dblLe_le (by decide) rfl, dblLe_le (by decide) rfl, dblLe_le (by decide) rfl⟩

namespace Machine

open Sys2Proof.Safety

/-! ## The chains (R206, R207) -/

theorem chain_append_blocks (g : Block → Block) (y0 : Block) {x : List Byte} (hx : x.length % 16 = 0)
    (y : List Byte) :
    chain g y0 (x ++ y) ((x ++ y).length / 16) = chain g (chain g y0 x (x.length / 16)) y (y.length / 16) := by
  rw [← chain_append g y0 (by omega : x.length = 16 * (x.length / 16)), List.length_append]
  congr 1
  omega

theorem ghashOf_append (h y0 : Block) {x : List Byte} (hx : x.length % 16 = 0) (y : List Byte) :
    ghashOf h (x ++ y) y0 = ghashOf h y (ghashOf h x y0) := chain_append_blocks _ y0 hx y

theorem polyvalOf_append (h y0 : Block) {x : List Byte} (hx : x.length % 16 = 0) (y : List Byte) :
    polyvalOf h (x ++ y) y0 = polyvalOf h y (polyvalOf h x y0) := chain_append_blocks _ y0 hx y

/-! ## The six commands (R210–R215) -/

/-- A passing command that commits a GFR but no output and no tag writes GFR alone (R183). -/
theorem runChecked_gfr {i : Instr} {s : State} (hp : Passes i s) (h0 : outLength i s = 0) (g : Block) :
    runChecked i s (commit i [] none (some g) s) = .next { committed s 0 with gfr := g } :=
  (runChecked_pass hp _).trans (congrArg _ (commit_eq_committed h0 _ _))

theorem exec_ghash {f : Fields} {s : State} (hp : Passes (.ghash f) s) :
    exec (.ghash f) s = .next { committed s 0 with gfr := ghashOf s.cl.gfb s.src s.cl.gfa } := by
  rw [← ghash_eq]
  exact runChecked_gfr hp rfl _

theorem exec_polyval {f : Fields} {s : State} (hp : Passes (.polyval f) s) :
    exec (.polyval f) s = .next { committed s 0 with gfr := polyvalOf s.cl.gfb s.src s.cl.gfa } := by
  rw [← polyval_eq]
  exact runChecked_gfr hp rfl _

/-- Settles O40: none of the four has a check that can fail. -/
theorem gfUnitResults : Obligations.GfUnitResults := fun f _ =>
  ⟨runChecked_gfr (i := .gfmulG f) rfl rfl _, runChecked_gfr (i := .gfmulP f) rfl rfl _,
    runChecked_gfr (i := .gfdblBe f) rfl rfl _, runChecked_gfr (i := .gfdblLe f) rfl rfl _⟩

/-- A command that leaves in GFR a hash that goes on over what is appended can be continued from GFR. -/
theorem gfr_continues {i : Instr} {H : Block → List Byte → Block → Block} (hlen : (profile i).len = .block)
    (hexec : ∀ {u}, Passes i u → exec i u = .next { committed u 0 with gfr := H u.cl.gfb u.src u.cl.gfa })
    (happend : ∀ (h y0 : Block) {x : List Byte}, x.length % 16 = 0 → ∀ y, H h (x ++ y) y0 = H h y (H h x y0))
    {s s1 s2 t t1 t2 : State} (hp : Passes i s) (hx : exec i s = .next t) (hp1 : Passes i s1)
    (hx1 : exec i s1 = .next t1) (hp2 : Passes i s2) (hx2 : exec i s2 = .next t2) (ha1 : s1.cl.gfa = s.cl.gfa)
    (hb1 : s1.cl.gfb = s.cl.gfb) (ha2 : s2.cl.gfa = t1.gfr) (hb2 : s2.cl.gfb = s.cl.gfb)
    (hsrc : s.src = s1.src ++ s2.src) : t2.gfr = t.gfr := by
  have hgfr {u v : State} (hp : Passes i u) (hx : exec i u = .next v) : v.gfr = H u.cl.gfb u.src u.cl.gfa := by
    cases (hexec hp).symm.trans hx
    rfl
  rw [hgfr hp hx, hgfr hp2 hx2, ha2, hgfr hp1 hx1, ha1, hb1, hb2, hsrc, happend _ _ (passes_blocks hp1 hlen)]

/-- Settles O41: both commands leave a chain in GFR, and a chain goes on over what is appended to whole blocks. -/
theorem gfChainResults : Obligations.GfChainResults := by
  refine ⟨fun f s => ⟨exec_ghash, exec_polyval⟩, ?_⟩
  rintro c (rfl | rfl) f s s1 s2 t t1 t2
  · exact gfr_continues rfl exec_ghash ghashOf_append
  · exact gfr_continues rfl exec_polyval polyvalOf_append

end Machine

end Sys2Proof
end

section
/-! The counter increments (R232). -/

namespace Sys2Proof

theorem intBE_inc128 (x : Block) : intBE (inc128 x).bytes = (intBE x.bytes + 1) % 2 ^ 128 := by
  rw [inc128, intBE_be, Nat.mod_mod]

theorem inc32_bytes (x : Block) :
    (inc32 x).bytes = x.bytes.take 12 ++ beBytes 4 ((intBE (x.bytes.drop 12) + 1) % 2 ^ 32) :=
  Bytes.ofList_bytes_of_length (by simp [beBytes_length])

theorem take_inc32 (x : Block) : (inc32 x).bytes.take 12 = x.bytes.take 12 := by
  rw [inc32_bytes, List.take_left' (by simp)]

theorem intBE_drop_inc32 (x : Block) :
    intBE ((inc32 x).bytes.drop 12) = (intBE (x.bytes.drop 12) + 1) % 2 ^ 32 := by
  rw [inc32_bytes, List.drop_left' (by simp), intBE_beBytes, Nat.mod_mod]

/-- Settles O47: both increments add on the integer that a big-endian string encodes. -/
theorem counterIncrements : Obligations.CounterIncrements :=
  ⟨fun x => ⟨intBE_inc128 x, take_inc32 x, intBE_drop_inc32 x⟩, by decide⟩

end Sys2Proof
end

section
/-! What each of the six stream commands writes and leaves in `ST`, and how a message may be split (R230–R241, R261). -/

namespace Sys2Proof.Machine

open Sys2Proof.Safety

/-! ## What a stream command does to its stream and its source -/

/-- The stream and the output of a stream command that begins with `S` on the source `x`, by its rule (R238–R241, R265,
R266); `exec_stream` ties it to the machine. A command outside the family has no stream and no output here. -/
def streamRun (e d : Block → Block) : Instr → Stream → List Byte → Stream × List Byte
  | .cbcEnc _, S, x =>
    let r := cbcEnc e S.sreg (toBlocks x)
    ({ S with sreg := r.1 }, joinChunks r.2)
  | .cbcDec _, S, x =>
    let r := cbcDec d S.sreg (toBlocks x)
    ({ S with sreg := r.1 }, joinChunks r.2)
  | .ctr _, S, x => streamBytes (ctrByte e) S x
  | .ofb _, S, x => streamBytes (ofbByte e) S x
  | .cfbEnc f, S, x => cfbSegs e false (segmentSize f.param) (x.length / segmentSize f.param) S x
  | .cfbDec f, S, x => cfbSegs e true (segmentSize f.param) (x.length / segmentSize f.param) S x
  | _, S, _ => (S, [])

/-- The stream and the output of the stream command `i` in the state `s`. -/
def streamResult (i : Instr) (s : State) : Stream × List Byte :=
  streamRun s.encK s.decK i (streamStart (familyOf i) i.fields s) s.src

theorem exec_stream {i : Instr} {s : State} (hi : isStream i = true) (hp : Passes i s) :
    exec i s = .next (commitStream i (streamResult i s).1 (streamResult i s).2 s) := by
  match i, hi with
  | .cbcEnc _, _ | .cbcDec _, _ | .ctr _, _ | .ofb _, _ => exact runChecked_pass hp _
  | .cfbEnc f, _ | .cfbDec f, _ =>
    refine (runChecked_pass hp _).trans ?_
    rw [cfbRun, cfbFamily_eq]
    rfl

/-! ## Lengths and splits -/

/-- A stream command takes its source in units of this many bytes (R507). -/
def streamUnit : Instr → Nat
  | .cbcEnc _ | .cbcDec _ => 16
  | .cfbEnc f | .cfbDec f => segmentSize f.param
  | _ => 1

theorem segmentSize_pos (p : Nat) : 0 < segmentSize p := by
  unfold segmentSize
  grind

theorem passes_unit {i : Instr} {s : State} (hi : isStream i = true) (hp : Passes i s) :
    streamUnit i ∣ s.src.length := by
  match i, hi with
  | .cbcEnc _, _ | .cbcDec _, _ => exact Nat.dvd_of_mod_eq_zero (passes_blocks hp rfl)
  | .ctr _, _ | .ofb _, _ => exact Nat.one_dvd _
  | .cfbEnc f, _ => exact Dvd.intro _ (passes_segments hp (.inl ⟨f, rfl⟩)).symm
  | .cfbDec f, _ => exact Dvd.intro _ (passes_segments hp (.inr ⟨f, rfl⟩)).symm

theorem cfbSegs_length (e : Block → Block) (dec : Bool) {p : Nat} (S : Stream) {x : List Byte}
    (hx : segmentSize p ∣ x.length) :
    (cfbSegs e dec (segmentSize p) (x.length / segmentSize p) S x).2.length = x.length :=
  (cfbSegs_eq e dec _ (segmentSize_le p) _ S x (Nat.mul_div_cancel' hx).symm).1

theorem streamRun_length (e d : Block → Block) {i : Instr} (hi : isStream i = true) (S : Stream) {x : List Byte}
    (hx : streamUnit i ∣ x.length) : (streamRun e d i S x).2.length = x.length := by
  match i, hi with
  | .cbcEnc _, _ | .cbcDec _, _ =>
    simp only [streamRun, cbcEnc_eq, cbcDec_eq, joinChunks_length, List.length_map, List.length_range]
    exact Nat.mul_div_cancel' hx
  | .ctr _, _ | .ofb _, _ => exact streamBytes_length _ _ _
  | .cfbEnc _, _ | .cfbDec _, _ => exact cfbSegs_length e _ S hx

theorem streamRun_valid (e d : Block → Block) {i : Instr} (hi : isStream i = true) (S : Stream) (x : List Byte) :
    (streamRun e d i S x).1.valid = S.valid := by
  match i, hi with
  | .cbcEnc _, _ | .cbcDec _, _ => rfl
  | .ctr _, _ => exact streamBytes_valid (ctrByte_valid e) S x
  | .ofb _, _ => exact streamBytes_valid (ofbByte_valid e) S x
  | .cfbEnc _, _ | .cfbDec _, _ => exact cfbSegs_valid e _ _ _ S x

/-- A message may be split between two units. -/
theorem streamRun_append (e d : Block → Block) {i : Instr} (hi : isStream i = true) (S : Stream) {x : List Byte}
    (hx : streamUnit i ∣ x.length) (y : List Byte) :
    let r := streamRun e d i S x
    let q := streamRun e d i r.1 y
    streamRun e d i S (x ++ y) = (q.1, r.2 ++ q.2) := by
  match i, hi with
  | .cbcEnc _, _ | .cbcDec _, _ =>
    have hblocks : x.length % 16 = 0 := Nat.mod_eq_zero_of_dvd hx
    simp only [streamRun, toBlocks_append hblocks, cbcEnc_append, cbcDec_append, joinChunks_append]
  | .ctr _, _ | .ofb _, _ => exact streamBytes_append _ S x y
  | .cfbEnc f, _ | .cfbDec f, _ =>
    obtain ⟨m, hm⟩ : segmentSize f.param ∣ x.length := hx
    have hpos := segmentSize_pos f.param
    simp only [streamRun, List.length_append, hm, Nat.mul_add_div hpos, Nat.mul_div_cancel_left m hpos]
    exact cfbSegs_append e _ _ m _ S hm

/-! ## What a stream command commits (R233) -/

theorem streamResult_length {i : Instr} {s : State} (hi : isStream i = true) (hp : Passes i s) :
    (streamResult i s).2.length = outLength i s := by
  rw [streamResult, streamRun_length _ _ hi _ (passes_unit hi hp), State.src_length]
  match i, hi with
  | .cbcEnc _, _ | .cbcDec _, _ | .ctr _, _ | .ofb _, _ | .cfbEnc _, _ | .cfbDec _, _ => rfl

theorem stream_commits {i : Instr} {s : State} (hi : isStream i = true) (hp : Passes i s) :
    CommitsStream i s (streamResult i s).1 (streamResult i s).2 :=
  commitStream_stores (exec_stream hi hp) (streamResult_length hi hp)

theorem stream_outputs {i : Instr} {s : State} (hi : isStream i = true) (hp : Passes i s) :
    Outputs i s (streamResult i s).2 :=
  let ⟨_, hstores⟩ := stream_commits hi hp
  outputs_of_commitsStoring hstores (streamResult_length hi hp)

theorem streamResult_valid {i : Instr} {s : State} (hi : isStream i = true) (hp : Passes i s) :
    (streamResult i s).1.valid = true := by
  obtain ⟨-, hvalid, -⟩ := streamStart_begins hp hi
  rw [streamResult, streamRun_valid _ _ hi, hvalid]

theorem stream_st {i : Instr} {s t : State} (hi : isStream i = true) (hp : Passes i s) (hx : exec i s = .next t) :
    t.st = (streamResult i s).1 := by
  cases (exec_stream hi hp).symm.trans hx
  show { (streamResult i s).1 with valid := true } = _
  rw [← streamResult_valid hi hp]

/-! ## The results of the commands -/

/-- Settles O20: the keystream runs on from the place in the block in use. -/
theorem ctrResult : Obligations.CtrResult := by
  intro f s hp
  obtain ⟨hS, -⟩ := streamStart_begins hp rfl
  obtain ⟨hends, hout⟩ := ctrBytes_eq s.encK (streamStart .ctr f s) s.src
  rw [State.src_length] at hends
  exact ⟨_, _, hS, hends, hout ▸ stream_commits rfl hp⟩

/-- Settles O21: each keystream block is `E` of the one before. -/
theorem ofbResult : Obligations.OfbResult := by
  intro f s hp
  obtain ⟨hS, -⟩ := streamStart_begins hp rfl
  obtain ⟨hends, hout⟩ := ofbBytes_eq s.encK (streamStart .ofb f s) s.src
  rw [State.src_length] at hends
  exact ⟨_, _, hS, hends, hout ▸ stream_commits rfl hp⟩

/-- Settles O22: the register is a window on what was in it and the ciphertext since. -/
theorem cfbResults : Obligations.CfbResults := by
  intro f s
  rw [← segmentSize_eq, ← State.src_length]
  refine ⟨fun hp => ?_, fun hp => ?_⟩
  · obtain ⟨hS, -⟩ := streamStart_begins hp rfl
    obtain ⟨hlen, hst, hseg⟩ := cfbSegs_eq s.encK false _ (segmentSize_le f.param) _
      (streamStart (familyOf (.cfbEnc f)) f s) s.src (passes_segments hp (.inl ⟨f, rfl⟩))
    exact ⟨_, _, hS, hlen, hst ▸ stream_commits rfl hp, hseg⟩
  · obtain ⟨hS, -⟩ := streamStart_begins hp rfl
    obtain ⟨hlen, hst, hseg⟩ := cfbSegs_eq s.encK true _ (segmentSize_le f.param) _
      (streamStart (familyOf (.cfbDec f)) f s) s.src (passes_segments hp (.inr ⟨f, rfl⟩))
    exact ⟨_, _, hS, hlen, hst ▸ stream_commits rfl hp, hseg⟩

/-! ## Splitting a message -/

theorem State.encK_congr {s u : State} (hcfg : u.cfg = s.cfg) (hkc : u.kc = s.kc) : u.encK = s.encK := by
  funext b
  simp only [State.encK, State.E, hcfg, hkc]

theorem State.decK_congr {s u : State} (hcfg : u.cfg = s.cfg) (hkc : u.kc = s.kc) : u.decK = s.decK := by
  funext b
  simp only [State.decK, State.D, hcfg, hkc]

theorem streamStart_of_cont {fam : Family} {f : Fields} {s : State} (hc : f.cont = true) :
    streamStart fam f s = s.st := if_pos hc

theorem streamStart_congr {s u : State} (hst : u.st = s.st) (hdraws : u.draws = s.draws) (hnonce : u.nonce = s.nonce)
    (fam : Family) (f : Fields) : streamStart fam f u = streamStart fam f s := by
  simp only [streamStart, hst, hdraws, hnonce]

/-- A stream command whose run depends on no field but PARAM may be split. -/
theorem splits_of_stream {c : Fields → Instr} (hc : ∀ f, isStream (c f) = true ∧ (c f).fields = f)
    (hrun : ∀ e d f g, g.param = f.param → streamRun e d (c g) = streamRun e d (c f)) : Splits c := by
  intro f g s s1 s2 t t1 t2 hp hx hp1 hx1 hp2 hx2 hg hparam hcfg1 hkc1 hst1 hdraws hnonce hcfg2 hkc2 hst2 hsrc
  have hi : ∀ f, isStream (c f) = true := fun f => (hc f).1
  have hfirst : streamResult (c f) s1
      = streamRun s.encK s.decK (c f) (streamStart (familyOf (c f)) (c f).fields s) s1.src := by
    rw [streamResult, State.encK_congr hcfg1 hkc1, State.decK_congr hcfg1 hkc1, streamStart_congr hst1 hdraws hnonce]
  have hsecond : streamResult (c g) s2
      = streamRun s.encK s.decK (c f) (streamResult (c f) s1).1 s2.src := by
    rw [streamResult, State.encK_congr hcfg2 hkc2, State.decK_congr hcfg2 hkc2, hrun _ _ f g hparam,
      streamStart_of_cont ((congrArg Fields.cont (hc g).2).trans hg), hst2, stream_st (hi f) hp1 hx1]
  have hwhole : streamResult (c f) s
      = ((streamResult (c g) s2).1, (streamResult (c f) s1).2 ++ (streamResult (c g) s2).2) := by
    rw [hsecond, hfirst, streamResult, hsrc]
    exact streamRun_append _ _ (hi f) _ (passes_unit (hi f) hp1) _
  rw [stream_st (hi f) hp hx, stream_st (hi g) hp2 hx2, (stream_outputs (hi f) hp).outputOf_eq hx,
    (stream_outputs (hi f) hp1).outputOf_eq hx1, (stream_outputs (hi g) hp2).outputOf_eq hx2, hwhole]
  exact ⟨rfl, rfl⟩

/-- Settles O23: each run goes on over what is appended, and CONT = 1 begins with the stream the first run left. -/
theorem streamsSplit : Obligations.StreamsSplit := by
  refine ⟨?ctr, ?ofb, ?cbcEnc, ?cbcDec, ?cfbEnc, ?cfbDec⟩
  case ctr | ofb | cbcEnc | cbcDec => exact splits_of_stream (fun _ => ⟨rfl, rfl⟩) fun _ _ _ _ _ => rfl
  case cfbEnc | cfbDec =>
    refine splits_of_stream (fun _ => ⟨rfl, rfl⟩) fun e d f g hparam => ?_
    funext S x
    simp only [streamRun, hparam]

end Sys2Proof.Machine
end

section
/-! The stream modes undo their own encryption (R238–R241). -/

namespace Sys2Proof.Machine

open Sys2Proof.Safety

/-! ## CTR and OFB -/

/-- The pad of a new CTR stream is the keystream of the counter blocks from the IV on. -/
theorem ctr_outputs {f : Fields} {s : State} (hp : Passes (.ctr f) s) (hc : f.cont = false) :
    Outputs (.ctr f) s
      (padded (keystream fun j => s.encK (counterPlus (Bytes.ofList 16 s.nonce) j)) s.src) := by
  have hout := (ctrBytes_eq s.encK (streamStart .ctr f s) s.src).2
  have hpad (j : Nat) : ctrPad s.encK (streamStart .ctr f s) ((streamStart .ctr f s).pos.val + j)
      = keystream (fun j => s.encK (counterPlus (Bytes.ofList 16 s.nonce) j)) j := by
    simp [streamStart, hc, ctrPad, keystream, Nat.add_div_left]
  simp only [hpad] at hout
  exact hout ▸ stream_outputs rfl hp

/-- The pad of a new OFB stream is `E(IV), E(E(IV)), …`. -/
theorem ofb_outputs {f : Fields} {s : State} (hp : Passes (.ofb f) s) (hc : f.cont = false) :
    Outputs (.ofb f) s (padded (keystream fun j => s.encK^[j + 1] (Bytes.ofList 16 s.nonce)) s.src) := by
  have hout := (ofbBytes_eq s.encK (streamStart .ofb f s) s.src).2
  have hpad (j : Nat) : ofbPad s.encK (streamStart .ofb f s) ((streamStart .ofb f s).pos.val + j)
      = keystream (fun j => s.encK^[j + 1] (Bytes.ofList 16 s.nonce)) j := by
    simp [streamStart, hc, ofbPad, keystream, Nat.add_div_left]
  simp only [hpad] at hout
  exact hout ▸ stream_outputs rfl hp

/-- A command that pads its source with a keystream of the key and the IV is its own inverse. -/
theorem recovers_of_padded {c : Fields → Instr} {ks : (Block → Block) → Block → Nat → Block}
    (hout : ∀ {f s}, Passes (c f) s → f.cont = false →
      Outputs (c f) s (padded (keystream (ks s.encK (Bytes.ofList 16 s.nonce))) s.src)) : Recovers c c := by
  intro f g s t u hs hx hu hf hg _ hcfg hkc hnonce hsrc
  have hdec := hout hu hg
  rw [hsrc, (hout hs hf).outputOf_eq hx, State.encK_congr hcfg hkc, hnonce, padded_padded] at hdec
  exact hdec

theorem ctr_recovers : Recovers .ctr .ctr :=
  recovers_of_padded (ks := fun e iv j => e (counterPlus iv j)) ctr_outputs

theorem ofb_recovers : Recovers .ofb .ofb :=
  recovers_of_padded (ks := fun e iv j => e^[j + 1] iv) ofb_outputs

/-! ## CFB -/

/-- Both directions feed the register with the ciphertext, so they take the same pad for each segment. -/
theorem cfbSegs_cfbSegs (e : Block → Block) {size : Nat} (hs : size ≤ 16) (m : Nat) {S S' : Stream}
    (hreg : S'.sreg = S.sreg) {x : List Byte} (hx : x.length = size * m) :
    (cfbSegs e true size m S' (cfbSegs e false size m S x).2).2 = x := by
  induction m generalizing S S' x with
  | zero => exact (List.length_eq_zero_iff.1 hx).symm
  | succ m ih =>
    have ht : (x.take size).length = size := by rw [List.length_take, hx, Nat.mul_succ]; omega
    have hd : (x.drop size).length = size * m := by rw [List.length_drop, hx, Nat.mul_succ]; omega
    have hseg : (cfbSeg e false S (x.take size)).2.length = size := by rw [cfbSeg_length _ _ _ _ (by omega), ht]
    have hpad : (cfbSeg e true S' (cfbSeg e false S (x.take size)).2).2 = x.take size := by
      simp only [cfbSeg, hreg]
      exact xorBytes_cancel (by simp; omega)
    have hnext : (cfbSeg e true S' (cfbSeg e false S (x.take size)).2).1.sreg
        = (cfbSeg e false S (x.take size)).1.sreg := by
      simp [cfbSeg, hreg, ht, hs]
    simp only [cfbSegs]
    rw [List.take_left' hseg, List.drop_left' hseg, hpad, ih hnext hd, List.take_append_drop]

theorem cfb_recovers : Recovers .cfbEnc .cfbDec := by
  intro f g s t u hs hx hu hf hg hparam hcfg hkc hnonce hsrc
  have henc := (stream_outputs rfl hs).outputOf_eq hx
  have hlen := passes_segments hs (.inl ⟨f, rfl⟩)
  have hul : u.src.length = s.src.length := by
    rw [hsrc, henc]
    exact streamRun_length _ _ rfl _ (passes_unit rfl hs)
  have hreg : (streamStart (familyOf (.cfbDec g)) g u).sreg = (streamStart (familyOf (.cfbEnc f)) f s).sreg := by
    rw [streamStart_sreg hf, streamStart_sreg hg, hnonce]
  have hdec : (streamResult (.cfbDec g) u).2 = s.src := by
    show (cfbSegs u.encK true (segmentSize g.param) (u.src.length / segmentSize g.param) _ u.src).2 = _
    rw [hul, hsrc, henc, ← hparam, State.encK_congr hcfg hkc]
    exact cfbSegs_cfbSegs s.encK (segmentSize_le f.param) _ hreg hlen
  have hout := stream_outputs rfl hu
  rw [hdec] at hout
  exact hout

/-- Settles O33: each decryption takes the pad that the encryption took. -/
theorem streamModesRecover : Obligations.StreamModesRecover := ⟨ctr_recovers, ofb_recovers, cfb_recovers⟩

end Sys2Proof.Machine
end

section
/-! What the two ECB commands and the two CBC commands write, block by block (R260–R266). -/

namespace Sys2Proof.Machine

open Sys2Proof.Safety

/-! ## ECB -/

/-- A command on whole blocks that commits the ECB of its source under `g` stores `g` of each source block. -/
theorem commitsStoring_of_ecbBlocks {i : Instr} {s : State} {g : Block → Block} (hp : Passes i s)
    (hi : (profile i).len = .block) (ho : outLength i s = s.cl.srcLen.toNat)
    (hx : exec i s = .next (commit i (ecbBlocks g s.src) none none s)) :
    CommitsStoring i s s (blocks (s.cl.srcLen.toNat / 16) fun j => g (blockAt s.src j)) := by
  have hlen : (ecbBlocks g s.src).length = outLength i s := by
    rw [ecbBlocks_length (passes_blocks hp hi), State.src_length, ho]
  rw [← State.src_length, ← ecbBlocks_eq]
  exact commit_stores hx rfl rfl rfl hlen rfl

/-- Settles O18: each output block is the cipher of the source block in its place. -/
theorem ecbResults : Obligations.EcbResults := fun _ _ =>
  ⟨fun hp => commitsStoring_of_ecbBlocks hp rfl rfl (runChecked_pass hp _),
    fun hp => commitsStoring_of_ecbBlocks hp rfl rfl (runChecked_pass hp _)⟩

/-! ## CBC -/

/-- CBC encryption leaves the end of the ciphertext chain in its stream and puts out its other values (R265). -/
theorem streamRun_cbcEnc (e d : Block → Block) (f : Fields) (S : Stream) (x : List Byte) :
    streamRun e d (.cbcEnc f) S x
      = ({ S with sreg := chain e S.sreg x (x.length / 16) },
        blocks (x.length / 16) fun j => chain e S.sreg x (j + 1)) := by
  simp only [streamRun, cbcEnc_eq, blocks_eq]

/-- CBC decryption chains on the ciphertext it received and leaves the last block of it in its stream (R266). -/
theorem streamRun_cbcDec (e d : Block → Block) (f : Fields) (S : Stream) (x : List Byte) :
    streamRun e d (.cbcDec f) S x
      = ({ S with sreg := if x.length / 16 = 0 then S.sreg else blockAt x (x.length / 16 - 1) },
        blocks (x.length / 16) fun j =>
          (d (blockAt x j)).xor (if j = 0 then S.sreg else blockAt x (j - 1))) := by
  simp only [streamRun, cbcDec_eq, blocks_eq]

/-- Settles O19: encryption chains on the ciphertext it makes, decryption on the ciphertext it is given. -/
theorem cbcResults : Obligations.CbcResults := by
  intro f s
  rw [← State.src_length]
  refine ⟨fun hp => ?_, fun hp => ?_⟩
  · obtain ⟨hS, -⟩ := streamStart_begins hp rfl
    have hcommits := stream_commits rfl hp
    rw [streamResult, streamRun_cbcEnc] at hcommits
    exact ⟨_, hS, hcommits⟩
  · obtain ⟨hS, -⟩ := streamStart_begins hp rfl
    have hcommits := stream_commits rfl hp
    rw [streamResult, streamRun_cbcDec] at hcommits
    exact ⟨_, hS, hcommits⟩

end Sys2Proof.Machine
end

section
/-! What the MAC commands leave in TAG, and how their verifications end (R280–R287). -/

namespace Sys2Proof.Machine

open Sys2Proof.Safety

/-- A commit with no destination and a tag writes that tag with zeros after it (R53, R183). -/
theorem commit_eq_committed_taggedWith {i : Instr} {s : State} {t : List Byte} (h0 : outLength i s = 0)
    (ht : t.length ≤ 16) : commit i [] (some t) none s = committed (taggedWith s t) 0 := by
  rw [commit_eq_committed h0, taggedWith, ← tagWindow_eq ht]
  rfl

/-- A generation that passes its checks commits the first `n` bytes of its MAC to TAG (R284, R286). -/
theorem macGen_committed {i : Instr} {s : State} (hp : Passes i s) (h0 : outLength i s = 0) (T : Block) (n : Nat) :
    runChecked i s (commit i [] (some (T.bytes.take n)) none s)
      = .next (committed (taggedWith s (T.bytes.take n)) 0) := by
  rw [runChecked_pass hp, commit_eq_committed_taggedWith h0 (by simp)]

theorem State.cbcmacSrc_eq (s : State) : s.cbcmacSrc = cbcmacOf (s.E s.kc.k) s.src := cbcmac_eq _ _

theorem State.cmacOf_eq (s : State) (m : List Byte) : s.cmacOf m = Safety.cmacOf (s.E s.kc.k) s.kc.k1 s.kc.k2 m :=
  cmac_eq _ _ _ _

/-- Settles O24: the machine's padded fold is the chain by index. -/
theorem cbcmacResults : Obligations.CbcmacResults := by
  intro f s
  rw [← State.cbcmacSrc_eq]
  exact ⟨fun hp => macGen_committed hp rfl _ _, fun hp => endsVerify_of rfl (runChecked_pass hp _)⟩

/-- Settles O25: the machine's last-block rule picks the subkey that R281 names. -/
theorem cmacResults : Obligations.CmacResults := by
  intro f s
  rw [← State.cmacOf_eq]
  exact ⟨fun hp => macGen_committed hp rfl _ _, fun hp => endsVerify_of rfl (runChecked_pass hp _)⟩

end Sys2Proof.Machine
end

section
/-! The ends of the AEAD commands, and what a decryption makes of an encryption, for all four modes (R183, R301). -/

namespace Sys2Proof.Machine

open Sys2Proof.Safety

/-! ## What passing the checks gives a command of each rule for TLEN (R504, R506) -/

theorem passes_param {i : Instr} {s : State} (hp : Passes i s) : paramFails i = false := by
  obtain ⟨-, -, hparam, -⟩ := passes_iff.1 hp
  rw [paramFails_eq, hparam]

theorem passes_tlen_gcm {i : Instr} {s : State} (hp : Passes i s) (hi : (profile i).param = .gcm) :
    i.fields.tlen = 16 := by
  simpa [paramFails, hi] using passes_param hp

theorem passes_tlen_le {i : Instr} {s : State} (hp : Passes i s) (hi : (profile i).param = .tag8to16) :
    i.fields.tlen ≤ 16 := by
  have hparam : 8 ≤ i.fields.tlen ∧ i.fields.tlen ≤ 16 := by simpa [paramFails, hi] using passes_param hp
  exact hparam.2

/-- TLEN, `L` and the nonce of a CCM command that passes its checks. -/
structure CcmFieldsOk (f : Fields) (s : State) : Prop where
  tlen : 4 ≤ f.tlen ∧ f.tlen ≤ 16
  lsize : 2 ≤ f.param ∧ f.param ≤ 8
  nonce : s.nonce.length = 15 - f.param

theorem passes_ccm {i : Instr} {s : State} (hp : Passes i s) (hi : (profile i).param = .ccm)
    (hn : (profile i).nonce = .ccm) : CcmFieldsOk i.fields s := by
  obtain ⟨-, -, -, -, hnonce, -⟩ := passes_iff.1 hp
  rw [← nonceFails_eq] at hnonce
  obtain ⟨⟨htlen, -⟩, hlsize⟩ :
      ((4 ≤ i.fields.tlen ∧ i.fields.tlen ≤ 16) ∧ i.fields.tlen % 2 = 0) ∧ 2 ≤ i.fields.param ∧ i.fields.param ≤ 8 := by
    simpa [paramFails, hi] using passes_param hp
  exact ⟨htlen, hlsize, by simpa [nonceFails, hn] using hnonce⟩

/-! ## The two ends -/

/-- An encryption stores the ciphertext `C` and leaves the tag `T` of `n` bytes. -/
structure Seals (i : Instr) (s : State) (n : Nat) (C T : List Byte) : Prop where
  commits : CommitsStoring i s (taggedWith s T) C
  length : C.length = outLength i s
  tag_length : T.length = n
  tag_le : n ≤ 16

/-- A decryption has the candidate plaintext `P` and expects the tag `T` of `n` bytes. -/
structure Opens (i : Instr) (s : State) (n : Nat) (P T : List Byte) : Prop where
  ends : EndsAead i s P T n
  length : P.length = outLength i s

theorem seals_of {i : Instr} {s : State} {n : Nat} {C T : List Byte}
    (hx : exec i s = .next (commit i C (some T) none s)) (hC : C.length = outLength i s) (hT : T.length = n)
    (hn : n ≤ 16) : Seals i s n C T where
  commits := commit_stores hx rfl rfl rfl hC (by rw [taggedWith, ← tagWindow_eq (hT ▸ hn)]; rfl)
  length := hC
  tag_length := hT
  tag_le := hn

theorem opens_of {i : Instr} {s : State} {n : Nat} {P T : List Byte}
    (hx : exec i s = .next (endDecrypt i P T s)) (hi : i.fields.tlen = n) (hP : P.length = outLength i s)
    (hT : T.length = n) (hn : n ≤ 16) : Opens i s n P T :=
  ⟨endsAead_of hi hT hn hP hx, hP⟩

theorem Seals.outputOf_eq {i : Instr} {s t : State} {n : Nat} {C T : List Byte} (h : Seals i s n C T)
    (hx : exec i s = .next t) : outputOf i s t = C :=
  (outputs_of_commitsStoring h.commits h.length).outputOf_eq hx

/-- The tag window holds the tag in its first bytes (R53). -/
theorem Seals.tag_take {i : Instr} {s t : State} {n : Nat} {C T : List Byte} (h : Seals i s n C T)
    (hx : exec i s = .next t) : t.tag.bytes.take n = T := by
  obtain ⟨⟨m, hm, -⟩, -, hT, hn⟩ := h
  cases hx.symm.trans hm
  show (Bytes.ofList 16 (T ++ List.replicate (16 - T.length) 0)).bytes.take n = T
  rw [Bytes.ofList_bytes_of_length (by simp; omega), List.take_left' hT]

/-- A decryption that gets the tag it expects, with its length in RXTLEN, writes its candidate plaintext. -/
theorem Opens.outputs {i : Instr} {s : State} {n : Nat} {P T : List Byte} (h : Opens i s n P T)
    (hr : s.cl.rxtlen.toNat = n) (ht : T.take n = s.cl.tag.bytes.take n) : Outputs i s P :=
  outputs_of_commitsStoring (h.ends.1 ⟨hr, ht⟩) h.length

/-! ## Recovery -/

/-- Two states with the same parameters, key context, nonce and AAD. -/
structure SameContext (s u : State) : Prop where
  cfg : u.cfg = s.cfg
  kc : u.kc = s.kc
  nonce : u.nonce = s.nonce
  aad : u.aad = s.aad

theorem SameContext.encK_eq {s u : State} (h : SameContext s u) : u.encK = s.encK := State.encK_congr h.cfg h.kc

theorem SameContext.E_eq {s u : State} (h : SameContext s u) : u.E = s.E := by
  funext k b
  rw [State.E, State.E, h.cfg]

/-- A mode recovers its plaintext when, on the ciphertext and under the same context, it has the plaintext as its
candidate and expects the tag that was made. -/
theorem recoversAead_of {enc dec : Fields → Instr} {C T P T' : Fields → State → List Byte}
    (hseal : ∀ {f s}, Passes (enc f) s → Seals (enc f) s f.tlen (C f s) (T f s))
    (hopen : ∀ {f u}, Passes (dec f) u → Opens (dec f) u f.tlen (P f u) (T' f u))
    (hback : ∀ {f s u}, SameContext s u → u.src = C f s → P f u = s.src ∧ T' f u = T f s) :
    RecoversAead enc dec := by
  intro f s t u hs hx hu hcfg hkc hnonce haad hsrc htag hr
  have hsealed := hseal hs
  obtain ⟨hP, hT⟩ := hback ⟨hcfg, hkc, hnonce, haad⟩ (hsrc.trans (hsealed.outputOf_eq hx))
  have hopened := hopen hu
  rw [hP, hT] at hopened
  refine hopened.outputs hr ?_
  rw [htag, hsealed.tag_take hx, List.take_of_length_le hsealed.tag_length.le]

end Sys2Proof.Machine
end

section
/-! GCM and CCM: what they write, and that decryption undoes encryption (R301–R326). -/

namespace Sys2Proof.Machine

open Sys2Proof.Safety

/-! ## GCM (R303–R311) -/

theorem gcmCrypt_length (s : State) (x : List Byte) : (gcmCrypt s x).length = x.length := padded_length _ _

theorem gcmEnc_seals {f : Fields} {s : State} (hp : Passes (.gcmEnc f) s) :
    Seals (.gcmEnc f) s f.tlen (gcmCrypt s s.src) (gcmTagOf s s.aad (gcmCrypt s s.src)).bytes := by
  have hx : exec (.gcmEnc f) s = .next _ := runChecked_pass hp _
  have ht : f.tlen = 16 := passes_tlen_gcm hp rfl
  rw [gcmTag_eq, gctrSrc_eq] at hx
  rw [ht]
  exact seals_of hx ((gcmCrypt_length s s.src).trans s.src_length) (Bytes.length_bytes _) (Nat.le_refl 16)

theorem gcmDec_opens {f : Fields} {s : State} (hp : Passes (.gcmDec f) s) :
    Opens (.gcmDec f) s f.tlen (gcmCrypt s s.src) (gcmTagOf s s.aad s.src).bytes := by
  have hx : exec (.gcmDec f) s = .next _ := runChecked_pass hp _
  have ht : f.tlen = 16 := passes_tlen_gcm hp rfl
  rw [gcmTag_eq, gctrSrc_eq] at hx
  rw [ht]
  exact opens_of hx ht ((gcmCrypt_length s s.src).trans s.src_length) (Bytes.length_bytes _) (Nat.le_refl 16)

/-- Settles O26: the machine's GCTR is the keystream by index, and both directions take the tag over the ciphertext. -/
theorem gcmResults : Obligations.GcmResults := fun f _ =>
  ⟨fun hp => (gcmEnc_seals hp).commits, fun hp => by
    have hends := (gcmDec_opens hp).ends
    have ht : f.tlen = 16 := passes_tlen_gcm hp rfl
    rw [ht] at hends
    exact hends⟩

theorem SameContext.gcmCounter_eq {s u : State} (h : SameContext s u) : gcmCounter u = gcmCounter s := by
  funext j0 k
  rw [gcmCounter, gcmCounter, h.cfg]

theorem SameContext.gcmCrypt_eq {s u : State} (h : SameContext s u) : gcmCrypt u = gcmCrypt s := by
  funext x
  rw [gcmCrypt, gcmCrypt, h.E_eq, h.kc, h.nonce, h.gcmCounter_eq]

theorem SameContext.gcmTagOf_eq {s u : State} (h : SameContext s u) : gcmTagOf u = gcmTagOf s := by
  funext a c
  rw [gcmTagOf, gcmTagOf, h.E_eq, h.kc, h.nonce]

/-- Settles O36: both directions take the same pad, and the tag is over the ciphertext. -/
theorem gcmRecovers : Obligations.GcmRecovers := by
  refine recoversAead_of gcmEnc_seals gcmDec_opens fun {_ s u} h hsrc => ?_
  rw [hsrc, h.gcmCrypt_eq, h.gcmTagOf_eq, h.aad]
  exact ⟨padded_padded _ _, rfl⟩

/-! ## CCM (R320–R326) -/

theorem ccmCryptOf_length (s : State) (L : Nat) (x : List Byte) : (ccmCryptOf s L x).length = x.length :=
  padded_length _ _

theorem ccmTagOf_length (s : State) {t : Nat} (ht : t ≤ 16) (L : Nat) (pl : List Byte) :
    (ccmTagOf s t L pl).length = t := by
  simp [ccmTagOf, ht]

theorem ccmEnc_seals {f : Fields} {s : State} (hp : Passes (.ccmEnc f) s) :
    Seals (.ccmEnc f) s f.tlen (ccmCryptOf s f.param s.src) (ccmTagOf s f.tlen f.param s.src) := by
  have hx : exec (.ccmEnc f) s = .next _ := runChecked_pass hp _
  obtain ⟨htlen, hlsize, hnl⟩ : CcmFieldsOk f s := passes_ccm hp rfl rfl
  rw [ccmTag_eq _ htlen hlsize hnl, ccmCrypt_src_eq _ hlsize hnl] at hx
  exact seals_of hx ((ccmCryptOf_length s _ _).trans s.src_length) (ccmTagOf_length s htlen.2 _ _) htlen.2

theorem ccmDec_opens {f : Fields} {s : State} (hp : Passes (.ccmDec f) s) :
    Opens (.ccmDec f) s f.tlen (ccmCryptOf s f.param s.src)
      (ccmTagOf s f.tlen f.param (ccmCryptOf s f.param s.src)) := by
  have hx : exec (.ccmDec f) s = .next _ := runChecked_pass hp _
  obtain ⟨htlen, hlsize, hnl⟩ : CcmFieldsOk f s := passes_ccm hp rfl rfl
  rw [ccmTag_eq _ htlen hlsize hnl, ccmCrypt_src_eq _ hlsize hnl] at hx
  exact opens_of hx rfl ((ccmCryptOf_length s _ _).trans s.src_length) (ccmTagOf_length s htlen.2 _ _) htlen.2

/-- Settles O27: the machine's `B` and counter blocks are the ones said byte by byte, for fields that pass the checks. -/
theorem ccmResults : Obligations.CcmResults := fun _ _ =>
  ⟨fun hp => (ccmEnc_seals hp).commits, fun hp => (ccmDec_opens hp).ends⟩

theorem SameContext.ccmCryptOf_eq {s u : State} (h : SameContext s u) : ccmCryptOf u = ccmCryptOf s := by
  funext L x
  rw [ccmCryptOf, ccmCryptOf, h.E_eq, h.kc, h.nonce]

theorem SameContext.ccmTagOf_eq {s u : State} (h : SameContext s u) : ccmTagOf u = ccmTagOf s := by
  funext t L pl
  rw [ccmTagOf, ccmTagOf, h.E_eq, h.kc, h.nonce, h.aad]

/-- Settles O37: both directions take the same pad, and the tag is over the plaintext recovered. -/
theorem ccmRecovers : Obligations.CcmRecovers := by
  refine recoversAead_of ccmEnc_seals ccmDec_opens fun {f s u} h hsrc => ?_
  have hback : ccmCryptOf s f.param (ccmCryptOf s f.param s.src) = s.src := padded_padded _ _
  rw [hsrc, h.ccmCryptOf_eq, h.ccmTagOf_eq, hback]
  exact ⟨rfl, rfl⟩

end Sys2Proof.Machine
end

section
/-! EAX and OCB: their ends, and that decryption undoes encryption (R340–R358). -/

namespace Sys2Proof.Machine

open Sys2Proof.Safety

/-! ## EAX (R340–R344) -/

theorem eaxCryptOf_length (s : State) (x : List Byte) : (eaxCryptOf s x).length = x.length := padded_length _ _

theorem eaxTagOf_length (s : State) {t : Nat} (ht : t ≤ 16) (c : List Byte) : (eaxTagOf s t c).length = t := by
  simp [eaxTagOf, ht]

theorem eaxEnc_seals {f : Fields} {s : State} (hp : Passes (.eaxEnc f) s) :
    Seals (.eaxEnc f) s f.tlen (eaxCryptOf s s.src) (eaxTagOf s f.tlen (eaxCryptOf s s.src)) := by
  have hx : exec (.eaxEnc f) s = .next _ := runChecked_pass hp _
  have ht : f.tlen ≤ 16 := passes_tlen_le hp rfl
  rw [eaxTag_eq, eaxCrypt_eq] at hx
  exact seals_of hx ((eaxCryptOf_length s s.src).trans s.src_length) (eaxTagOf_length s ht _) ht

theorem eaxDec_opens {f : Fields} {s : State} (hp : Passes (.eaxDec f) s) :
    Opens (.eaxDec f) s f.tlen (eaxCryptOf s s.src) (eaxTagOf s f.tlen s.src) := by
  have hx : exec (.eaxDec f) s = .next _ := runChecked_pass hp _
  have ht : f.tlen ≤ 16 := passes_tlen_le hp rfl
  rw [eaxTag_eq, eaxCrypt_eq] at hx
  exact opens_of hx rfl ((eaxCryptOf_length s s.src).trans s.src_length) (eaxTagOf_length s ht _) ht

theorem SameContext.omacOf_eq {s u : State} (h : SameContext s u) : omacOf u = omacOf s := by
  funext d m
  rw [omacOf, omacOf, h.E_eq, h.kc]

theorem SameContext.eaxCryptOf_eq {s u : State} (h : SameContext s u) : eaxCryptOf u = eaxCryptOf s := by
  funext x
  rw [eaxCryptOf, eaxCryptOf, h.E_eq, h.kc, h.nonce, h.omacOf_eq]

theorem SameContext.eaxTagOf_eq {s u : State} (h : SameContext s u) : eaxTagOf u = eaxTagOf s := by
  funext t c
  rw [eaxTagOf, eaxTagOf, h.omacOf_eq, h.nonce, h.aad]

/-- Settles O38: both directions take the same pad, and the tag is over the ciphertext. -/
theorem eaxRecovers : Obligations.EaxRecovers := by
  refine recoversAead_of eaxEnc_seals eaxDec_opens fun {_ s u} h hsrc => ?_
  rw [hsrc, h.eaxCryptOf_eq, h.eaxTagOf_eq]
  exact ⟨padded_padded _ _, rfl⟩

/-! ## OCB (R350–R358) -/

theorem ocb_tag_length (s : State) (enc : Bool) {t : Nat} (ht : t ≤ 16) : (s.ocb enc t).2.length = t := by
  simp [State.ocb, ocbCore_eq, ocbTagL, ht]

theorem ocbEnc_seals {f : Fields} {s : State} (hp : Passes (.ocbEnc f) s) :
    Seals (.ocbEnc f) s f.tlen (s.ocb true f.tlen).1 (s.ocb true f.tlen).2 := by
  have ht : f.tlen ≤ 16 := passes_tlen_le hp rfl
  exact seals_of (runChecked_pass hp _) ((ocb_length s _ _).trans s.src_length) (ocb_tag_length s _ ht) ht

theorem ocbDec_opens {f : Fields} {s : State} (hp : Passes (.ocbDec f) s) :
    Opens (.ocbDec f) s f.tlen (s.ocb false f.tlen).1 (s.ocb false f.tlen).2 := by
  have ht : f.tlen ≤ 16 := passes_tlen_le hp rfl
  exact opens_of (runChecked_pass hp _) rfl ((ocb_length s _ _).trans s.src_length) (ocb_tag_length s _ ht) ht

/-- Decryption of an encryption's output gives the plaintext back, and so the same checksum and tag. -/
theorem ocb_of_ocb {s u : State} (h : SameContext s u) {t : Nat} (hsrc : u.src = (s.ocb true t).1) :
    u.ocb false t = (s.src, (s.ocb true t).2) := by
  have hdec : ∀ b, u.decK (s.encK b) = b := State.decK_encK h.cfg h.kc
  simp only [State.ocb, ocbCore_eq, if_true] at hsrc ⊢
  simp only [hsrc, h.encK_eq, h.kc, h.nonce, h.aad, Bool.false_eq_true, if_false, ocbOutL_inverse hdec]

/-- Settles O39: decryption undoes encryption block by block and in the tail, and the tag is over the plaintext. -/
theorem ocbRecovers : Obligations.OcbRecovers :=
  recoversAead_of ocbEnc_seals ocbDec_opens fun h hsrc => by
    rw [ocb_of_ocb h hsrc]
    exact ⟨rfl, rfl⟩

end Sys2Proof.Machine
end

section
/-! What the EAX and OCB commands write and leave in TAG, by index and by bit (R340–R358). -/

namespace Sys2Proof.Machine

open Sys2Proof.Safety

/-- Settles O28: the machine's CTR loop and its OMACs are the ones by index, and both directions take the tag over the
ciphertext. -/
theorem eaxResults : Obligations.EaxResults := fun _ _ =>
  ⟨fun hp => (eaxEnc_seals hp).commits, fun hp => (eaxDec_opens hp).ends⟩

/-- The nonce of an OCB command that passes its checks has 1 to 15 bytes (R506), the lengths for which the nonce block
has room for the 1 bit before `N` (R351). -/
theorem passes_nonce_ocb {i : Instr} {s : State} (hp : Passes i s) (hi : (profile i).nonce = .ocb) :
    1 ≤ s.nonce.length ∧ s.nonce.length ≤ 15 := by
  obtain ⟨-, -, -, -, hnonce, -⟩ := passes_iff.1 hp
  rw [← nonceFails_eq] at hnonce
  simpa [nonceFails, hi] using hnonce

/-- What the machine computes for an OCB command that passes its checks: output and tag from `Offset0` said bit by bit,
the tag over the plaintext in both directions (R351–R354). -/
theorem ocb_eq_of_passes {i : Instr} {s : State} (hp : Passes i s) (hi : (profile i).nonce = .ocb)
    (hl : 32 ≤ s.kc.l.length) (enc : Bool) (t : Nat) :
    let off0 := ocbStartOffset (s.E s.kc.k) t s.nonce
    let out := ocbOut s (if enc then s.E s.kc.k else s.D s.kc.k) off0 s.src
    s.ocb enc t = (out, ocbTagOf s t off0 (if enc then s.src else out)) := by
  rw [← ocbOffset0_eq _ _ (passes_nonce_ocb hp hi)]
  exact ocb_eq hl enc t

/-- Settles O29: within 32-bit lengths the stored `L_0 … L_31` are all that the offsets take, and `Offset0` is the one
said bit by bit for every nonce that passes the checks. -/
theorem ocbResults : Obligations.OcbResults := by
  intro f s hl off0
  refine ⟨fun hp => ?_, fun hp => ?_⟩
  · have hseals := ocbEnc_seals hp
    rw [ocb_eq_of_passes hp rfl hl] at hseals
    exact hseals.commits
  · have hopens := ocbDec_opens hp
    rw [ocb_eq_of_passes hp rfl hl] at hopens
    exact hopens.ends

end Sys2Proof.Machine
end

section
/-! What the XTS and KW commands write, and that their decryptions undo their encryptions (R380–R393). -/

namespace Sys2Proof.Machine

open Sys2Proof.Safety

/-! ## XTS (R380–R386) -/

/-- The tweaks `T_0, T_1, …` of the machine's XTS (R381). -/
def State.xtsTweaks (s : State) (j : Nat) : Block := s.cfg.xtsAlphaOrder.alpha^[j] s.xtsT0

theorem State.xtsTweaks_congr {s u : State} (hcfg : u.cfg = s.cfg) (hkc : u.kc = s.kc) (hnonce : u.nonce = s.nonce) :
    u.xtsTweaks = s.xtsTweaks := by
  funext j
  simp only [State.xtsTweaks, State.xtsT0, State.E, hcfg, hkc, hnonce]

theorem passes_xts_length {i : Instr} {s : State} (hp : Passes i s) (hi : (profile i).len = .xts) :
    16 ≤ s.src.length := by
  obtain ⟨-, -, -, -, -, hlen, -⟩ := passes_iff.1 hp
  rw [← lenFails_eq] at hlen
  simpa [lenFails, hi] using hlen

/-- What an XTS command stores, with `g` the cipher of its direction. -/
structure XtsWrites (i : Instr) (s : State) (g : Block → Block) (dec : Bool) : Prop where
  commits : CommitsStoring i s s (xtsOut g dec s.xtsTweaks s.src)
  length : (xtsOut g dec s.xtsTweaks s.src).length = outLength i s

theorem xtsWrites_of {i : Instr} {s : State} {g : Block → Block} {dec : Bool} (hp : Passes i s)
    (hi : (profile i).len = .xts) (ho : outLength i s = s.cl.srcLen.toNat)
    (hx : exec i s
      = .next (commit i (xtsCrypt s.cfg.xtsAlphaOrder.alpha g dec s.xtsT0 s.src) none none s)) :
    XtsWrites i s g dec := by
  have hlen : (xtsOut g dec s.xtsTweaks s.src).length = outLength i s := by
    rw [xtsOut_length _ _ _ (passes_xts_length hp hi), State.src_length, ho]
  rw [xtsCrypt_eq] at hx
  exact ⟨commit_stores hx rfl rfl rfl hlen rfl, hlen⟩

theorem XtsWrites.outputs {i : Instr} {s : State} {g : Block → Block} {dec : Bool} (h : XtsWrites i s g dec) :
    Outputs i s (xtsOut g dec s.xtsTweaks s.src) := outputs_of_commitsStoring h.commits h.length

theorem xtsEnc_writes {f : Fields} {s : State} (hp : Passes (.xtsEnc f) s) :
    XtsWrites (.xtsEnc f) s (s.E s.kc.key1) false := xtsWrites_of hp rfl rfl (runChecked_pass hp _)

theorem xtsDec_writes {f : Fields} {s : State} (hp : Passes (.xtsDec f) s) :
    XtsWrites (.xtsDec f) s (s.D s.kc.key1) true := xtsWrites_of hp rfl rfl (runChecked_pass hp _)

/-- Settles O30: the machine's loop and its stealing are the XTS by index, under the tweaks of the nonce region. -/
theorem xtsResults : Obligations.XtsResults := by
  intro f s alpha T
  have halpha : alpha = s.cfg.xtsAlphaOrder.alpha := by
    simp only [alpha]
    cases s.cfg.xtsAlphaOrder <;> rfl
  have hT : T = s.xtsTweaks := by
    funext j
    simp only [T, halpha, State.xtsTweaks, State.xtsT0, blockAt, Nat.mul_zero, List.drop_zero, Bytes.ofList_take]
  rw [hT]
  exact ⟨fun hp => (xtsEnc_writes hp).commits, fun hp => (xtsDec_writes hp).commits⟩

/-- Settles O34: both directions take the same tweaks, and stealing undoes itself. -/
theorem xtsRecovers : Obligations.XtsRecovers := by
  intro f g s t u hs hx hu _ _ _ hcfg hkc hnonce hsrc
  have hinv : ∀ b, u.D u.kc.key1 (s.E s.kc.key1 b) = b := fun b => by
    simp only [State.D, State.E, hcfg, hkc, Primitive.decrypt_encrypt]
  have hout := (xtsDec_writes hu).outputs
  rw [hsrc, (xtsEnc_writes hs).outputs.outputOf_eq hx, State.xtsTweaks_congr hcfg hkc hnonce,
    xtsOut_inverse hinv _ (passes_xts_length hs rfl)] at hout
  exact hout

/-! ## KW (R390–R393) -/

theorem passes_kwWrap_length {f : Fields} {s : State} (hp : Passes (.kwWrap f) s) :
    s.src.length % 8 = 0 ∧ 16 ≤ s.src.length := by
  obtain ⟨-, -, -, -, -, hlen, -⟩ := passes_iff.1 hp
  simpa [failsLen] using hlen

theorem passes_kwUnwrap_length {f : Fields} {s : State} (hp : Passes (.kwUnwrap f) s) :
    s.src.length % 8 = 0 ∧ 24 ≤ s.src.length := by
  obtain ⟨-, -, -, -, -, hlen, -⟩ := passes_iff.1 hp
  simpa [failsLen] using hlen

/-- A passing KW_WRAP fills its destination, which is 8 bytes longer than its source (R153). -/
theorem kwWrap_fills {f : Fields} {s : State} (hp : Passes (.kwWrap f) s) :
    (kwWrap s.encK s.src).length = outLength (.kwWrap f) s := by
  rw [kwWrap_length _ (passes_kwWrap_length hp).1, State.src_length]
  rfl

theorem kwWrap_commits {f : Fields} {s : State} (hp : Passes (.kwWrap f) s) :
    CommitsStoring (.kwWrap f) s s (kwWrap s.encK s.src) :=
  commit_stores (runChecked_pass hp _) rfl rfl rfl (kwWrap_fills hp) rfl

/-- The plaintext half-blocks of a passing KW_UNWRAP fill its destination (R153). -/
theorem kwUnwrap_fills {f : Fields} {s : State} (hp : Passes (.kwUnwrap f) s) :
    (kwUnwrap s.decK s.src).1.length = outLength (.kwUnwrap f) s := by
  rw [kwUnwrap_length _ (passes_kwUnwrap_length hp).1, State.src_length]
  rfl

/-- KW_UNWRAP whose `A` is the default IV (R393). -/
theorem kwUnwrap_commits {f : Fields} {s : State} (hp : Passes (.kwUnwrap f) s)
    (hok : (kwUnwrap s.decK s.src).2 = true) :
    CommitsStoring (.kwUnwrap f) s s (kwUnwrap s.decK s.src).1 :=
  commit_stores ((runChecked_pass hp _).trans (by rw [if_pos hok])) rfl rfl rfl (kwUnwrap_fills hp) rfl

/-- KW_UNWRAP whose `A` is another (R393). -/
theorem kwUnwrap_fails {f : Fields} {s : State} (hp : Passes (.kwUnwrap f) s)
    (hok : ¬ (kwUnwrap s.decK s.src).2 = true) :
    FailsStoringZeros (.kwUnwrap f) s (kwUnwrap s.decK s.src).1.length :=
  authFail_stores ((runChecked_pass hp _).trans (by rw [if_neg hok])) (kwUnwrap_fills hp).symm

/-- Settles O31: the rounds are the steps of the running counter, and the `A` of the unwrapping is the one it starts
from. -/
theorem kwResults : Obligations.KwResults := by
  intro f s
  refine ⟨fun hp => ?_, fun hp => ?_⟩
  · have hcommits := kwWrap_commits hp
    rw [kwWrap_eq] at hcommits
    exact hcommits
  · obtain ⟨hmod, hmin⟩ := passes_kwUnwrap_length hp
    obtain ⟨a, hfrom, hiv⟩ := kwUnwrap_spec (e := s.encK) (d := s.decK) (s.E_D s.kc.k) hmod (by omega)
    have hbytes : a.bytes = List.replicate 8 0xA6 ↔ (kwUnwrap s.decK s.src).2 = true := by
      rw [hiv]
      exact ⟨fun h => Bytes.ext_bytes h, fun h => congrArg Bytes.bytes h⟩
    refine ⟨a, (kwUnwrap s.decK s.src).1, ?_, hfrom, fun h => kwUnwrap_commits hp (hbytes.1 h),
      fun h => kwUnwrap_fails hp (mt hbytes.2 h)⟩
    rw [kwUnwrap_length _ hmod, ← State.src_length]
    omega

/-- Settles O35: the unwrapping runs the rounds back to the default IV. -/
theorem kwRecovers : Obligations.KwRecovers := by
  intro f g s t u hs hx hu _ _ _ hcfg hkc _ hsrc
  rw [(outputs_of_commitsStoring (kwWrap_commits hs) (kwWrap_fills hs)).outputOf_eq hx] at hsrc
  have hback : kwUnwrap u.decK u.src = (s.src, true) := by
    rw [hsrc, kwUnwrap_kwWrap (State.decK_encK hcfg hkc) (passes_kwWrap_length hs).1]
  have hout := outputs_of_commitsStoring (kwUnwrap_commits hu (by rw [hback])) (kwUnwrap_fills hu)
  rw [hback] at hout
  exact hout

end Sys2Proof.Machine
end

section
/-! The ends of a command by its first failing check, run to completion or aborted, and that every run comes to its
end (R502, R503, R510, R581). -/

namespace Sys2Proof.Machine

open Sys2Proof.Safety

/-! ## The error completion (R502, R503) -/

/-- A command with a failing check ends with its error (R503). -/
theorem exec_of_firstFailure {i : Instr} {s : State} {c : ErrCode} (h : firstFailure i s = some c) :
    exec i s = .next (errored s c) := by
  rcases exec_answers i s with ⟨c', h', hx⟩ | ⟨hp, _⟩ | ⟨hp, _⟩
  · cases h.symm.trans h'
    exact hx
  · cases h.symm.trans hp
  · cases h.symm.trans hp

/-- A command that passes its checks raises no error, whether it commits or fails to verify (R185). -/
theorem exec_of_passes {i : Instr} {s : State} (hp : Passes i s) :
    ∃ t, exec i s = .next t ∧ t.err = false ∧ t.errcode = .none := by
  rcases exec_answers i s with ⟨c, h, _⟩ | ⟨_, out, tag, gfr, u, hx, _⟩ | ⟨_, _, hx⟩
  · cases h.symm.trans hp
  · exact ⟨_, hx, rfl, rfl⟩
  · exact ⟨_, hx, rfl, rfl⟩

/-- Settles O12: of the answers a command can give, the error is the one of its first failing check. -/
theorem firstFailingCheckReported : Obligations.FirstFailingCheckReported := fun _ _ =>
  ⟨fun _ => exec_of_firstFailure, fun hp =>
    let ⟨t, hx, herr, _⟩ := exec_of_passes hp
    ⟨t, hx, herr⟩⟩

/-- Settles O13: the two states have the same first failing check, and the end of a command shows no more of it than its
code. -/
theorem errorsIgnoreData : Obligations.ErrorsIgnoreData := by
  intro i s s' h1 h2 h3 h4 h5 h6 h7 h8 h9 h10 h11 h12 h13
  have hsame : firstFailure i s' = firstFailure i s := firstFailure_congr h1 h2 h3 h4 h5 h6 h7 h8 h9 h10 h11 h12 h13
  cases hf : firstFailure i s with
  | some c => exact ⟨_, _, exec_of_firstFailure hf, exec_of_firstFailure (hsame.trans hf), rfl, rfl⟩
  | none =>
    obtain ⟨t, hx, herr, hcode⟩ := exec_of_passes hf
    obtain ⟨t', hx', herr', hcode'⟩ := exec_of_passes (hsame.trans hf)
    exact ⟨t, t', hx, hx', herr'.trans herr.symm, hcode'.trans hcode.symm⟩

/-! ## A BUSY command ends (R501, R581) -/

theorem exec_ends (i : Instr) (s : State) : ∃ t, exec i s = .next t ∧ t.seq = .idle :=
  let ⟨t, hx, hseq, _⟩ := commandOutcomes i s
  ⟨t, hx, hseq⟩

theorem engineTurn_ends (s : State) : ∃ t, engineTurn s = .next t ∧ t.seq = .idle := by
  cases hs : s.seq with
  | idle => exact ⟨s, engineTurn_of_idle hs, hs⟩
  | busy =>
    cases hd : decodeWord s.cl.cmd with
    | error e => exact ⟨_, engineTurn_of_rejected hs hd, rfl⟩
    | ok i =>
      rw [engineTurn_of_decodes hs hd]
      exact exec_ends i s

/-- A step leaves the engine IDLE, or it was a host access, which uses up one pending input. -/
theorem step_ends_or_uses_input (s : State) :
    ∃ t, step s = .next t ∧ (t.seq = .idle ∨ t.inputs.length + 1 = s.inputs.length) := by
  cases hin : s.inputs with
  | nil =>
    obtain ⟨t, ht, hidle⟩ := engineTurn_ends s
    exact ⟨t, (step_of_inputs_nil hin).trans ht, .inl hidle⟩
  | cons x rest =>
    cases x with
    | engine =>
      obtain ⟨t, ht, hidle⟩ := engineTurn_ends { s with inputs := rest }
      exact ⟨t, (step_of_engine hin).trans ht, .inl hidle⟩
    | access a =>
      refine ⟨_, step_of_access hin, .inr ?_⟩
      rw [(hostAccess_inputs a _).1, List.length_cons]
    | hardReset => exact ⟨_, step_of_hardReset hin, .inl rfl⟩

theorem run_succ {M : Host.Core} {s t : M.State} (k : Nat) (h : M.step s = .next t) : M.run (k + 1) s = M.run k t := by
  rw [Host.Core.run, h]

theorem run_reaches_idle (n : Nat) (s : State) (hn : s.inputs.length = n) :
    ∃ k t, k ≤ n + 1 ∧ Host.Core.run Sys2Proof.core k s = .next t ∧ t.seq = .idle := by
  induction n generalizing s with
  | zero =>
    obtain ⟨t, ht, hidle | hused⟩ := step_ends_or_uses_input s
    · exact ⟨1, t, le_rfl, run_succ (M := Sys2Proof.core) 0 ht, hidle⟩
    · omega
  | succ n ih =>
    obtain ⟨t, ht, hidle | hused⟩ := step_ends_or_uses_input s
    · exact ⟨1, t, by omega, run_succ (M := Sys2Proof.core) 0 ht, hidle⟩
    · obtain ⟨k, u, hk, hrun, hidle⟩ := ih t (by omega)
      exact ⟨k + 1, u, by omega, (run_succ (M := Sys2Proof.core) k ht).trans hrun, hidle⟩

/-- Settles O9: each step that does not end the command uses up a pending input. -/
theorem stepsGoOnAndBusyEnds : Obligations.StepsGoOnAndBusyEnds :=
  ⟨fun s =>
    let ⟨t, ht, _⟩ := step_ends_or_uses_input s
    ⟨t, ht⟩,
    fun s _ => run_reaches_idle _ s rfl⟩

/-! ## The check of the latched word (R152, R502) -/

section
variable {s : State} {i : Instr}

theorem checkLatched_of_rejected {e : DecodeReject} (h : decodeWord s.cl.cmd = .error e) :
    checkLatched s = .error .badop := by
  simp only [checkLatched, h]

theorem checkLatched_of_firstFailure {c : ErrCode} (hd : decodeWord s.cl.cmd = .ok i)
    (hf : firstFailure i s = some c) : checkLatched s = .error c := by
  simp only [checkLatched, hd, check_eq, hf]

theorem checkLatched_of_passes (hd : decodeWord s.cl.cmd = .ok i) (hp : Passes i s) : checkLatched s = .ok i := by
  have hf : firstFailure i s = none := hp
  simp only [checkLatched, hd, check_eq, hf]

end

/-! ## Abort (R510) -/

theorem abort_of_error {s : State} {c : ErrCode} (h : checkLatched s = .error c) : abort s = errored s c := by
  simp only [abort, h]
  rfl

theorem abort_of_ok {s : State} {i : Instr} (h : checkLatched s = .ok i) : abort s = abortRun i s := by
  simp only [abort, h]

theorem streamFamily_isSome (i : Instr) : (streamFamily i).isSome = isStream i := by
  rw [streamFamily_eq]
  cases isStream i <;> rfl

/-- Zero-filling an empty destination writes nothing. -/
theorem msgZeroed_eq (i : Instr) (s : State) :
    msgZeroed i s = Memory.writeBytes s.msg s.cl.dstPtr.toNat (List.replicate (outLength i s) 0) := by
  rw [msgZeroed, outlen_eq]
  by_cases hpos : 0 < outLength i s
  · rw [if_pos hpos]
  · rw [if_neg hpos, Nat.eq_zero_of_not_pos hpos]
    rfl

/-- Settles O52: an abort takes the checks of the latched command first, and only a command that passes them has its
outputs zeroed. -/
theorem abortOutcome : Obligations.AbortOutcome := by
  intro s
  refine ⟨fun e hd => abort_of_error (checkLatched_of_rejected hd),
    fun i c hd hf => abort_of_error (checkLatched_of_firstFailure hd hf), fun i hd hp => ⟨msgZeroed i s, ?_⟩⟩
  intro isKeyinit t
  have hkeyinit : ((profile i).key == .keyinit) = isKeyinit := by cases i <;> rfl
  refine ⟨?_, msgByte_of_msg (msgZeroed_eq i s) rfl⟩
  rw [abort_of_ok (checkLatched_of_passes hd hp)]
  simp only [abortRun, hkeyinit, profile_tagOut_eq, profile_gfrOut_eq, streamFamily_isSome]
  rfl

end Sys2Proof.Machine
end

section
/-! The soft reset (R561, R562). -/

namespace Sys2Proof.Machine

open Sys2Proof.Safety

/-- No register shows whether a reset was soft or hard (R561). -/
theorem readReg_softReset (s : State) (r : Reg) : (softReset s).readReg r = (hardReset s).readReg r := by
  cases r <;> rfl

theorem softReset_msgByte_of_idle {s : State} (h : s.seq = .idle) (b : Nat) :
    (softReset s).msgByte b = s.msgByte b := by
  have hmsg : (softReset s).msg = s.msg := by simp only [softReset, msgAfterSoftReset, h]
  exact State.msgByte_congr hmsg rfl b

theorem softReset_msgByte_of_error {s : State} {c : ErrCode} (h : checkLatched s = .error c) (b : Nat) :
    (softReset s).msgByte b = s.msgByte b := by
  have hmsg : (softReset s).msg = s.msg := by
    cases hs : s.seq <;> simp only [softReset, msgAfterSoftReset, hs, h]
  exact State.msgByte_congr hmsg rfl b

/-- The running command's destination becomes free bytes (R562). -/
theorem softReset_stores {s : State} {i : Instr} (hb : s.seq = .busy) (h : checkLatched s = .ok i) :
    Stores s (softReset s) s.cl.dstPtr.toNat (freeBytes s.draws s.cl.dstPtr.toNat (outLength i s)) :=
  msgByte_of_msg (by simp only [softReset, msgAfterSoftReset, hb, h, outlen_eq]) rfl

theorem softReset_msgByte_outside {s : State} {i : Instr} (hb : s.seq = .busy) (h : checkLatched s = .ok i) {b : Nat}
    (hout : ¬ (s.cl.dstPtr.toNat ≤ b ∧ b < s.cl.dstPtr.toNat + outLength i s)) :
    (softReset s).msgByte b = s.msgByte b := by
  have hlen : (freeBytes s.draws s.cl.dstPtr.toNat (outLength i s)).length = outLength i s := by simp [freeBytes]
  rw [softReset_stores hb h b, hlen, if_neg hout]

/-- Settles O50: the registers are those of a hard reset, and MSG changes only under a running command that passes its
checks. Named apart from the model's `softReset`. -/
theorem softResetState : Obligations.SoftReset := by
  intro s v hv t
  have ht : t = softReset s := (controlWrite s v).1 hv
  rw [ht]
  refine ⟨fun r => (readReg_softReset s r).trans (readReg_hardReset s r), rfl, rfl, rfl, rfl, rfl, fun b hb => ?_⟩
  cases hs : s.seq with
  | idle => exact softReset_msgByte_of_idle hs b
  | busy =>
    cases hd : decodeWord s.cl.cmd with
    | error e => exact softReset_msgByte_of_error (checkLatched_of_rejected hd) b
    | ok i =>
      cases hf : firstFailure i s with
      | some c => exact softReset_msgByte_of_error (checkLatched_of_firstFailure hd hf) b
      | none =>
        rcases hb with hidle | hfails | ⟨j, hj, hout⟩
        · cases hs.symm.trans hidle
        · exact absurd hf (hfails i hd)
        · cases hd.symm.trans hj
          exact softReset_msgByte_outside hs (checkLatched_of_passes hd hf) hout

end Sys2Proof.Machine
end
